-- ==== Sys2Proof/Word.lean ====
section
/-! DEFINITION. The word types of HCC (00_scope.md R7, R9): every value is unsigned. -/

namespace Sys2Proof

/-- A host-bus word: a register, a command word or one word of a bit buffer (00_scope.md R9). -/
abbrev Word := BitVec 32

/-- One byte of a bit buffer in its little-endian byte view (20_memory.md R51). -/
abbrev Byte := BitVec 8

/-- A byte offset within the register window, 0x00000 to 0x3FFFF (20_memory.md R50). -/
abbrev Offset := BitVec 18

/-- A frequency count: `CW` = 32 bits (00_scope.md R7, 40_frequency.md R104). -/
abbrev Count := BitVec 32

/-- A node weight: `WW` = 48 bits (00_scope.md R7, 41_tree.md R134). -/
abbrev Weight := BitVec 48

/-- A node's depth attribute: `DW` = 16 bits (00_scope.md R7, 41_tree.md R135). -/
abbrev Depth := BitVec 16

end Sys2Proof
end

