-- ==== Sys2Proof/Syntax.lean ====
section
/-! DEFINITION. The commands of HCC, one constructor per row of spec/opcode_table.json (30_encoding.md R73). -/

namespace Sys2Proof

/-- A decoded command. The symbol operand is the unsigned integer `s = zext_32(CMD[15:0])` (30_encoding.md R72). -/
inductive Instr where
  /-- NOP (40_frequency.md R100) -/
  | nop
  /-- INIT (40_frequency.md R101) -/
  | init
  /-- OBSERVE s (40_frequency.md R102) -/
  | observe (sym : Nat)
  /-- ENCODE s (42_encoder.md R150) -/
  | encode (sym : Nat)
  /-- EOFCODE (42_encoder.md R151) -/
  | eofcode
  /-- DECODE (43_decoder.md R170) -/
  | decode
  /-- GETCOUNT s (40_frequency.md R103) -/
  | getcount (sym : Nat)
  /-- VALUEAT (41_tree.md R129) -/
  | valueat
  deriving DecidableEq, Repr

end Sys2Proof
end

