-- ==== Sys2Proof/WellFormed.lean ====
section
/-! DEFINITION. What a command must satisfy to have an encoding: the symbol operand fits the 16-bit field
(30_encoding.md R71, R72). The range check against `A` is part of execution, not of this (30_encoding.md R79). -/

namespace Sys2Proof

/-- The operand fits OPERAND, bits 15:0 (30_encoding.md R71). -/
abbrev operandFits (sym : Nat) : Prop := sym < 65536

/-- A command that has an encoding. -/
abbrev Instr.wellFormed (i : Instr) : Prop :=
  match i with
  | .nop => True
  | .init => True
  | .observe sym => operandFits sym
  | .encode sym => operandFits sym
  | .eofcode => True
  | .decode => True
  | .getcount sym => operandFits sym
  | .valueat => True

end Sys2Proof
end

