-- ==== Sys2Proof/Decode.lean ====
section
/-! DEFINITION. The command decoder, total on all 2^32 words (30_encoding.md R79), and the encoder (R71, R73, R77).
A command is one 32-bit word written to `CMD`; there are no other lengths (R70). -/

namespace Sys2Proof

/-- Why a word is illegal, named by the clause of 30_encoding.md R74. -/
inductive DecodeError where
  /-- (a) the opcode is 0x8 or above -/
  | reservedOpcode
  /-- (b) bits 27:16 are not zero -/
  | reservedField
  /-- (c) an operand-free command has a nonzero OPERAND -/
  | operandNotZero
  deriving DecidableEq, Repr

/-- OPC, bits 31:28 (30_encoding.md R71). -/
def opcOf (w : Word) : BitVec 4 := w.extractLsb' 28 4

/-- RSV, bits 27:16 (30_encoding.md R71). -/
def rsvOf (w : Word) : BitVec 12 := w.extractLsb' 16 12

/-- OPERAND, bits 15:0 (30_encoding.md R71). -/
def operandOf (w : Word) : BitVec 16 := w.extractLsb' 0 16

/-- A command without operand: legal only when OPERAND is zero (30_encoding.md R74 (c)). -/
def operandFree (operand : BitVec 16) (i : Instr) : Except DecodeError Instr :=
  if operand = 0#16 then .ok i else .error .operandNotZero

/-- `decodeCmd` of 30_encoding.md R79. -/
def decodeCmd (w : Word) : Except DecodeError Instr :=
  if rsvOf w ≠ 0#12 then .error .reservedField
  else match (opcOf w).toNat with
    | 0 => operandFree (operandOf w) .nop
    | 1 => operandFree (operandOf w) .init
    | 2 => .ok (.observe (operandOf w).toNat)
    | 3 => .ok (.encode (operandOf w).toNat)
    | 4 => operandFree (operandOf w) .eofcode
    | 5 => operandFree (operandOf w) .decode
    | 6 => .ok (.getcount (operandOf w).toNat)
    | 7 => operandFree (operandOf w) .valueat
    | _ => .error .reservedOpcode

/-- The assembled word `{OPC, 12'b0, s[15:0]}` (30_encoding.md R77). -/
def commandWord (opc : BitVec 4) (sym : Nat) : Word := opc ++ 0#12 ++ BitVec.ofNat 16 sym

/-- The word of a command (30_encoding.md R73, R77). -/
def encode (i : Instr) : Word :=
  match i with
  | .nop => commandWord 0x0#4 0
  | .init => commandWord 0x1#4 0
  | .observe sym => commandWord 0x2#4 sym
  | .encode sym => commandWord 0x3#4 sym
  | .eofcode => commandWord 0x4#4 0
  | .decode => commandWord 0x5#4 0
  | .getcount sym => commandWord 0x6#4 sym
  | .valueat => commandWord 0x7#4 0

/-- The command whose table word of `nbits` bits is `w`. Every row of the table has 32 bits and bit 0 is bit 0 of the
word written to `CMD`, so the word is that number. -/
def decodeTableWord (nbits w : Nat) : Option Instr :=
  match decodeCmd (BitVec.ofNat 32 (w % 2 ^ nbits)) with
  | .ok i => some i
  | .error _ => none

end Sys2Proof
end

