-- ==== Sys2Proof/Machine/Memory.lean ====
section
/-! DEFINITION. The host-loaded bit buffers `PATH_BITS` and `IN_BITS` as one memory of byte cells, keyed by the byte
offset in the register window (10_state.md R35, R36; 20_memory.md R51, R53). -/

namespace Sys2Proof.Machine

/-- Byte cells by rising offset. -/
abbrev Memory := List Host.Cell

/-- What an unlisted byte reads as: no value, the byte is unwritten (10_state.md R35, R36; 93_implementation_defined.md U3). -/
def Memory.unlisted (_offset : Nat) : Option Byte := none

/-- The canonical form: offsets strictly rising, no entry equal to what an unlisted offset reads as. -/
abbrev Memory.wf (m : Memory) : Prop :=
  m.Pairwise (fun c d => c.1 < d.1) ∧ ∀ c ∈ m, some c.2 ≠ Memory.unlisted c.1

/-- The byte at an offset. -/
def Memory.readByte : Memory → Nat → Option Byte
  | [], offset => Memory.unlisted offset
  | c :: m, offset => if c.1 = offset then some c.2 else Memory.readByte m offset

/-- Sets the byte at an offset, keeping the offsets rising. -/
def Memory.writeByte : Memory → Nat → Byte → Memory
  | [], offset, b => [(offset, b)]
  | c :: m, offset, b =>
    if offset < c.1 then (offset, b) :: c :: m
    else if c.1 = offset then (offset, b) :: m
    else c :: Memory.writeByte m offset b

/-- Byte `k` of a word: bits `8k+7 .. 8k` (20_memory.md R51). -/
def byteOfWord (w : Word) (k : Nat) : Byte := w.extractLsb' (8 * k) 8

/-- The word of four bytes, the first the least significant (20_memory.md R51). -/
def wordOfBytes (b0 b1 b2 b3 : Byte) : Word := b3 ++ b2 ++ b1 ++ b0

/-- The word at an offset; none where a byte of it is unwritten. -/
def Memory.readWord (m : Memory) (offset : Nat) : Option Word :=
  match Memory.readByte m offset, Memory.readByte m (offset + 1), Memory.readByte m (offset + 2),
    Memory.readByte m (offset + 3) with
  | some b0, some b1, some b2, some b3 => some (wordOfBytes b0 b1 b2 b3)
  | _, _, _, _ => none

/-- Stores a word at an offset. -/
def Memory.writeWord (m : Memory) (offset : Nat) (w : Word) : Memory :=
  Memory.writeByte
    (Memory.writeByte
      (Memory.writeByte (Memory.writeByte m offset (byteOfWord w 0)) (offset + 1) (byteOfWord w 1))
      (offset + 2) (byteOfWord w 2))
    (offset + 3) (byteOfWord w 3)

end Sys2Proof.Machine
end

