-- ==== Sys2Proof/Config.lean ====
section
/-! DEFINITION. The implementation parameters of HCC (00_scope.md R7) and the values the spec leaves free. -/

namespace Sys2Proof

/-- The configuration of one HCC instance: the three parameters that are configuration (00_scope.md R7). They are
constants of the instance, read back through PARAM_A, PARAM_EOF_WEIGHT and PARAM_IN_CAP (10_state.md R31). -/
structure Params where
  /-- `A`, the alphabet size. -/
  alphabet : Nat
  /-- `EOF_WEIGHT`, the fixed count of the EOF entry. -/
  eofWeight : Nat
  /-- `IN_CAP`, the capacity of the decoder's input bit buffer in bits. -/
  inCap : Nat
  deriving DecidableEq, Repr

/-- The values this hardware takes (00_scope.md R7, column "HCC"). -/
def Params.hcc : Params := { alphabet := 257, eofWeight := 1, inCap := 65536 }

/-- The legal ranges of 00_scope.md R7. -/
abbrev Params.legal (p : Params) : Prop :=
  2 ≤ p.alphabet ∧ p.alphabet ≤ 65536 ∧ 1 ≤ p.eofWeight ∧ p.eofWeight ≤ 2 ^ 32 - 1 ∧
    p.inCap % 32 = 0 ∧ 32 ≤ p.inCap ∧ p.inCap ≤ 2 ^ 20

/-- `EOF_SYM = A-1` (00_scope.md R7). -/
def Params.eofSym (p : Params) : Nat := p.alphabet - 1

/-- `NODES = 2A-1`, the number of tree nodes (00_scope.md R7, R8). -/
def Params.nodes (p : Params) : Nat := 2 * p.alphabet - 1

/-- `ROOT = 2A-2`, the index of the root node (00_scope.md R7). -/
def Params.root (p : Params) : Nat := 2 * p.alphabet - 2

/-- `MAXLEN = A-1`, the longest codeword or path in bits (00_scope.md R7, R8). -/
def Params.maxLen (p : Params) : Nat := p.alphabet - 1

/-- `CODE_WORDS = ceil(MAXLEN / 32)` (10_state.md R36, 20_memory.md R53). -/
def Params.codeWords (p : Params) : Nat := (p.maxLen + 31) / 32

/-- The free values: the word an unspecified host read returns, one per draw (93_implementation_defined.md U2, U3). -/
opaque Config.freeWord : Nat → Word

end Sys2Proof
end

