-- ==== Sys2Proof/Machine/Tree.lean ====
section
/-! DEFINITION. The tree memory's records, the tree builder (41_tree.md R120–R127) and the tree queries `pathTo` and
`walk` (R128, R130). -/

namespace Sys2Proof.Machine

/-- What a tree node is: the leaf of the symbol that is its index, or an internal node with its two children's indices
(10_state.md R34, 41_tree.md R121). -/
inductive NodeKind where
  | leaf
  | internal (left right : Nat)
  deriving DecidableEq, Repr

/-- One record of the tree memory `NODE` (10_state.md R34). -/
structure Node where
  kind : NodeKind
  weight : Weight
  depth : Depth
  deriving DecidableEq, Repr

/-- One member of the forest: a tree not merged yet, by its root's node index and record (00_scope.md R12, "Forest"). -/
structure Member where
  index : Nat
  node : Node
  deriving DecidableEq, Repr

/-- The comparator `a ≺ b`: lexicographic in weight, depth and node index, all unsigned (41_tree.md R123). -/
def precedes (a b : Member) : Bool :=
  Nat.blt a.node.weight.toNat b.node.weight.toNat ||
    (Nat.beq a.node.weight.toNat b.node.weight.toNat &&
      (Nat.blt a.node.depth.toNat b.node.depth.toNat ||
        (Nat.beq a.node.depth.toNat b.node.depth.toNat && Nat.blt a.index b.index)))

/-- The `≺`-least member of a forest, and the forest without it (41_tree.md R122). -/
def takeLeast : List Member → Option (Member × List Member)
  | [] => none
  | m :: forest =>
    match takeLeast forest with
    | none => some (m, [])
    | some (least, rest) =>
      if precedes m least then some (m, least :: rest) else some (least, m :: rest)

/-- The internal node that merges `t1` and `t2`: their weights' sum, one more than the greater depth, `t1` the left
child and `t2` the right (41_tree.md R122, R124, R134, R135). -/
def mergeNode (t1 t2 : Member) : Node :=
  { kind := .internal t1.index t2.index
    weight := t1.node.weight + t2.node.weight
    depth := BitVec.ofNat 16 (max t1.node.depth.toNat t2.node.depth.toNat + 1) }

/-- The internal nodes made by `merges` merges of the forest, in creation order, the first at index `next`
(41_tree.md R122, the while loop: `|forest| - 1` merges are made). -/
def mergeForest : (merges next : Nat) → List Member → List Node
  | 0, _, _ => []
  | merges + 1, next, forest =>
    match takeLeast forest with
    | none => []
    | some (t1, forest1) =>
      match takeLeast forest1 with
      | none => []
      | some (t2, forest2) =>
        mergeNode t1 t2 ::
          mergeForest merges (next + 1) ({ index := next, node := mergeNode t1 t2 } :: forest2)

/-- The leaf of a symbol of count `c` (41_tree.md R121). -/
def leafNode (c : Count) : Node := { kind := .leaf, weight := c.setWidth 48, depth := 0#16 }

/-- The members whose records are `nodes`, at indices `first`, `first + 1`, … -/
def membersFrom : Nat → List Node → List Member
  | _, [] => []
  | first, n :: nodes => { index := first, node := n } :: membersFrom (first + 1) nodes

/-- `BuildTree(F)`: the whole tree memory, the leaves first and then the internal nodes in creation order
(41_tree.md R120–R122). -/
def buildTree (freq : List Count) : List Node :=
  freq.map leafNode ++
    mergeForest (freq.length - 1) freq.length (membersFrom 0 (freq.map leafNode))

/-- The initial frequency table: 0 for every data symbol, `EOF_WEIGHT` for `EOF_SYM` (10_state.md R33,
40_frequency.md R101). -/
def initialFreq (p : Params) : List Count :=
  List.replicate p.eofSym 0#32 ++ [BitVec.ofNat 32 p.eofWeight]

/-- The child of node `n` in the direction of a path bit, 0 left and 1 right (00_scope.md R11); none where `n` is a
leaf or no node. -/
def childOf (nodes : List Node) (n : Nat) (bit : Bool) : Option Nat :=
  match nodes[n]? with
  | none => none
  | some r =>
    match r.kind with
    | .leaf => none
    | .internal left right => some (if bit then right else left)

/-- `search` of 41_tree.md R128: the bits from node `n` down to the leaf of `sym`, the left subtree first. `levels`
bounds the nodes on one path; a tree over `A` symbols has at most `A` (00_scope.md R8). -/
def search (nodes : List Node) (sym : Nat) : (levels n : Nat) → Option (List Bool)
  | 0, _ => none
  | levels + 1, n =>
    match nodes[n]? with
    | none => none
    | some r =>
      match r.kind with
      | .leaf => if n = sym then some [] else none
      | .internal left right =>
        match search nodes sym levels left with
        | some p => some (false :: p)
        | none => (search nodes sym levels right).map (true :: ·)

/-- `pathTo(s)`: the path from the root to the leaf of `sym`; none is NotFound (41_tree.md R128). -/
def pathTo (p : Params) (nodes : List Node) (sym : Nat) : Option (List Bool) :=
  search nodes sym p.alphabet p.root

/-- Follows a bit sequence down from node `n`; none is InvalidPath (41_tree.md R130). -/
def walkFrom (nodes : List Node) : Nat → List Bool → Option Nat
  | n, [] => some n
  | n, bit :: path =>
    match childOf nodes n bit with
    | none => none
    | some m => walkFrom nodes m path

/-- `walk(p)`: from the root (41_tree.md R130). -/
def walk (p : Params) (nodes : List Node) (path : List Bool) : Option Nat :=
  walkFrom nodes p.root path

end Sys2Proof.Machine
end

