-- ==== Sys2Proof/Machine/State.lean ====
section
/-! DEFINITION. The state of one HCC instance (10_state.md), its reset value (70_reset_and_hazards.md R231) and the
reasons a step can stop. -/

namespace Sys2Proof.Machine

/-- The error codes of STATUS.ERR, 0 to 9 (60_exceptions.md R200). -/
inductive ErrCode where
  | ok
  | invalidSymbol
  | notFound
  | invalidPath
  | truncatedStream
  | illegalCommand
  | countOverflow
  | cursorRange
  | eofNotObservable
  | faulted
  deriving DecidableEq, Repr

/-- What the command engine is doing: STATUS.BUSY is 0 exactly when it is idle (10_state.md R23, R40). -/
inductive Engine where
  /-- No command in flight: BUSY = 0. -/
  | idle
  /-- The command word in CMD is in flight: BUSY = 1. -/
  | command
  /-- The reset build runs: BUSY = 1 (70_reset_and_hazards.md R232). -/
  | resetBuild
  deriving DecidableEq, Repr

/-- RESULT_KIND.KIND (10_state.md R24). -/
inductive ResultKind where
  | none
  | symbol
  | endOfStream
  | truncated
  deriving DecidableEq, Repr

/-- VAL_KIND (10_state.md R32). -/
inductive ValKind where
  | none
  | leaf
  | internal
  deriving DecidableEq, Repr

/-- What reaches the register window from outside (00_scope.md R10, 20_memory.md R50, R52; 70_reset_and_hazards.md R230). -/
inductive HostAccess where
  /-- A host-bus read of `bytes` bytes at an offset. -/
  | read (bytes : Nat) (offset : Offset)
  /-- A host-bus write of `bytes` bytes at an offset. -/
  | write (bytes : Nat) (offset : Offset) (value : Word)
  /-- The platform asserts reset. -/
  | reset
  deriving DecidableEq, Repr

/-- A host access still to come. `whileBusy`: it is presented without waiting for BUSY = 0; otherwise the host polls
first, as `WAIT` does (30_encoding.md R77). -/
structure HostStep where
  access : HostAccess
  whileBusy : Bool
  deriving DecidableEq, Repr

/-- Why the machine stops with a fault. -/
inductive Fault where
  /-- DECODE read a bit of a word of IN_BITS that was not written since reset; raised by DECODE. The spec prescribes this
  fault for a model (10_state.md R35, 93_implementation_defined.md U3). Safe: nothing is proved past it. -/
  | unwrittenInBits (wordIndex : Nat)
  /-- VALUEAT read a bit of a word of PATH_BITS that was not written since reset; raised by VALUEAT
  (10_state.md R36, 93_implementation_defined.md U3). Safe: nothing is proved past it. -/
  | unwrittenPathBits (wordIndex : Nat)
  deriving DecidableEq, Repr

/-- Why a step has no meaning. -/
inductive Refusal where
  /-- An instruction without a meaning yet; raised by exec's refused arms only. Safe. -/
  | notModelled (mnemonic : String)
  /-- A host access that is not one aligned 32-bit word; raised by the host step (20_memory.md R52,
  93_implementation_defined.md U1, which prescribes a refusal). Safe. -/
  | accessNotAlignedWord
  /-- A host write while BUSY = 1; raised by the host step (70_reset_and_hazards.md R234, 93_implementation_defined.md U2,
  which prescribes a refusal). Safe. -/
  | writeWhileBusy
  deriving DecidableEq, Repr

/-- The state of one HCC instance. -/
structure State where
  /-- The configuration: PARAM_A, PARAM_EOF_WEIGHT, PARAM_IN_CAP, constants (10_state.md R31). -/
  params : Params
  /-- CMD (10_state.md R22) -/
  cmd : Word
  /-- STATUS.ERR (10_state.md R23) -/
  err : ErrCode
  /-- STATUS.BUSY and the command in flight (10_state.md R23, R40) -/
  engine : Engine
  /-- STATUS.FATAL (10_state.md R23) -/
  fatal : Bool
  /-- RESULT_KIND (10_state.md R24) -/
  resultKind : ResultKind
  /-- RESULT_SYM (10_state.md R25) -/
  resultSym : BitVec 16
  /-- COUNT_OUT (10_state.md R26) -/
  countOut : Word
  /-- CODE_LEN (10_state.md R27) -/
  codeLen : BitVec 16
  /-- PATH_LEN (10_state.md R28) -/
  pathLen : Word
  /-- IN_LEN (10_state.md R29) -/
  inLen : Word
  /-- IN_POS, the decode cursor (10_state.md R30) -/
  inPos : Word
  /-- VAL_KEY (10_state.md R32) -/
  valKey : Word
  /-- VAL_KIND (10_state.md R32) -/
  valKind : ValKind
  /-- VAL_DEPTH (10_state.md R32) -/
  valDepth : BitVec 16
  /-- VAL_WEIGHT_LO (10_state.md R32) -/
  valWeightLo : Word
  /-- VAL_WEIGHT_HI (10_state.md R32) -/
  valWeightHi : BitVec 16
  /-- CODE_BITS, its words (10_state.md R37) -/
  codeBits : List Word
  /-- FREQ[0 .. A-1] (10_state.md R33) -/
  freq : List Count
  /-- NODE[0 .. 2A-2] (10_state.md R34) -/
  node : List Node
  /-- PATH_BITS and IN_BITS (10_state.md R35, R36) -/
  mem : Memory
  /-- The host steps still to come, oldest first: the model's own (log 1). -/
  host : List HostStep
  /-- The word the last host read returned: the model's own (log 5). -/
  reply : Option Word
  /-- How many free values were drawn: the model's own (log 5). -/
  fresh : Nat
  deriving DecidableEq, Repr

/-- What every meaning and every step answers. -/
abbrev Result := Host.Outcome State Fault Refusal

/-- The state of an instance of the given parameters once its reset build is done (70_reset_and_hazards.md R231, R232),
with nothing pending from the host (log 10, log 12). -/
def State.resetOf (p : Params) : State where
  params := p
  cmd := 0x00000000#32
  err := .ok
  engine := .idle
  fatal := false
  resultKind := .none
  resultSym := 0#16
  countOut := 0#32
  codeLen := 0#16
  pathLen := 0#32
  inLen := 0#32
  inPos := 0#32
  valKey := 0#32
  valKind := .none
  valDepth := 0#16
  valWeightLo := 0#32
  valWeightHi := 0#16
  codeBits := List.replicate p.codeWords 0#32
  freq := initialFreq p
  node := buildTree (initialFreq p)
  mem := []
  host := []
  reply := none
  fresh := 0

/-- The machine right after reset, with HCC's own parameters. -/
def State.reset : State := State.resetOf Params.hcc

end Sys2Proof.Machine
end

