-- ==== Sys2Proof/Machine/Flags.lean ====
section
/-! DEFINITION. The status word and the coded register fields: STATUS, RESULT_KIND and VAL_KIND (10_state.md R23, R24,
R32; 60_exceptions.md R200). HCC has no condition codes (10_state.md R41). -/

namespace Sys2Proof.Machine

/-- The code of an outcome in STATUS.ERR (60_exceptions.md R200). -/
def ErrCode.code : ErrCode → BitVec 4
  | .ok => 0#4
  | .invalidSymbol => 1#4
  | .notFound => 2#4
  | .invalidPath => 3#4
  | .truncatedStream => 4#4
  | .illegalCommand => 5#4
  | .countOverflow => 6#4
  | .cursorRange => 7#4
  | .eofNotObservable => 8#4
  | .faulted => 9#4

/-- RESULT_KIND.KIND (10_state.md R24). -/
def ResultKind.code : ResultKind → BitVec 2
  | .none => 0#2
  | .symbol => 1#2
  | .endOfStream => 2#2
  | .truncated => 3#2

/-- VAL_KIND (10_state.md R32). -/
def ValKind.code : ValKind → BitVec 2
  | .none => 0#2
  | .leaf => 1#2
  | .internal => 2#2

/-- STATUS.BUSY: 1 while a command or the reset build runs (10_state.md R23). -/
def State.busy (s : State) : Bool :=
  match s.engine with
  | .idle => false
  | .command => true
  | .resetBuild => true

/-- The STATUS word: ERR in bits 3:0, BUSY bit 8, FATAL bit 9, every other bit 0 (10_state.md R23). -/
def statusWord (err : BitVec 4) (busy fatal : Bool) : Word :=
  0#22 ++ BitVec.ofBool fatal ++ BitVec.ofBool busy ++ 0#4 ++ err

end Sys2Proof.Machine
end

