-- ==== Sys2Proof/Machine/Operands.lean ====
section
/-! DEFINITION. The operands a command reads from the registers and the bit buffers (30_encoding.md R72), and the packing
of a bit sequence into words (20_memory.md R51). -/

namespace Sys2Proof.Machine

/-- The window offset of `PATH_BITS` (20_memory.md R53). -/
def pathBase : Nat := 0x3000

/-- The window offset of `IN_BITS` (20_memory.md R53). -/
def inBase : Nat := 0x10000

/-- The window offset of `CODE_BITS` (20_memory.md R53). -/
def codeBase : Nat := 0x1000

/-- Stream bit `i` of the buffer at `base`: bit `i mod 32` of word `i div 32` (20_memory.md R51); none where that word
is unwritten. -/
def bufferBit (m : Memory) (base i : Nat) : Option Bool :=
  match Memory.readWord m (base + 4 * (i / 32)) with
  | none => none
  | some w => some (w.getLsbD (i % 32))

/-- `IN_BITS[i]` (10_state.md R35). -/
def State.inBit (s : State) (i : Nat) : Option Bool := bufferBit s.mem inBase i

/-- `PATH_BITS[i]` (10_state.md R36). -/
def State.pathBit (s : State) (i : Nat) : Option Bool := bufferBit s.mem pathBase i

/-- `CODE_BITS[i]` (10_state.md R37). -/
def State.codeBit (s : State) (i : Nat) : Bool := (s.codeBits.getD (i / 32) 0#32).getLsbD (i % 32)

/-- `PATH_BITS[start .. start+count-1]`, or the index of the first unwritten word among them (41_tree.md R129). -/
def pathOperand (s : State) : (count start : Nat) → Except Nat (List Bool)
  | 0, _ => .ok []
  | count + 1, start =>
    match s.pathBit start with
    | none => .error (start / 32)
    | some bit =>
      match pathOperand s count (start + 1) with
      | .error j => .error j
      | .ok path => .ok (bit :: path)

/-- The number whose bit `i` is element `i` of the sequence. -/
def natOfBits : List Bool → Nat
  | [] => 0
  | bit :: bits => bit.toNat + 2 * natOfBits bits

/-- Word `j` of a buffer that holds exactly the bits of `code`: bits `32j .. 32j+31`, 0 past the end
(20_memory.md R51, 42_encoder.md R153). -/
def packWord (code : List Bool) (j : Nat) : Word :=
  BitVec.ofNat 32 (natOfBits ((code.drop (32 * j)).take 32))

/-- All `words` words of a buffer that holds exactly the bits of `code` (42_encoder.md R153). -/
def packWords (words : Nat) (code : List Bool) : List Word := (List.range words).map (packWord code)

/-- `FREQ[sym]` (10_state.md R33): every symbol below `A` has an entry. -/
def State.countOf (s : State) (sym : Nat) : Count := s.freq.getD sym 0#32

/-- The codeword in `CODE_BITS`: bits `0 .. CODE_LEN-1` (10_state.md R37). -/
def State.codeword (s : State) : List Bool := (List.range s.codeLen.toNat).map s.codeBit

end Sys2Proof.Machine
end

