-- ==== Sys2Proof/Machine/Ops.lean ====
section
/-! DEFINITION. The named operations: ending a command, raising an error (60_exceptions.md R201), the engine's
initialisation, and the register window with its reads and writes (10_state.md R21, 20_memory.md R53, R54). -/

namespace Sys2Proof.Machine

/-- `done`: the command ends successfully, `STATUS.ERR <- OK`, and BUSY clears (00_scope.md R10, 10_state.md R23). -/
def State.done (s : State) : State := { s with err := .ok, engine := .idle }

/-- `raise E` for a recoverable error: `STATUS.ERR <- code(E)`, BUSY clears, nothing else (60_exceptions.md R201). HCC has
no trap entry and no return from one (60_exceptions.md R206, R207). -/
def State.raise (s : State) (e : ErrCode) : State := { s with err := e, engine := .idle }

/-- `raise E` for a fatal error: also `STATUS.FATAL <- 1` (60_exceptions.md R201, R203). -/
def State.raiseFatal (s : State) (e : ErrCode) : State := { s with err := e, engine := .idle, fatal := true }

/-- The fatal check, second in priority after decoding (60_exceptions.md R204): with FATAL = 1 a command other than INIT
raises Faulted and does nothing else. -/
def unlessFaulted (s : State) (run : State → Result) : Result :=
  if s.fatal then .next (s.raise .faulted) else run s

/-- Replaces the frequency table and rebuilds the whole tree from it (41_tree.md R127). -/
def State.rebuild (s : State) (freq : List Count) : State :=
  { s with freq := freq, node := buildTree freq }

/-- What INIT and the reset build do to FREQ and NODE (40_frequency.md R101, 70_reset_and_hazards.md R232). -/
def State.initEngine (s : State) : State := s.rebuild (initialFreq s.params)

/-- `emit(c)`: writes the codeword and its length, clearing every bit past it (42_encoder.md R153). -/
def State.emit (s : State) (code : List Bool) : State :=
  { s with codeLen := BitVec.ofNat 16 code.length, codeBits := packWords s.params.codeWords code }

/-- Asserting reset (70_reset_and_hazards.md R230–R232): the command in flight is dropped, every register and buffer takes
its reset value, and the reset build is to run. FREQ and NODE are the build's to write (log 9). DESIGN CHOICE: assertion
and release are one host step, with BUSY = 1 from it on; no interval in which reset is held is modelled (log 21). -/
def State.assertReset (s : State) : State :=
  { State.resetOf s.params with
    engine := .resetBuild, freq := s.freq, node := s.node, host := s.host, reply := s.reply, fresh := s.fresh }

/-- The end of the reset build: FREQ and NODE as INIT makes them, BUSY = 0, ERR = 0 and FATAL = 0
(70_reset_and_hazards.md R232). -/
def State.finishResetBuild (s : State) : State :=
  { s.initEngine with err := .ok, engine := .idle, fatal := false }

/-- The registers of 10_state.md R21. -/
inductive Register where
  | cmd | status | resultKind | resultSym | countOut | codeLen | pathLen | inLen | inPos
  | valKey | valKind | valDepth | valWeightLo | valWeightHi
  | paramA | paramEofWeight | paramCw | paramInCap
  deriving DecidableEq, Repr

/-- The register map of 10_state.md R21: byte offset and register. -/
def registerMap : List (Nat × Register) :=
  [(0x000, .cmd), (0x004, .status), (0x008, .resultKind), (0x00C, .resultSym), (0x010, .countOut),
   (0x014, .codeLen), (0x018, .pathLen), (0x01C, .inLen), (0x020, .inPos)] ++
  [(0x024, .valKey), (0x028, .valKind), (0x02C, .valDepth), (0x030, .valWeightLo), (0x034, .valWeightHi),
   (0x038, .paramA), (0x03C, .paramEofWeight), (0x040, .paramCw), (0x044, .paramInCap)]

/-- `offset(REG)` (30_encoding.md R77). -/
def Register.offset : Register → Offset
  | .cmd => 0x000#18
  | .status => 0x004#18
  | .resultKind => 0x008#18
  | .resultSym => 0x00C#18
  | .countOut => 0x010#18
  | .codeLen => 0x014#18
  | .pathLen => 0x018#18
  | .inLen => 0x01C#18
  | .inPos => 0x020#18
  | .valKey => 0x024#18
  | .valKind => 0x028#18
  | .valDepth => 0x02C#18
  | .valWeightLo => 0x030#18
  | .valWeightHi => 0x034#18
  | .paramA => 0x038#18
  | .paramEofWeight => 0x03C#18
  | .paramCw => 0x040#18
  | .paramInCap => 0x044#18

/-- What stands at an offset of the window (20_memory.md R53). -/
inductive Location where
  | register (r : Register)
  | codeWord (j : Nat)
  | pathWord (j : Nat)
  | inWord (j : Nat)
  | reserved
  deriving DecidableEq, Repr

/-- The address map of 20_memory.md R53. -/
def locate (p : Params) (offset : Offset) : Location :=
  let a := offset.toNat
  if a < 0x48 then
    match registerMap.lookup a with
    | some r => .register r
    | none => .reserved
  else if codeBase ≤ a ∧ a < codeBase + 4 * p.codeWords then .codeWord ((a - codeBase) / 4)
  else if pathBase ≤ a ∧ a < pathBase + 4 * p.codeWords then .pathWord ((a - pathBase) / 4)
  else if inBase ≤ a ∧ a < inBase + p.inCap / 8 then .inWord ((a - inBase) / 4)
  else .reserved

/-- A register's value when BUSY = 0 (10_state.md R22–R32). -/
def State.readRegister (s : State) (r : Register) : Word :=
  match r with
  | .cmd => s.cmd
  | .status => statusWord s.err.code s.busy s.fatal
  | .resultKind => s.resultKind.code.setWidth 32
  | .resultSym => s.resultSym.setWidth 32
  | .countOut => s.countOut
  | .codeLen => s.codeLen.setWidth 32
  | .pathLen => s.pathLen
  | .inLen => s.inLen
  | .inPos => s.inPos
  | .valKey => s.valKey
  | .valKind => s.valKind.code.setWidth 32
  | .valDepth => s.valDepth.setWidth 32
  | .valWeightLo => s.valWeightLo
  | .valWeightHi => s.valWeightHi.setWidth 32
  | .paramA => BitVec.ofNat 32 s.params.alphabet
  | .paramEofWeight => BitVec.ofNat 32 s.params.eofWeight
  | .paramCw => 32#32
  | .paramInCap => BitVec.ofNat 32 s.params.inCap

/-- The value of a location when BUSY = 0; none where the spec leaves it unspecified: a buffer word not written since
reset (20_memory.md R54, 93_implementation_defined.md U3). -/
def State.readIdle (s : State) (l : Location) : Option Word :=
  match l with
  | .register r => some (s.readRegister r)
  | .codeWord j => some (s.codeBits.getD j 0#32)
  | .pathWord j => Memory.readWord s.mem (pathBase + 4 * j)
  | .inWord j => Memory.readWord s.mem (inBase + 4 * j)
  | .reserved => some 0x00000000#32

/-- The value of a location when BUSY = 1: STATUS with an unspecified ERR, the constants, and nothing else specified
(70_reset_and_hazards.md R234). `free` supplies the unspecified bits. -/
def State.readBusy (s : State) (free : Word) (l : Location) : Word :=
  match l with
  | .register .status => statusWord (free.extractLsb' 0 4) true s.fatal
  | .register .paramA => s.readRegister .paramA
  | .register .paramEofWeight => s.readRegister .paramEofWeight
  | .register .paramCw => s.readRegister .paramCw
  | .register .paramInCap => s.readRegister .paramInCap
  | _ => free

/-- A host read of a location: the bus returns its value, a free one where none is specified, and HCC's own state does
not change (20_memory.md R54). DESIGN CHOICE: every instance draws from the one Config.freeWord at its own counter, so two
instances at equal counters draw equal words (log 5, log 22). -/
def State.answerRead (s : State) (l : Location) : State :=
  if s.busy then
    { s with reply := some (s.readBusy (Config.freeWord s.fresh) l), fresh := s.fresh + 1 }
  else
    match s.readIdle l with
    | some w => { s with reply := some w }
    | none => { s with reply := some (Config.freeWord s.fresh), fresh := s.fresh + 1 }

/-- A host write of a word to a location (20_memory.md R54): CMD stores the word and issues it (10_state.md R22), the RW
registers and buffers store it, everything else ignores it. -/
def State.acceptWrite (s : State) (l : Location) (w : Word) : State :=
  match l with
  | .register .cmd => { s with cmd := w, engine := .command }
  | .register .pathLen => { s with pathLen := w }
  | .register .inLen => { s with inLen := w }
  | .register .inPos => { s with inPos := w }
  | .pathWord j => { s with mem := Memory.writeWord s.mem (pathBase + 4 * j) w }
  | .inWord j => { s with mem := Memory.writeWord s.mem (inBase + 4 * j) w }
  | _ => s

/-- The one access width: 4 bytes at a multiple of 4 (20_memory.md R52). -/
abbrev alignedWord (bytes : Nat) (offset : Offset) : Prop := bytes = 4 ∧ offset.toNat % 4 = 0

/-- One host access at the window (20_memory.md R52, R54; 70_reset_and_hazards.md R230, R234). -/
def hostAccess (a : HostAccess) (s : State) : Result :=
  match a with
  | .reset => .next s.assertReset
  | .read bytes offset =>
    if alignedWord bytes offset then .next (s.answerRead (locate s.params offset))
    else .refused .accessNotAlignedWord
  | .write bytes offset value =>
    if alignedWord bytes offset then
      if s.busy then .refused .writeWhileBusy
      else .next (s.acceptWrite (locate s.params offset) value)
    else .refused .accessNotAlignedWord

end Sys2Proof.Machine
end

