-- ==== Sys2Proof/Machine/Decoder.lean ====
section
/-! DEFINITION. The decoder command DECODE (43_decoder.md R170). -/

namespace Sys2Proof.Machine

/-- How the decode loop ends. -/
inductive DecodeEnd where
  /-- The input ended before a leaf. -/
  | truncated
  /-- Leaf `n` was reached, and `p` is the position past the consumed bits. -/
  | leaf (n p : Nat)
  /-- The walk would step below a leaf or to no node: the internal InvalidPath (60_exceptions.md R203). -/
  | broken
  /-- A bit of this word of IN_BITS is needed and the word is unwritten. -/
  | unwritten (wordIndex : Nat)
  deriving DecidableEq, Repr

/-- The loop of 43_decoder.md R170 at position `p` and node `n`, with `remaining = IN_LEN - p` bits left. -/
def decodeLoop (s : State) : (remaining p n : Nat) → DecodeEnd
  | 0, _, _ => .truncated
  | remaining + 1, p, n =>
    match s.inBit p with
    | none => .unwritten (p / 32)
    | some bit =>
      match childOf s.node n bit with
      | none => .broken
      | some m =>
        match s.node[m]? with
        | none => .broken
        | some r =>
          match r.kind with
          | .leaf => .leaf m (p + 1)
          | .internal _ _ => decodeLoop s remaining (p + 1) m

/-- A data symbol was decoded: the cursor stands past the consumed bits (43_decoder.md R170). -/
def State.decodedSymbol (s : State) (n p : Nat) : State :=
  { s with inPos := BitVec.ofNat 32 p, resultKind := .symbol, resultSym := BitVec.ofNat 16 n }

/-- The EOF leaf was reached: the cursor goes to the end of the input (43_decoder.md R170). -/
def State.decodedEof (s : State) : State :=
  { s with inPos := s.inLen, resultKind := .endOfStream, resultSym := BitVec.ofNat 16 s.params.eofSym }

/-- The two writes of TruncatedStream beside ERR (43_decoder.md R170, 60_exceptions.md R201). -/
def State.decodedTruncated (s : State) : State :=
  { s with inPos := s.inLen, resultKind := .truncated }

/-- DECODE (43_decoder.md R170) -/
def execDecode (s : State) : Result :=
  unlessFaulted s fun s =>
    if s.params.inCap < s.inLen.toNat ∨ s.inLen.toNat < s.inPos.toNat then .next (s.raise .cursorRange)
    else
      match decodeLoop s (s.inLen.toNat - s.inPos.toNat) s.inPos.toNat s.params.root with
      | .truncated => .next (s.decodedTruncated.raise .truncatedStream)
      | .unwritten j => .fault (.unwrittenInBits j)
      | .broken => .next (s.raiseFatal .invalidPath)
      | .leaf n p =>
        if n = s.params.eofSym then .next s.decodedEof.done else .next (s.decodedSymbol n p).done

end Sys2Proof.Machine
end

