-- ==== Sys2Proof/Machine/Encoder.lean ====
section
/-! DEFINITION. The encoder commands ENCODE and EOFCODE (42_encoder.md). -/

namespace Sys2Proof.Machine

/-- `code(s)`, the codeword of a symbol under the current tree (42_encoder.md R152); none is NotFound. -/
def State.codeOf (s : State) (sym : Nat) : Option (List Bool) := pathTo s.params s.node sym

/-- Finds the codeword of a symbol and emits it (42_encoder.md R150, R151, R153); NotFound is fatal
(60_exceptions.md R203). -/
def emitCode (sym : Nat) (s : State) : Result :=
  match s.codeOf sym with
  | none => .next (s.raiseFatal .notFound)
  | some code => .next (s.emit code).done

/-- ENCODE (42_encoder.md R150) -/
def execEncode (sym : Nat) (s : State) : Result :=
  unlessFaulted s fun s =>
    if s.params.alphabet ≤ sym then .next (s.raise .invalidSymbol) else emitCode sym s

/-- EOFCODE (42_encoder.md R151) -/
def execEofcode (s : State) : Result := unlessFaulted s fun s => emitCode s.params.eofSym s

end Sys2Proof.Machine
end

