-- ==== Sys2Proof/Machine/Frequency.lean ====
section
/-! DEFINITION. Engine control and the frequency table: NOP, INIT, OBSERVE, GETCOUNT (40_frequency.md). -/

namespace Sys2Proof.Machine

/-- NOP (40_frequency.md R100) -/
def execNop (s : State) : Result := unlessFaulted s fun s => .next s.done

/-- INIT: the one command that runs while FATAL = 1 (40_frequency.md R101, 60_exceptions.md R204). -/
def execInit (s : State) : Result := .next { s.initEngine with fatal := false }.done

/-- The effect of a successful OBSERVE on FREQ and NODE (40_frequency.md R102). -/
def State.count (s : State) (sym : Nat) : State := s.rebuild (s.freq.set sym (s.countOf sym + 1#32))

/-- OBSERVE (40_frequency.md R102): the checks in the order of 60_exceptions.md R204. -/
def execObserve (sym : Nat) (s : State) : Result :=
  unlessFaulted s fun s =>
    if s.params.alphabet ≤ sym then .next (s.raise .invalidSymbol)
    else if sym = s.params.eofSym then .next (s.raise .eofNotObservable)
    else if s.countOf sym = 0xFFFFFFFF#32 then .next (s.raise .countOverflow)
    else .next (s.count sym).done

/-- GETCOUNT (40_frequency.md R103) -/
def execGetcount (sym : Nat) (s : State) : Result :=
  unlessFaulted s fun s =>
    if s.params.alphabet ≤ sym then .next (s.raise .invalidSymbol)
    else .next { s with countOut := s.countOf sym }.done

end Sys2Proof.Machine
end

