-- ==== Sys2Proof/Machine/TreeQuery.lean ====
section
/-! DEFINITION. The tree query command VALUEAT (41_tree.md R129). -/

namespace Sys2Proof.Machine

/-- VAL_KIND of a node kind (10_state.md R32, 41_tree.md R129). -/
def valKindOf : NodeKind → ValKind
  | .leaf => .leaf
  | .internal _ _ => .internal

/-- Writes the `VAL_*` registers from node `n` (41_tree.md R129). -/
def State.reportNode (s : State) (n : Nat) (r : Node) : State :=
  { s with
    valKey := BitVec.ofNat 32 n
    valKind := valKindOf r.kind
    valDepth := r.depth
    valWeightLo := r.weight.extractLsb' 0 32
    valWeightHi := r.weight.extractLsb' 32 16 }

/-- VALUEAT (41_tree.md R129). A bad host path is a recoverable InvalidPath (90_conflicts.md C7). -/
def execValueat (s : State) : Result :=
  unlessFaulted s fun s =>
    if s.params.maxLen < s.pathLen.toNat then .next (s.raise .invalidPath)
    else
      match pathOperand s s.pathLen.toNat 0 with
      | .error j => .fault (.unwrittenPathBits j)
      | .ok path =>
        match walk s.params s.node path with
        | none => .next (s.raise .invalidPath)
        | some n =>
          match s.node[n]? with
          | none => .next (s.raise .invalidPath)
          | some r => .next (s.reportNode n r).done

end Sys2Proof.Machine
end

