-- ==== Sys2Proof/Machine/Dispatch.lean ====
section
/-! DEFINITION. The meaning of every command: one arm per constructor of Instr. -/

namespace Sys2Proof.Machine

def exec (i : Instr) (s : State) : Host.Outcome State Fault Refusal :=
  match i with
  | .nop => Sys2Proof.Machine.execNop s
  | .init => Sys2Proof.Machine.execInit s
  | .observe sym => Sys2Proof.Machine.execObserve sym s
  | .encode sym => Sys2Proof.Machine.execEncode sym s
  | .eofcode => Sys2Proof.Machine.execEofcode s
  | .decode => Sys2Proof.Machine.execDecode s
  | .getcount sym => Sys2Proof.Machine.execGetcount sym s
  | .valueat => Sys2Proof.Machine.execValueat s

end Sys2Proof.Machine
end

