-- ==== Sys2Proof/Machine/EngineStep.lean ====
section
/-! DEFINITION. The command engine's step and the order of the engine's and the host's steps (20_memory.md R55,
60_exceptions.md R204, 70_reset_and_hazards.md R236; log 1). -/

namespace Sys2Proof.Machine

/-- Runs the command word in CMD as one atomic step: decoding comes first, and an illegal word raises IllegalCommand
even when FATAL = 1 (60_exceptions.md R204). -/
def runCommand (s : State) : Result :=
  match decodeCmd s.cmd with
  | .error _ => .next (s.raise .illegalCommand)
  | .ok i => exec i s

/-- One step of the command engine. Idle, it keeps all state (60_exceptions.md R212). -/
def engineStep (s : State) : Result :=
  match s.engine with
  | .idle => .next s
  | .command => runCommand s
  | .resetBuild => .next s.finishResetBuild

/-- The next step of the machine: while BUSY = 1 the engine moves, unless the oldest host step is presented while busy;
otherwise the oldest host step is taken, and with none pending the engine moves (log 1). -/
def agentStep (s : State) : Result :=
  match s.host with
  | [] => engineStep s
  | h :: later =>
    if s.busy && !h.whileBusy then engineStep s else hostAccess h.access { s with host := later }

/-- The host steps with the oldest one waiting for BUSY = 0. -/
def deferOldest : List HostStep → List HostStep
  | [] => []
  | h :: later => { h with whileBusy := false } :: later

/-- The command word `w` in flight, to be run by the very next step (log 11). -/
def issueWord (s : State) (w : Word) : State :=
  { s with cmd := w, engine := .command, host := deferOldest s.host }

end Sys2Proof.Machine
end

