-- ==== Sys2Proof/Machine/Step.lean ====
section
/-! DEFINITION. One step of HCC, and how a command comes to be the one the next step runs. -/

namespace Sys2Proof.Machine

/-- One step: of the command engine or of the host (00_scope.md R13). -/
def step (s : State) : Host.Outcome State Fault Refusal := agentStep s

/-- The command word `w` in flight (log 11). HCC fetches nothing (10_state.md R20): a command is the word written to CMD. -/
def State.withFetchWord (s : State) (nbits w : Nat) : State := issueWord s (BitVec.ofNat 32 (w % 2 ^ nbits))

end Sys2Proof.Machine
end

