-- ==== Sys2Proof/Machine/Assembler.lean ====
section
/-! DEFINITION. The assembler syntax of a command line: the mnemonic, and the symbol operand where the command takes one
(30_encoding.md R77). Text is a list of characters. -/

namespace Sys2Proof.Machine

/-- The digit a character stands for in a base up to 16. -/
def digitOf (base : Nat) (c : Char) : Option Nat :=
  let n := c.toNat
  let d :=
    if 48 ≤ n ∧ n ≤ 57 then some (n - 48)
    else if 97 ≤ n ∧ n ≤ 102 then some (n - 87)
    else if 65 ≤ n ∧ n ≤ 70 then some (n - 55)
    else none
  match d with
  | some v => if v < base then some v else none
  | none => none

/-- The number of a digit sequence, `acc` being what stands to its left. -/
def digitsValue (base : Nat) : Nat → List Char → Option Nat
  | acc, [] => some acc
  | acc, c :: cs =>
    match digitOf base c with
    | some d => digitsValue base (base * acc + d) cs
    | none => none

/-- A symbol operand: the mnemonic `EOF`, a character literal, a `0x` hexadecimal or a decimal (30_encoding.md R77).
DESIGN CHOICE: a character stands for its Unicode code point, of which R77 gives `'c'` = 0x63 only (log 23). -/
def operandValue (p : Params) (text : List Char) : Option Nat :=
  match text with
  | ['E', 'O', 'F'] => some p.eofSym
  | ['\'', c, '\''] => some c.toNat
  | '0' :: 'x' :: d :: ds => digitsValue 16 0 (d :: ds)
  | d :: ds => digitsValue 10 0 (d :: ds)
  | [] => none

/-- The symbol operand of a command line, which must fit the OPERAND field (30_encoding.md R71). -/
def withOperand (p : Params) (make : Nat → Instr) (text : List Char) : Option Instr :=
  match operandValue p text with
  | some sym => if operandFits sym then some (make sym) else none
  | none => none

/-- A command line: a mnemonic alone, or a mnemonic, one space and the symbol operand (30_encoding.md R77). -/
def parseLine (p : Params) (text : List Char) : Option Instr :=
  match text with
  | ['N', 'O', 'P'] => some .nop
  | ['I', 'N', 'I', 'T'] => some .init
  | ['E', 'O', 'F', 'C', 'O', 'D', 'E'] => some .eofcode
  | ['D', 'E', 'C', 'O', 'D', 'E'] => some .decode
  | ['V', 'A', 'L', 'U', 'E', 'A', 'T'] => some .valueat
  | 'O' :: 'B' :: 'S' :: 'E' :: 'R' :: 'V' :: 'E' :: ' ' :: op => withOperand p .observe op
  | 'E' :: 'N' :: 'C' :: 'O' :: 'D' :: 'E' :: ' ' :: op => withOperand p .encode op
  | 'G' :: 'E' :: 'T' :: 'C' :: 'O' :: 'U' :: 'N' :: 'T' :: ' ' :: op => withOperand p .getcount op
  | _ => none

/-- The assembled word of a command line (30_encoding.md R77). -/
def assemble (p : Params) (text : List Char) : Option Word := (parseLine p text).map encode

end Sys2Proof.Machine
end

