-- ==== Sys2Proof/Machine/Platform.lean ====
section
/-! DEFINITION. A platform with several HCC instances, each at its own `HCC_BASE` (60_exceptions.md R215; 20_memory.md
R53, R56). The instances share nothing: every move is a step, a bus access or a reset of one of them (log 22). -/

namespace Sys2Proof.Machine

/-- One HCC instance and the platform address of its register window, `HCC_BASE`: a parameter the spec leaves open, so
any number (00_scope.md R7, 93_implementation_defined.md U5). -/
structure PlacedHcc where
  base : Nat
  state : State
  deriving DecidableEq, Repr

/-- The instances of a platform. Nothing but its place tells one from another (60_exceptions.md R215). -/
abbrev Platform := List PlacedHcc

/-- The answer of a move of the platform. -/
abbrev PlatformResult := Host.Outcome Platform Fault Refusal

/-- The platform address of an offset of the window (20_memory.md R53). -/
def PlacedHcc.address (x : PlacedHcc) (offset : Offset) : Nat := x.base + offset.toNat

/-- A platform address lies in the window: its 18-bit offset space starts at the base (20_memory.md R50). -/
def PlacedHcc.holds (x : PlacedHcc) (address : Nat) : Bool := x.base ≤ address && address < x.base + 2 ^ 18

/-- The offset of a platform address in the window. -/
def PlacedHcc.offsetOf (x : PlacedHcc) (address : Nat) : Offset := BitVec.ofNat 18 (address - x.base)

/-- The windows do not overlap. -/
abbrev Platform.apart (sys : Platform) : Prop :=
  sys.Pairwise fun x y => x.base + 2 ^ 18 ≤ y.base ∨ y.base + 2 ^ 18 ≤ x.base

/-- What happens on the platform: one whole move at a time, of one instance (20_memory.md R56, 60_exceptions.md R215). -/
inductive PlatformMove where
  /-- Instance `k` takes its own next step. -/
  | step (k : Nat)
  /-- Some host reads at a platform address. -/
  | read (bytes address : Nat)
  /-- Some host writes at a platform address. -/
  | write (bytes address : Nat) (value : Word)
  /-- The platform asserts the reset of instance `k`. -/
  | reset (k : Nat)
  deriving DecidableEq, Repr

/-- Runs one instance and keeps all the others; without such an instance nothing happens. -/
def onInstance (k : Nat) (run : PlacedHcc → Result) (sys : Platform) : PlatformResult :=
  match sys[k]? with
  | none => .next sys
  | some x =>
    match run x with
    | .next t => .next (sys.set k { x with state := t })
    | .fault e => .fault e
    | .refused e => .refused e

/-- Runs the instance whose window holds the address; an address in no window reaches no instance (log 13). -/
def atAddress (address : Nat) (run : PlacedHcc → Result) (sys : Platform) : PlatformResult :=
  match sys.findIdx? (·.holds address) with
  | none => .next sys
  | some k => onInstance k run sys

/-- One move of the platform. -/
def platformStep (move : PlatformMove) (sys : Platform) : PlatformResult :=
  match move with
  | .step k => onInstance k (fun x => step x.state) sys
  | .read bytes address => atAddress address (fun x => hostAccess (.read bytes (x.offsetOf address)) x.state) sys
  | .write bytes address v =>
    atAddress address (fun x => hostAccess (.write bytes (x.offsetOf address) v) x.state) sys
  | .reset k => onInstance k (fun x => hostAccess .reset x.state) sys

/-- The moves in order: any list is an interleaving the spec admits (20_memory.md R56). -/
def platformRun : List PlatformMove → Platform → PlatformResult
  | [], sys => .next sys
  | move :: moves, sys =>
    match platformStep move sys with
    | .next sys' => platformRun moves sys'
    | .fault e => .fault e
    | .refused e => .refused e

end Sys2Proof.Machine
end

