-- ==== Sys2Proof/Machine/HostProtocol.lean ====
section
/-! DEFINITION. The host's side as the spec writes it: the host steps WR and RD, a command line, the macros ENCOBS and
DECOBS (30_encoding.md R77, R78), and the stream protocol (42_encoder.md R154, 43_decoder.md R172). None of it is HCC's:
HCC runs one command at a time. -/

namespace Sys2Proof.Machine

/-- `WR REG, v` after a `WAIT` (30_encoding.md R77). -/
def wrReg (r : Register) (v : Word) : HostStep :=
  { access := .write 4 r.offset v, whileBusy := false }

/-- `RD REG` after a `WAIT` (30_encoding.md R77). -/
def rdReg (r : Register) : HostStep := { access := .read 4 r.offset, whileBusy := false }

/-- `RD STATUS`, as a poll made while BUSY = 1 (30_encoding.md R77). -/
def pollStatus : HostStep := { access := .read 4 Register.status.offset, whileBusy := true }

/-- `WR IN_BITS[j], v` (30_encoding.md R77). -/
def wrInBits (j : Nat) (v : Word) : HostStep :=
  { access := .write 4 (BitVec.ofNat 18 (inBase + 4 * j)) v, whileBusy := false }

/-- `WR PATH_BITS[j], v` (95_test_vectors.md P3). -/
def wrPathBits (j : Nat) (v : Word) : HostStep :=
  { access := .write 4 (BitVec.ofNat 18 (pathBase + 4 * j)) v, whileBusy := false }

/-- A command line as a host step: `WR CMD, word` (30_encoding.md R77). -/
def commandLine (i : Instr) : HostStep := wrReg .cmd (encode i)

/-- The next thing the host does where the last one went through. -/
def andThen (r : Result) (f : State → Result) : Result :=
  match r with
  | .next s => f s
  | .fault e => .fault e
  | .refused e => .refused e

/-- A command line carried out: `WR CMD, word; WAIT` (30_encoding.md R77). -/
def issue (i : Instr) (s : State) : Result :=
  andThen (hostAccess (commandLine i).access s) engineStep

/-- `ENCOBS s` is `ENCODE s; OBSERVE s` (30_encoding.md R78). -/
def encobs (sym : Nat) (s : State) : Result := andThen (issue (.encode sym) s) (issue (.observe sym))

/-- `DECOBS` is `DECODE`, then `OBSERVE RESULT_SYM` where a symbol was decoded (30_encoding.md R78). -/
def decobs (s : State) : Result :=
  andThen (issue .decode s) fun t =>
    if t.resultKind = .symbol then issue (.observe t.resultSym.toNat) t else .next t

/-- The encoder-side protocol of 42_encoder.md R154: `ENCOBS` for each symbol, then `EOFCODE`, the codewords collected
and concatenated in order. `OBSERVE` leaves the codeword in place, so it is collected after `ENCOBS`. -/
def encodeStream : List Nat → State → Option (List Bool × State)
  | [], s =>
    match issue .eofcode s with
    | .next t => some (t.codeword, t)
    | _ => none
  | sym :: syms, s =>
    match encobs sym s with
    | .next t =>
      match encodeStream syms t with
      | some (bits, u) => some (t.codeword ++ bits, u)
      | none => none
    | _ => none

/-- `count` runs of `DECOBS`, each of which must return a symbol; the symbols in order (43_decoder.md R172, R173). -/
def decodeSymbols : Nat → State → Option (List Nat × State)
  | 0, s => some ([], s)
  | count + 1, s =>
    match decobs s with
    | .next t =>
      if t.resultKind = .symbol then
        match decodeSymbols count t with
        | some (syms, u) => some (t.resultSym.toNat :: syms, u)
        | none => none
      else none
    | _ => none

end Sys2Proof.Machine
end

