-- ==== Sys2Proof/Safety.lean ====
section
/-! DEFINITION. What a good state of HCC is: the invariant the spec's statements about the whole machine come to, and the
words the statements use. -/

namespace Sys2Proof.Machine

/-- A byte offset that lies in `PATH_BITS` or in `IN_BITS` (20_memory.md R53). -/
abbrev inBuffers (p : Params) (offset : Nat) : Prop :=
  (pathBase ≤ offset ∧ offset < pathBase + 4 * p.codeWords) ∨
    (inBase ≤ offset ∧ offset < inBase + p.inCap / 8)

/-- The invariant of HCC. -/
structure State.Inv (s : State) : Prop where
  /-- The parameters are legal (00_scope.md R7). -/
  legal : s.params.legal
  /-- No internal invariant break: `FATAL` stays 0 (60_exceptions.md R203). -/
  noFatal : s.fatal = false
  /-- Every symbol has an entry (10_state.md R33). -/
  freqLength : s.freq.length = s.params.alphabet
  /-- The EOF entry is `EOF_WEIGHT` at all times (40_frequency.md R105). -/
  eofCount : s.countOf s.params.eofSym = BitVec.ofNat 32 s.params.eofWeight
  /-- `NODE = BuildTree(FREQ)` (10_state.md R38). -/
  tree : s.node = buildTree s.freq
  /-- The memory is in canonical form. -/
  memWf : Memory.wf s.mem
  /-- Only `PATH_BITS` and `IN_BITS` hold bytes (20_memory.md R53). -/
  memPlaces : ∀ c ∈ s.mem, inBuffers s.params c.1
  /-- A buffer word is written as a whole or not at all (20_memory.md R52). -/
  memWords : ∀ offset, (Memory.readByte s.mem offset).isSome →
    (Memory.readWord s.mem (4 * (offset / 4))).isSome
  /-- `CODE_BITS` has `CODE_WORDS` words (10_state.md R37). -/
  codeWords : s.codeBits.length = s.params.codeWords
  /-- `CODE_LEN` is at most `MAXLEN` (10_state.md R27). -/
  codeLen : s.codeLen.toNat ≤ s.params.maxLen
  /-- Every bit of `CODE_BITS` at or above `CODE_LEN` is 0 (10_state.md R37). -/
  codeClear : ∀ i, s.codeLen.toNat ≤ i → s.codeBit i = false
  /-- `RESULT_SYM` is a symbol (10_state.md R25). -/
  resultSym : s.resultSym.toNat < s.params.alphabet
  /-- `VAL_KEY` is a node index (10_state.md R32). -/
  valKey : s.valKey.toNat ≤ s.params.root

/-- No host step is presented before the running command ends: the oldest one waits for BUSY = 0, or none is pending. -/
abbrev State.hostWaits (s : State) : Prop := ∀ h ∈ s.host.head?, h.whileBusy = false

/-- The input bits from `pos` on are `bits`, all of them written (43_decoder.md R170). -/
abbrev State.inputHas (s : State) (pos : Nat) (bits : List Bool) : Prop :=
  ∀ (i : Nat) (h : i < bits.length), s.inBit (pos + i) = some bits[i]

/-- The path bits `PATH_BITS[0 .. L-1]` are `bits`, all of them written (41_tree.md R129). -/
abbrev State.pathHas (s : State) (bits : List Bool) : Prop :=
  ∀ (i : Nat) (h : i < bits.length), s.pathBit i = some bits[i]

/-- The illegal words of 30_encoding.md R74, as numbers: (a) a reserved opcode, (b) a nonzero reserved field, (c) an
operand-free opcode with a nonzero operand. -/
abbrev illegalWord (w : Word) : Prop :=
  8 ≤ w.toNat / 2 ^ 28 ∨ w.toNat / 2 ^ 16 % 2 ^ 12 ≠ 0 ∨
    (w.toNat / 2 ^ 28 ∈ [0, 1, 4, 5, 7] ∧ w.toNat % 2 ^ 16 ≠ 0)

/-- The outcomes each command can report beside IllegalCommand, which is its word's (60_exceptions.md R202). -/
def outcomesOf : Instr → List ErrCode
  | .nop => [.ok, .faulted]
  | .init => [.ok]
  | .observe _ => [.ok, .invalidSymbol, .countOverflow, .eofNotObservable, .faulted]
  | .encode _ => [.ok, .invalidSymbol, .notFound, .faulted]
  | .eofcode => [.ok, .notFound, .faulted]
  | .decode => [.ok, .invalidPath, .truncatedStream, .cursorRange, .faulted]
  | .getcount _ => [.ok, .invalidSymbol, .faulted]
  | .valueat => [.ok, .invalidPath, .faulted]

/-- Node `m` is the internal node one of whose children is node `n` (41_tree.md R125). -/
abbrev parentOf (nodes : List Node) (m n : Nat) : Prop :=
  ∃ l r w d, nodes[m]? = some { kind := .internal l r, weight := w, depth := d } ∧ (n = l ∨ n = r)

/-- A symbol's count in a frequency table, as a number. -/
abbrev countIn (freq : List Count) (sym : Nat) : Nat := (freq.getD sym 0#32).toNat

/-- Two states whose HCC part is the same: only what belongs to the model's bus side differs. -/
abbrev State.sameHcc (s t : State) : Prop := { s with host := t.host, reply := t.reply, fresh := t.fresh } = t

/-- The run of a state: the host and the engine in turn, `k` steps. -/
abbrev State.run (k : Nat) (s : State) : Result := Host.Core.run Sys2Proof.core k s

/-- A safe state: one of the invariant. A safe run stays in it. -/
abbrev State.Safe (s : State) : Prop := s.Inv

end Sys2Proof.Machine
end

