-- ==== Sys2Proof/Certificates/Slice0/Obligations.lean ====
section
/-! DEFINITION. The statements about HCC for the provers. A statement about every state holds in states no run reaches; where
it needs the invariant, it says so. -/

open Sys2Proof Sys2Proof.Machine

/-! ### Commands: encoding and decoding -/

/-- Words written out from the opcode map and the assembler rule (30_encoding.md R73, R77). -/
def Obligations.KnownWordsDecode : Prop :=
  decodeCmd 0x00000000#32 = .ok .nop ∧
  decodeCmd 0x10000000#32 = .ok .init ∧
  decodeCmd 0x20000063#32 = .ok (.observe 0x63) ∧
  decodeCmd 0x3000FFFF#32 = .ok (.encode 0xFFFF) ∧
  decodeCmd 0x40000000#32 = .ok .eofcode ∧
  decodeCmd 0x50000000#32 = .ok .decode ∧
  decodeCmd 0x60000100#32 = .ok (.getcount 256) ∧
  decodeCmd 0x70000000#32 = .ok .valueat

/-- Decoding an encoded well-formed command gives it back, for every operand the encoding admits (30_encoding.md R71,
R73, R77, R79). -/
def Obligations.DecodeOfEncodeIsIdentity : Prop :=
  ∀ i : Instr, i.wellFormed → decodeCmd (encode i) = .ok i

/-- A legal word has one meaning: what it decodes to is well formed and encodes to it (30_encoding.md R73, R77, R79). -/
def Obligations.EncodeOfDecodeIsIdentity : Prop :=
  ∀ (w : Word) (i : Instr), decodeCmd w = .ok i → i.wellFormed ∧ encode i = w

/-- 30_encoding.md R74: which words are illegal, and what an illegal word does, whatever FATAL is. -/
def Obligations.IllegalWordsRaiseIllegalCommand : Prop :=
  (∀ w : Word, (∃ e, decodeCmd w = .error e) ↔ illegalWord w) ∧
  (∀ s : State, s.engine = .command → s.hostWaits → illegalWord s.cmd →
    step s = .next { s with err := .illegalCommand, engine := .idle }) ∧
  ErrCode.illegalCommand.code = 5#4 ∧
  (∀ w : Word, decodeCmd w = .ok .nop ↔ w = 0x00000000#32)

/-- 30_encoding.md R79: there are 196,613 legal words. -/
def Obligations.LegalWordCount : Prop :=
  ((Finset.univ : Finset (BitVec 32)).filter fun w => (decodeCmd w).toBool = true).card = 196613

/-! ### The step -/

/-- When the word in flight decodes to `i` and no host step is presented before the command ends, the step is `exec i`
and adds nothing around it; so is the step after the model places a command's word in flight (log 11: the placing is the
model's own). -/
def Obligations.StepRunsDecodedCommand : Prop :=
  (∀ (s : State) (i : Instr), s.engine = .command → s.hostWaits → decodeCmd s.cmd = .ok i → step s = exec i s) ∧
  (∀ (s : State) (i : Instr), i.wellFormed →
    step (s.withFetchWord 32 (encode i).toNat) = exec i (s.withFetchWord 32 (encode i).toNat) ∧
    (s.withFetchWord 32 (encode i).toNat).cmd = encode i)

/-- A command line of the host takes two steps: the write of CMD stores the word and sets BUSY, and nothing else of the
state moves; the next step is the whole command (10_state.md R22, 20_memory.md R55, 30_encoding.md R77). The order of host
and engine is the model's (log 1). -/
def Obligations.CommandLineTakesTwoSteps : Prop :=
  ∀ (s : State) (i : Instr) (later : List HostStep), i.wellFormed → s.engine = .idle →
    s.host = commandLine i :: later → (∀ h ∈ later.head?, h.whileBusy = false) →
    ∃ t, step s = .next t ∧ t = { s with cmd := encode i, engine := .command, host := later } ∧
      t.busy = true ∧ step t = exec i t

/-- 60_exceptions.md R212: idle with nothing from outside, HCC keeps all state; and nothing wakes it but a write to CMD
or a reset. -/
def Obligations.IdleKeepsStateUntilWoken : Prop :=
  (∀ s : State, s.busy = false → s.host = [] → step s = .next s) ∧
  (∀ s t : State, s.busy = false → step s = .next t → t.busy = true →
    ∃ h later, s.host = h :: later ∧
      (h.access = .reset ∨ ∃ w, h.access = .write 4 Register.cmd.offset w ∧ t.cmd = w))

/-- A running command or reset build ends: after at most one step more than there are host steps to come, the machine is
idle, or a step stopped (70_reset_and_hazards.md R236, 93_implementation_defined.md U4; the bound is the model's, log 1). -/
def Obligations.BusyEnds : Prop :=
  ∀ s : State, ∃ k ≤ s.host.length + 1,
    (∃ t, s.run k = .next t ∧ t.busy = false) ∨ (∃ e, s.run k = .fault e) ∨ (∃ e, s.run k = .refused e)

/-! ### Outcomes and priority -/

/-- 60_exceptions.md R204: decoding, then the fatal check, then the command's own checks in their order. -/
def Obligations.ChecksInOrder : Prop :=
  (∀ s : State, s.engine = .command → s.hostWaits → illegalWord s.cmd →
    step s = .next { s with err := .illegalCommand, engine := .idle }) ∧
  (∀ (s : State) (i : Instr), s.fatal = true → i ≠ .init →
    exec i s = .next { s with err := .faulted, engine := .idle }) ∧
  (∀ (s : State) (sym : Nat), s.fatal = false → s.params.alphabet ≤ sym →
    exec (.observe sym) s = .next { s with err := .invalidSymbol, engine := .idle } ∧
    exec (.encode sym) s = .next { s with err := .invalidSymbol, engine := .idle } ∧
    exec (.getcount sym) s = .next { s with err := .invalidSymbol, engine := .idle }) ∧
  (∀ (s : State), s.fatal = false → 0 < s.params.alphabet →
    exec (.observe s.params.eofSym) s = .next { s with err := .eofNotObservable, engine := .idle }) ∧
  (∀ (s : State) (sym : Nat), s.fatal = false → sym < s.params.alphabet → sym ≠ s.params.eofSym →
    s.countOf sym = 0xFFFFFFFF#32 →
    exec (.observe sym) s = .next { s with err := .countOverflow, engine := .idle }) ∧
  (∀ s : State, s.fatal = false → s.params.maxLen < s.pathLen.toNat →
    exec .valueat s = .next { s with err := .invalidPath, engine := .idle }) ∧
  (∀ (s : State) (path : List Bool), s.fatal = false → s.pathLen.toNat = path.length →
    s.pathLen.toNat ≤ s.params.maxLen → s.pathHas path → walk s.params s.node path = none →
    exec .valueat s = .next { s with err := .invalidPath, engine := .idle }) ∧
  (∀ s : State, s.fatal = false → (s.params.inCap < s.inLen.toNat ∨ s.inLen.toNat < s.inPos.toNat) →
    exec .decode s = .next { s with err := .cursorRange, engine := .idle }) ∧
  (∀ (s : State) (path : List Bool) (n : Nat), s.Inv → s.inLen.toNat ≤ s.params.inCap →
    s.inPos.toNat + path.length = s.inLen.toNat → s.inputHas s.inPos.toNat path →
    walk s.params s.node path = some n → s.params.alphabet ≤ n →
    exec .decode s = .next { s with err := .truncatedStream, engine := .idle, inPos := s.inLen,
                                    resultKind := .truncated })

/-- 60_exceptions.md R201: a raised error writes its code to ERR; a fatal one (NotFound of ENCODE and EOFCODE, the internal
InvalidPath of DECODE) also sets FATAL; TruncatedStream also makes its two named writes; nothing else is written, neither
FREQ nor NODE, by a command or by an illegal word. BUSY clears as at the end of every command. -/
def Obligations.ErrorsArePrecise : Prop :=
  (∀ (i : Instr) (s t : State), exec i s = .next t → t.err ≠ .ok →
    match t.err with
    | .notFound =>
      (i = .eofcode ∨ ∃ sym, i = .encode sym) ∧ t = { s with err := .notFound, engine := .idle, fatal := true }
    | .invalidPath =>
      (i = .decode ∧ t = { s with err := .invalidPath, engine := .idle, fatal := true }) ∨
        (i = .valueat ∧ t = { s with err := .invalidPath, engine := .idle })
    | .truncatedStream =>
      i = .decode ∧
        t = { s with err := .truncatedStream, engine := .idle, inPos := s.inLen, resultKind := .truncated }
    | e => t = { s with err := e, engine := .idle }) ∧
  (∀ s : State, s.engine = .command → s.hostWaits → illegalWord s.cmd →
    step s = .next { s with err := .illegalCommand, engine := .idle })

/-- 60_exceptions.md R202: the outcomes each command can report; every illegal word reports IllegalCommand, every command
but INIT reports Faulted while FATAL = 1, and on states of the invariant the two fatal outcomes do not occur. -/
def Obligations.OutcomesOfEachCommand : Prop :=
  (∀ (i : Instr) (s t : State), exec i s = .next t → t.err ∈ outcomesOf i) ∧
  (∀ (i : Instr) (s t : State), s.Inv → exec i s = .next t →
    t.err ≠ .notFound ∧ (i = .decode → t.err ≠ .invalidPath)) ∧
  (∀ s t : State, s.engine = .command → s.hostWaits → illegalWord s.cmd → step s = .next t →
    t.err = .illegalCommand) ∧
  (∀ (i : Instr) (s : State), s.fatal = true → i ≠ .init → ∃ t, exec i s = .next t ∧ t.err = .faulted)

/-- 60_exceptions.md R203: in every step, host accesses and the reset build included, FATAL is set only by NotFound of
ENCODE and EOFCODE and by InvalidPath of DECODE, each of which does set it, and cleared only by INIT and by reset. -/
def Obligations.FatalSetAndCleared : Prop :=
  (∀ s t : State, step s = .next t → s.fatal = false → t.fatal = true →
    s.engine = .command ∧ ∃ i, decodeCmd s.cmd = .ok i ∧ exec i s = .next t ∧
      ((t.err = .notFound ∧ (i = .eofcode ∨ ∃ sym, i = .encode sym)) ∨ (t.err = .invalidPath ∧ i = .decode))) ∧
  (∀ (s : State) (sym : Nat), s.fatal = false → sym < s.params.alphabet → s.codeOf sym = none →
    exec (.encode sym) s = .next { s with err := .notFound, engine := .idle, fatal := true }) ∧
  (∀ s : State, s.fatal = false → s.codeOf s.params.eofSym = none →
    exec .eofcode s = .next { s with err := .notFound, engine := .idle, fatal := true }) ∧
  (∀ s : State, s.fatal = false → s.inLen.toNat ≤ s.params.inCap → s.inPos.toNat ≤ s.inLen.toNat →
    decodeLoop s (s.inLen.toNat - s.inPos.toNat) s.inPos.toNat s.params.root = .broken →
    exec .decode s = .next { s with err := .invalidPath, engine := .idle, fatal := true }) ∧
  (∀ s t : State, step s = .next t → s.fatal = true → t.fatal = false →
    (s.engine = .command ∧ decodeCmd s.cmd = .ok .init) ∨ s.engine = .resetBuild ∨
    (∃ h later, s.host = h :: later ∧ h.access = .reset))

/-! ### Engine control and counts -/

/-- 40_frequency.md R100. -/
def Obligations.NopClearsErr : Prop :=
  (∀ w : Word, decodeCmd w = .ok .nop ↔ w = 0x00000000#32) ∧
  (∀ s : State, s.fatal = false → exec .nop s = .next { s with err := .ok, engine := .idle }) ∧
  (∀ s : State, s.fatal = true → exec .nop s = .next { s with err := .faulted, engine := .idle }) ∧
  (∀ s : State, s.engine = .command → s.hostWaits → s.cmd.toNat / 2 ^ 28 = 0 → s.cmd.toNat % 2 ^ 16 ≠ 0 →
    step s = .next { s with err := .illegalCommand, engine := .idle })

/-- 40_frequency.md R101: INIT gives FREQ and NODE their initial contents, clears FATAL, and writes nothing else, also
while FATAL = 1. -/
def Obligations.InitRecreatesEngine : Prop :=
  (∀ w : Word, decodeCmd w = .ok .init ↔ w = 0x10000000#32) ∧
  (∀ s : State, exec .init s = .next { s with
    freq := List.replicate s.params.eofSym 0#32 ++ [BitVec.ofNat 32 s.params.eofWeight]
    node := buildTree (List.replicate s.params.eofSym 0#32 ++ [BitVec.ofNat 32 s.params.eofWeight])
    fatal := false, err := .ok, engine := .idle }) ∧
  (∀ s : State, s.engine = .command → s.hostWaits → s.cmd.toNat / 2 ^ 28 = 1 → s.cmd.toNat % 2 ^ 16 ≠ 0 →
    step s = .next { s with err := .illegalCommand, engine := .idle })

/-- 40_frequency.md R102: OBSERVE adds one to the entry of a data symbol and rebuilds the whole tree, and nothing else;
its three errors change neither FREQ nor NODE. -/
def Obligations.ObserveCountsAndRebuilds : Prop :=
  (∀ (w : Word) (sym : Nat), decodeCmd w = .ok (.observe sym) ↔ sym < 65536 ∧ w = BitVec.ofNat 32 (0x20000000 + sym)) ∧
  (∀ (s : State) (sym : Nat), s.fatal = false → sym < s.params.eofSym → s.countOf sym ≠ 0xFFFFFFFF#32 →
    exec (.observe sym) s = .next { s with
      freq := s.freq.set sym (s.countOf sym + 1#32)
      node := buildTree (s.freq.set sym (s.countOf sym + 1#32))
      err := .ok, engine := .idle }) ∧
  (∀ (s : State) (sym : Nat), s.fatal = false → s.params.alphabet ≤ sym →
    exec (.observe sym) s = .next { s with err := .invalidSymbol, engine := .idle }) ∧
  (∀ s : State, s.fatal = false → 0 < s.params.alphabet →
    exec (.observe s.params.eofSym) s = .next { s with err := .eofNotObservable, engine := .idle }) ∧
  (∀ (s : State) (sym : Nat), s.fatal = false → sym < s.params.eofSym → s.countOf sym = 0xFFFFFFFF#32 →
    exec (.observe sym) s = .next { s with err := .countOverflow, engine := .idle })

/-- 40_frequency.md R103: GETCOUNT reports the entry of a symbol; the sentinel's is EOF_WEIGHT, and a symbol never observed
since reset or INIT has 0: the initial table has 0 for it, and only an OBSERVE of it, INIT and a reset with its build
change its count. -/
def Obligations.GetcountReadsEntry : Prop :=
  (∀ (w : Word) (sym : Nat), decodeCmd w = .ok (.getcount sym) ↔ sym < 65536 ∧ w = BitVec.ofNat 32 (0x60000000 + sym)) ∧
  (∀ (s : State) (sym : Nat), s.fatal = false → sym < s.params.alphabet →
    exec (.getcount sym) s = .next { s with countOut := s.freq.getD sym 0#32, err := .ok, engine := .idle }) ∧
  (∀ (s : State) (sym : Nat), s.fatal = false → s.params.alphabet ≤ sym →
    exec (.getcount sym) s = .next { s with err := .invalidSymbol, engine := .idle }) ∧
  (∀ s : State, s.Inv → ∃ t, exec (.getcount s.params.eofSym) s = .next t ∧
    t.countOut.toNat = s.params.eofWeight) ∧
  (∀ (s : State) (sym : Nat), s.fatal = false → s.freq = initialFreq s.params → sym < s.params.eofSym →
    ∃ t, exec (.getcount sym) s = .next t ∧ t.countOut = 0#32) ∧
  (∀ (s t : State) (sym : Nat), step s = .next t →
    t.countOf sym = s.countOf sym ∨
    (s.engine = .command ∧ (decodeCmd s.cmd = .ok (.observe sym) ∨ decodeCmd s.cmd = .ok .init)) ∨
    s.engine = .resetBuild ∨ (∃ h later, s.host = h :: later ∧ h.access = .reset))

/-- 40_frequency.md R104, R105 and 10_state.md R33: in every step a count stays, or rises by exactly one without wrapping,
and only INIT and the reset build set the table back; the sentinel's count stays in every step, these included. That
the counts stay in the step that takes a reset is the model's choice: FREQ keeps its contents until the build (log 9). -/
def Obligations.CountsNeverDecrease : Prop :=
  ∀ s t : State, s.Inv → step s = .next t →
    ((∀ sym, (s.countOf sym).toNat ≤ (t.countOf sym).toNat ∧ (t.countOf sym).toNat ≤ (s.countOf sym).toNat + 1) ∨
      (t.freq = initialFreq s.params ∧
        (s.engine = .resetBuild ∨ (s.engine = .command ∧ decodeCmd s.cmd = .ok .init)))) ∧
    t.countOf s.params.eofSym = s.countOf s.params.eofSym

/-- 41_tree.md R126, R127: the order of OBSERVEs does not matter: observing `x` and then `y` ends in the same state, tree
included, as `y` and then `x`. -/
def Obligations.ObserveOrderDoesNotMatter : Prop :=
  ∀ (s a b : State) (x y : Nat), exec (.observe x) s = .next a → a.err = .ok → exec (.observe y) a = .next b →
    b.err = .ok → ∃ a', exec (.observe y) s = .next a' ∧ a'.err = .ok ∧ exec (.observe x) a' = .next b

/-! ### The tree -/

/-- 41_tree.md R123: the comparator is the lexicographic order of weight, depth and index, and on members of distinct
indices it is a strict total order. -/
def Obligations.ComparatorIsStrictTotalOrder : Prop :=
  (∀ a b : Member, precedes a b = true ↔
    toLex (a.node.weight.toNat, toLex (a.node.depth.toNat, a.index)) <
      toLex (b.node.weight.toNat, toLex (b.node.depth.toNat, b.index))) ∧
  (∀ a : Member, precedes a a = false) ∧
  (∀ a b c : Member, precedes a b = true → precedes b c = true → precedes a c = true) ∧
  (∀ a b : Member, a.index ≠ b.index → (precedes a b = true ∨ precedes b a = true))

/-- 41_tree.md R122: what is taken from a forest is its `≺`-least member, and the rest stays. -/
def Obligations.LeastMemberIsTaken : Prop :=
  ∀ forest : List Member, forest ≠ [] → (forest.map Member.index).Nodup →
    ∃ least rest, takeLeast forest = some (least, rest) ∧ forest.Perm (least :: rest) ∧
      ∀ m ∈ rest, precedes least m = true

/-- 41_tree.md R125 with the records of R121 and R122: the structure of every tree BuildTree makes. -/
def Obligations.BuildTreeStructure : Prop :=
  ∀ freq : List Count, 2 ≤ freq.length → freq.length ≤ 65536 →
    (buildTree freq).length = 2 * freq.length - 1 ∧
    (∀ n < freq.length, (buildTree freq)[n]? =
      some { kind := .leaf, weight := (freq.getD n 0#32).setWidth 48, depth := 0#16 }) ∧
    (∀ n, freq.length ≤ n → n < 2 * freq.length - 1 → ∃ l r w d,
      (buildTree freq)[n]? = some { kind := .internal l r, weight := w, depth := d } ∧ l ≠ r ∧ l < n ∧ r < n) ∧
    (∀ n < 2 * freq.length - 2, ∃! m, parentOf (buildTree freq) m n) ∧
    (∀ m, ¬ parentOf (buildTree freq) m (2 * freq.length - 2)) ∧
    (∀ n r, (buildTree freq)[n]? = some r → ∃ leaves : List Nat, leaves.Nodup ∧
      (∀ sym, sym ∈ leaves ↔ sym < freq.length ∧ ∃ path, walkFrom (buildTree freq) n path = some sym) ∧
      r.weight.toNat = (leaves.map (countIn freq)).sum) ∧
    (∀ n r, (buildTree freq)[n]? = some r →
      (∃ path sym, sym < freq.length ∧ walkFrom (buildTree freq) n path = some sym ∧ path.length = r.depth.toNat) ∧
      (∀ path sym, sym < freq.length → walkFrom (buildTree freq) n path = some sym → path.length ≤ r.depth.toNat))

/-- 41_tree.md R124, R134, R135: an internal node's weight is the exact sum of its children's, with no wrap, its depth one
more than the greater of theirs, and its left child precedes its right one. -/
def Obligations.InternalNodesAreExactMerges : Prop :=
  ∀ (freq : List Count) (n l r : Nat) (w : Weight) (d : Depth), 2 ≤ freq.length → freq.length ≤ 65536 →
    (buildTree freq)[n]? = some { kind := .internal l r, weight := w, depth := d } →
    ∃ nl nr, (buildTree freq)[l]? = some nl ∧ (buildTree freq)[r]? = some nr ∧
      w.toNat = nl.weight.toNat + nr.weight.toNat ∧ d.toNat = max nl.depth.toNat nr.depth.toNat + 1 ∧
      precedes { index := l, node := nl } { index := r, node := nr } = true

/-- 41_tree.md R128, R130: every symbol has a codeword, of 1 to MAXLEN bits, and it is the one path that the walk takes to
the symbol's leaf. -/
def Obligations.CodewordIsTheUniquePath : Prop :=
  ∀ (p : Params) (freq : List Count) (sym : Nat), p.legal → freq.length = p.alphabet → sym < p.alphabet →
    ∃ code, pathTo p (buildTree freq) sym = some code ∧ 1 ≤ code.length ∧ code.length ≤ p.maxLen ∧
      ∀ path, walk p (buildTree freq) path = some sym ↔ path = code

/-- 41_tree.md R131: the codewords of distinct symbols are no prefixes of each other, each has at least one bit, and their
lengths satisfy the Kraft equality (here multiplied by `2^MAXLEN`). -/
def Obligations.PrefixFreeWithKraftEquality : Prop :=
  ∀ (p : Params) (freq : List Count), p.legal → freq.length = p.alphabet →
    ∃ code : Nat → List Bool,
      (∀ sym < p.alphabet, pathTo p (buildTree freq) sym = some (code sym) ∧ 1 ≤ (code sym).length ∧
        (code sym).length ≤ p.maxLen) ∧
      (∀ x < p.alphabet, ∀ y < p.alphabet, x ≠ y → code x ≠ code y ∧ ¬ code x <+: code y ∧ ¬ code y <+: code x) ∧
      ((List.range p.alphabet).map fun sym => 2 ^ (p.maxLen - (code sym).length)).sum = 2 ^ p.maxLen

/-- 41_tree.md R132: a symbol that outweighs all others together has a codeword of length 1; being strictly most frequent
is not enough (A = 4, counts 3, 2, 2, 1). -/
def Obligations.MajorityLaw : Prop :=
  (∀ (p : Params) (freq : List Count) (sym : Nat) (code : List Bool), p.legal → freq.length = p.alphabet →
    sym < p.alphabet → pathTo p (buildTree freq) sym = some code →
    (((List.range p.alphabet).filter (· ≠ sym)).map (countIn freq)).sum < countIn freq sym → code.length = 1) ∧
  pathTo { alphabet := 4, eofWeight := 1, inCap := 32 } (buildTree [3#32, 2#32, 2#32, 1#32]) 0 = some [true, true]

/-- 41_tree.md R133: the initial tree of HCC, for any EOF_WEIGHT. -/
def Obligations.InitialTreeIsBalanced : Prop :=
  ∀ p : Params, p.legal → p.alphabet = 257 →
    (∀ k < 8, ∀ j < 2 ^ (7 - k),
      (buildTree (initialFreq p))[[257, 385, 449, 481, 497, 505, 509, 511].getD k 0 + j]? = some
        { kind := .internal ([0, 257, 385, 449, 481, 497, 505, 509].getD k 0 + 2 * j)
            ([0, 257, 385, 449, 481, 497, 505, 509].getD k 0 + 2 * j + 1)
          weight := 0#48, depth := BitVec.ofNat 16 (k + 1) }) ∧
    (buildTree (initialFreq p))[512]? = some
      { kind := .internal 511 256, weight := BitVec.ofNat 48 p.eofWeight, depth := 9#16 } ∧
    pathTo p (buildTree (initialFreq p)) 256 = some [true] ∧
    (∀ sym < 256, pathTo p (buildTree (initialFreq p)) sym =
      some (false :: (List.range 8).map fun i => sym.testBit (7 - i)))

/-- 41_tree.md R126: equal frequency tables, `A` and `EOF_WEIGHT` give equal trees and bit-identical results of ENCODE,
EOFCODE, DECODE and VALUEAT, whatever else the two instances hold: DECODE on equal input bits, IN_LEN within both
capacities or within neither, VALUEAT on equal path bits. -/
def Obligations.EqualCountsGiveEqualResults : Prop :=
  ∀ s u : State, s.Inv → u.Inv → s.params.alphabet = u.params.alphabet → s.params.eofWeight = u.params.eofWeight →
    s.freq = u.freq →
    s.node = u.node ∧
    (∀ sym < s.params.alphabet, ∃ t v, exec (.encode sym) s = .next t ∧ exec (.encode sym) u = .next v ∧
      t.codeLen = v.codeLen ∧ t.codeBits = v.codeBits ∧ t.err = v.err) ∧
    (∃ t v, exec .eofcode s = .next t ∧ exec .eofcode u = .next v ∧
      t.codeLen = v.codeLen ∧ t.codeBits = v.codeBits ∧ t.err = v.err) ∧
    (s.inLen = u.inLen → s.inPos = u.inPos → (s.inLen.toNat ≤ s.params.inCap ↔ u.inLen.toNat ≤ u.params.inCap) →
      (∀ i < s.inLen.toNat, s.inBit i = u.inBit i) → s.resultKind = u.resultKind → s.resultSym = u.resultSym →
      ∀ t, exec .decode s = .next t → ∃ v, exec .decode u = .next v ∧
      t.resultKind = v.resultKind ∧ t.resultSym = v.resultSym ∧ t.inPos = v.inPos ∧ t.err = v.err) ∧
    (s.pathLen = u.pathLen → (∀ i < s.pathLen.toNat, s.pathBit i = u.pathBit i) →
      ∀ t, exec .valueat s = .next t → ∃ v, exec .valueat u = .next v ∧
      t.err = v.err ∧ (t.err = .ok → t.valKey = v.valKey ∧ t.valKind = v.valKind ∧ t.valDepth = v.valDepth ∧
        t.valWeightLo = v.valWeightLo ∧ t.valWeightHi = v.valWeightHi))

/-- 41_tree.md R129: what VALUEAT reports for a path the host wrote. A path of `L` written bits that ends at node `n`
reports it; the empty path reports the root, whose weight is the sum of all counts; a path over MAXLEN or one that steps
below a leaf, as every longer path than a symbol's does, is the recoverable InvalidPath. The last clause is not R129's: a
bit of an unwritten word faults (10_state.md R36, 93_implementation_defined.md U3), wherever it stands among the L path
bits, which all are read before the walk (log 7). -/
def Obligations.ValueatReportsTheNode : Prop :=
  (∀ w : Word, decodeCmd w = .ok .valueat ↔ w = 0x70000000#32) ∧
  (∀ (s : State) (path : List Bool) (n : Nat) (r : Node), s.fatal = false → s.pathLen.toNat = path.length →
    path.length ≤ s.params.maxLen → s.pathHas path → walk s.params s.node path = some n → s.node[n]? = some r →
    exec .valueat s = .next { s with
      valKey := BitVec.ofNat 32 n
      valKind := (match r.kind with
        | .leaf => .leaf
        | .internal _ _ => .internal)
      valDepth := r.depth
      valWeightLo := r.weight.extractLsb' 0 32
      valWeightHi := r.weight.extractLsb' 32 16
      err := .ok, engine := .idle }) ∧
  (∀ s : State, s.Inv → s.pathLen = 0#32 → ∃ t, exec .valueat s = .next t ∧ t.err = .ok ∧
    t.valKey.toNat = s.params.root ∧ t.valKind = .internal ∧
    t.valWeightHi.toNat * 2 ^ 32 + t.valWeightLo.toNat = (s.freq.map BitVec.toNat).sum) ∧
  (∀ s : State, s.fatal = false → s.params.maxLen < s.pathLen.toNat →
    exec .valueat s = .next { s with err := .invalidPath, engine := .idle }) ∧
  (∀ (s : State) (path : List Bool), s.fatal = false → s.pathLen.toNat = path.length →
    path.length ≤ s.params.maxLen → s.pathHas path → walk s.params s.node path = none →
    exec .valueat s = .next { s with err := .invalidPath, engine := .idle }) ∧
  (∀ (s : State) (path : List Bool) (bit : Bool) (sym : Nat), s.Inv → walk s.params s.node path = some sym →
    sym < s.params.alphabet → walk s.params s.node (path ++ [bit]) = none) ∧
  (∀ (s : State) (path : List Bool), s.fatal = false → path.length < s.pathLen.toNat →
    s.pathLen.toNat ≤ s.params.maxLen → s.pathHas path → s.pathBit path.length = none →
    exec .valueat s = .fault (.unwrittenPathBits (path.length / 32)))

/-! ### The encoder -/

/-- 42_encoder.md R153: `emit(c)` writes the length and all the words of the buffer, the codeword first and 0 past it. -/
def Obligations.EmitWritesTheWholeBuffer : Prop :=
  ∀ (s : State) (code : List Bool), s.params.legal → code.length ≤ s.params.maxLen →
    (s.emit code).codeLen.toNat = code.length ∧ (s.emit code).codeBits.length = s.params.codeWords ∧
    (∀ i, i < 32 * s.params.codeWords →
      (s.emit code).codeBit i = if h : i < code.length then code[i] else false) ∧
    s.emit code = { s with codeLen := (s.emit code).codeLen, codeBits := (s.emit code).codeBits }

/-- 42_encoder.md R150 (with R152, R153): ENCODE emits the symbol's codeword under the current tree and writes nothing
else; encoding again gives the same state; ENCODE of the sentinel is EOFCODE; a symbol out of range is InvalidSymbol. -/
def Obligations.EncodeEmitsTheCodeword : Prop :=
  (∀ (w : Word) (sym : Nat), decodeCmd w = .ok (.encode sym) ↔ sym < 65536 ∧ w = BitVec.ofNat 32 (0x30000000 + sym)) ∧
  (∀ (s : State) (sym : Nat), s.Inv → sym < s.params.alphabet → ∃ code t,
    walk s.params s.node code = some sym ∧ 1 ≤ code.length ∧ code.length ≤ s.params.maxLen ∧
    exec (.encode sym) s = .next t ∧
    t = { s with codeLen := t.codeLen, codeBits := t.codeBits, err := .ok, engine := .idle } ∧
    t.codeLen.toNat = code.length ∧ t.codeword = code ∧
    (∀ i, code.length ≤ i → t.codeBit i = false) ∧
    exec (.encode sym) t = .next t) ∧
  (∀ s : State, 0 < s.params.alphabet → exec (.encode s.params.eofSym) s = exec .eofcode s) ∧
  (∀ (s : State) (sym : Nat), s.fatal = false → s.params.alphabet ≤ sym →
    exec (.encode sym) s = .next { s with err := .invalidSymbol, engine := .idle })

/-- 42_encoder.md R151: EOFCODE emits the sentinel's codeword under the same tree, a prefix of no data symbol's codeword and
prefixed by none, and it writes nothing else. -/
def Obligations.EofcodeEmitsTheSentinel : Prop :=
  (∀ w : Word, decodeCmd w = .ok .eofcode ↔ w = 0x40000000#32) ∧
  (∀ s : State, s.Inv → ∃ code t,
    walk s.params s.node code = some s.params.eofSym ∧ 1 ≤ code.length ∧ code.length ≤ s.params.maxLen ∧
    exec .eofcode s = .next t ∧
    t = { s with codeLen := t.codeLen, codeBits := t.codeBits, err := .ok, engine := .idle } ∧
    t.codeLen.toNat = code.length ∧ t.codeword = code ∧ (∀ i, code.length ≤ i → t.codeBit i = false) ∧
    (∀ (sym : Nat) (other : List Bool), sym < s.params.eofSym → walk s.params s.node other = some sym →
      ¬ code <+: other ∧ ¬ other <+: code)) ∧
  (∀ s : State, s.engine = .command → s.hostWaits → s.cmd.toNat / 2 ^ 28 = 4 → s.cmd.toNat % 2 ^ 16 ≠ 0 →
    step s = .next { s with err := .illegalCommand, engine := .idle })

/-! ### The decoder -/

/-- 43_decoder.md R170: every way DECODE ends. Input that begins with a data symbol's codeword gives the symbol, with the
cursor just past it; with the sentinel's, END_OF_STREAM, with the cursor at IN_LEN; input that ends mid-path,
TRUNCATED; a cursor out of range, CursorRange; a bit of an unwritten word, a fault. Nothing else is written. -/
def Obligations.DecodeOutcomes : Prop :=
  (∀ w : Word, decodeCmd w = .ok .decode ↔ w = 0x50000000#32) ∧
  (∀ s : State, s.fatal = false → (s.params.inCap < s.inLen.toNat ∨ s.inLen.toNat < s.inPos.toNat) →
    exec .decode s = .next { s with err := .cursorRange, engine := .idle }) ∧
  (∀ s : State, s.fatal = false → s.inLen.toNat ≤ s.params.inCap → s.inPos = s.inLen →
    exec .decode s = .next { s with err := .truncatedStream, engine := .idle, resultKind := .truncated }) ∧
  (∀ (s : State) (code : List Bool) (sym : Nat), s.Inv → s.inLen.toNat ≤ s.params.inCap →
    s.inPos.toNat + code.length ≤ s.inLen.toNat → s.inputHas s.inPos.toNat code →
    walk s.params s.node code = some sym → sym < s.params.eofSym →
    exec .decode s = .next { s with
      inPos := BitVec.ofNat 32 (s.inPos.toNat + code.length), resultKind := .symbol
      resultSym := BitVec.ofNat 16 sym, err := .ok, engine := .idle }) ∧
  (∀ (s : State) (code : List Bool), s.Inv → s.inLen.toNat ≤ s.params.inCap →
    s.inPos.toNat + code.length ≤ s.inLen.toNat → s.inputHas s.inPos.toNat code →
    walk s.params s.node code = some s.params.eofSym →
    exec .decode s = .next { s with
      inPos := s.inLen, resultKind := .endOfStream, resultSym := BitVec.ofNat 16 s.params.eofSym
      err := .ok, engine := .idle }) ∧
  (∀ (s : State) (path : List Bool) (n : Nat), s.Inv → s.inLen.toNat ≤ s.params.inCap →
    s.inPos.toNat + path.length = s.inLen.toNat → s.inputHas s.inPos.toNat path →
    walk s.params s.node path = some n → s.params.alphabet ≤ n →
    exec .decode s = .next { s with
      inPos := s.inLen, resultKind := .truncated, err := .truncatedStream, engine := .idle }) ∧
  (∀ (s : State) (path : List Bool) (n : Nat), s.Inv → s.inLen.toNat ≤ s.params.inCap →
    s.inPos.toNat + path.length < s.inLen.toNat → s.inputHas s.inPos.toNat path →
    walk s.params s.node path = some n → s.params.alphabet ≤ n → s.inBit (s.inPos.toNat + path.length) = none →
    exec .decode s = .fault (.unwrittenInBits ((s.inPos.toNat + path.length) / 32)))

/-- 43_decoder.md R171: a DECODE that returns a symbol has consumed exactly the symbol's codeword under the current tree,
at most `min(IN_LEN - IN_POS, MAXLEN)` bits; and DECODE always ends. -/
def Obligations.DecodeConsumesOneCodeword : Prop :=
  (∀ s t : State, s.Inv → exec .decode s = .next t → t.err = .ok → t.resultKind = .symbol →
    ∃ code, s.codeOf t.resultSym.toNat = some code ∧ s.inputHas s.inPos.toNat code ∧
      t.inPos.toNat = s.inPos.toNat + code.length ∧
      code.length ≤ min (s.inLen.toNat - s.inPos.toNat) s.params.maxLen) ∧
  (∀ (s : State) (n p : Nat), s.Inv →
    decodeLoop s (s.inLen.toNat - s.inPos.toNat) s.inPos.toNat s.params.root = .leaf n p →
    p - s.inPos.toNat ≤ min (s.inLen.toNat - s.inPos.toNat) s.params.maxLen) ∧
  (∀ s : State, s.Inv →
    decodeLoop s (s.inLen.toNat - s.inPos.toNat) s.inPos.toNat s.params.root = .truncated →
    s.inLen.toNat - s.inPos.toNat ≤ s.params.maxLen) ∧
  (∀ s : State, (∃ t, exec .decode s = .next t) ∨ (∃ j, exec .decode s = .fault (.unwrittenInBits j)))

/-- 43_decoder.md R174: a truncated DECODE keeps no partial path: presenting the input again from the old position, with
more bits, decodes exactly as if the truncated DECODE had not been made. -/
def Obligations.TruncatedKeepsNoPartialPath : Prop :=
  ∀ (s t v : State) (len : Word) (mem : Memory), exec .decode s = .next t → t.err = .truncatedStream →
    exec .decode { s with inLen := len, mem := mem } = .next v → v.err = .ok →
    t.inPos = s.inLen ∧
    exec .decode { t with inPos := s.inPos, inLen := len, mem := mem } = .next v

/-- 43_decoder.md R173: the round trip. Two instances of equal A and EOF_WEIGHT, freshly initialised: what the encoder
protocol of 42_encoder.md R154 makes of a stream of data symbols, DECOBS turns back into the stream, and the next
DECODE reports the end. The two procedures are the model's reading of R78 and R154 (log 19). -/
def Obligations.RoundTripRestoresTheStream : Prop :=
  ∀ (e : State) (syms : List Nat), e.Inv → e.busy = false → e.freq = initialFreq e.params →
    (∀ x ∈ syms, x < e.params.eofSym) → (∀ x ∈ syms, syms.count x < 2 ^ 32 - 1) →
    ∃ bits e', encodeStream syms e = some (bits, e') ∧
      ∀ d : State, d.Inv → d.busy = false → d.params.alphabet = e.params.alphabet →
        d.params.eofWeight = e.params.eofWeight → d.freq = initialFreq d.params → d.inPos = 0#32 →
        d.inLen.toNat = bits.length → bits.length ≤ d.params.inCap → d.inputHas 0 bits →
        ∃ d' d'', decodeSymbols syms.length d = some (syms, d') ∧ issue .decode d' = .next d'' ∧
          d''.resultKind = .endOfStream ∧ d''.inPos.toNat = bits.length

/-- 30_encoding.md R78: ENCOBS leaves the codeword of the tree before it in CODE_LEN and CODE_BITS and counts the symbol;
DECOBS on input that begins with that codeword returns the symbol and counts it. -/
def Obligations.MacrosEncodeAndDecodeThenObserve : Prop :=
  ∀ (s : State) (sym : Nat), s.Inv → s.busy = false → sym < s.params.eofSym → s.countOf sym ≠ 0xFFFFFFFF#32 →
    ∃ code t, s.codeOf sym = some code ∧ encobs sym s = .next t ∧ t.err = .ok ∧ t.codeword = code ∧
      t.freq = s.freq.set sym (s.countOf sym + 1#32) ∧
      (s.inLen.toNat ≤ s.params.inCap → s.inPos.toNat + code.length ≤ s.inLen.toNat →
        s.inputHas s.inPos.toNat code →
        ∃ u, decobs s = .next u ∧ u.err = .ok ∧ u.resultKind = .symbol ∧ u.resultSym.toNat = sym ∧
          u.inPos.toNat = s.inPos.toNat + code.length ∧ u.freq = t.freq ∧ u.node = t.node)

/-! ### Frames -/

/-- What each command leaves unchanged when it goes on (70_reset_and_hazards.md R235, 60_exceptions.md R201): each output
register is written by its own commands only, FREQ and NODE by INIT and OBSERVE only, the input registers by DECODE's
cursor only, and no command writes a byte of PATH_BITS or IN_BITS. -/
def Obligations.CommandFrames : Prop :=
  ∀ (i : Instr) (s t : State), exec i s = .next t →
    t.params = s.params ∧ t.cmd = s.cmd ∧ t.pathLen = s.pathLen ∧ t.inLen = s.inLen ∧
    t.host = s.host ∧ t.reply = s.reply ∧ t.fresh = s.fresh ∧ t.busy = false ∧
    (∀ offset, Memory.readByte t.mem offset = Memory.readByte s.mem offset) ∧
    (i ≠ .decode → t.inPos = s.inPos ∧ t.resultKind = s.resultKind ∧ t.resultSym = s.resultSym) ∧
    ((∀ sym, i ≠ .getcount sym) → t.countOut = s.countOut) ∧
    (i ≠ .eofcode → (∀ sym, i ≠ .encode sym) → t.codeLen = s.codeLen ∧ t.codeBits = s.codeBits) ∧
    (i ≠ .valueat → t.valKey = s.valKey ∧ t.valKind = s.valKind ∧ t.valDepth = s.valDepth ∧
      t.valWeightLo = s.valWeightLo ∧ t.valWeightHi = s.valWeightHi) ∧
    (i ≠ .init → (∀ sym, i ≠ .observe sym) → t.freq = s.freq ∧ t.node = s.node) ∧
    (i = .nop ∨ i = .valueat ∨ (∃ sym, i = .observe sym) ∨ (∃ sym, i = .getcount sym) → t.fatal = s.fatal)

/-! ### The register window -/

/-- 20_memory.md R54 with the map of R53, while BUSY = 0 (while it is 1, R234 speaks): reserved offsets read 0 and ignore
writes, read-only ones ignore writes, a write to CMD stores the word and issues it, a write to an RW register stores
the word and does nothing else, a write to a word of PATH_BITS or IN_BITS changes that word's four bytes alone, and a
read changes nothing of HCC. -/
def Obligations.WindowAccessEffects : Prop :=
  (∀ (s : State) (a : Offset) (v : Word), s.params.legal → s.busy = false → a.toNat % 4 = 0 →
    (a.toNat = 0x000 → hostAccess (.write 4 a v) s = .next { s with cmd := v, engine := .command }) ∧
    (a.toNat = 0x018 → hostAccess (.write 4 a v) s = .next { s with pathLen := v }) ∧
    (a.toNat = 0x01C → hostAccess (.write 4 a v) s = .next { s with inLen := v }) ∧
    (a.toNat = 0x020 → hostAccess (.write 4 a v) s = .next { s with inPos := v }) ∧
    (inBuffers s.params a.toNat → ∃ t, hostAccess (.write 4 a v) s = .next t ∧ t = { s with mem := t.mem } ∧
      Memory.readWord t.mem a.toNat = some v ∧
      ∀ offset, (offset < a.toNat ∨ a.toNat + 4 ≤ offset) →
        Memory.readByte t.mem offset = Memory.readByte s.mem offset) ∧
    (a.toNat ∉ [0x000, 0x018, 0x01C, 0x020] → ¬ inBuffers s.params a.toNat →
      hostAccess (.write 4 a v) s = .next s)) ∧
  (∀ (s : State) (a : Offset), s.params.legal → s.busy = false → a.toNat % 4 = 0 → 0x48 ≤ a.toNat →
    ¬ inBuffers s.params a.toNat →
    ¬ (codeBase ≤ a.toNat ∧ a.toNat < codeBase + 4 * s.params.codeWords) →
    hostAccess (.read 4 a) s = .next { s with reply := some 0x00000000#32 }) ∧
  (∀ (s : State) (a : Offset), a.toNat % 4 = 0 → ∃ t, hostAccess (.read 4 a) s = .next t ∧ s.sameHcc t)

/-- 10_state.md R21–R32: the offset of each register, and with BUSY = 0 a read of it returns its value, reserved bits 0,
with the codes of ERR (60_exceptions.md R200), RESULT_KIND and VAL_KIND spelled out. -/
def Obligations.RegisterReadsReturnTheFields : Prop :=
  ∀ (s : State), s.busy = false →
    (∀ r : Register, ∃ t w, hostAccess (.read 4 r.offset) s = .next t ∧ t = { s with reply := some w } ∧
      w.toNat = match r with
        | .cmd => s.cmd.toNat
        | .status =>
          (match s.err with
            | .ok => 0
            | .invalidSymbol => 1
            | .notFound => 2
            | .invalidPath => 3
            | .truncatedStream => 4
            | .illegalCommand => 5
            | .countOverflow => 6
            | .cursorRange => 7
            | .eofNotObservable => 8
            | .faulted => 9) + 512 * s.fatal.toNat
        | .resultKind =>
          (match s.resultKind with
            | .none => 0
            | .symbol => 1
            | .endOfStream => 2
            | .truncated => 3)
        | .resultSym => s.resultSym.toNat
        | .countOut => s.countOut.toNat
        | .codeLen => s.codeLen.toNat
        | .pathLen => s.pathLen.toNat
        | .inLen => s.inLen.toNat
        | .inPos => s.inPos.toNat
        | .valKey => s.valKey.toNat
        | .valKind =>
          (match s.valKind with
            | .none => 0
            | .leaf => 1
            | .internal => 2)
        | .valDepth => s.valDepth.toNat
        | .valWeightLo => s.valWeightLo.toNat
        | .valWeightHi => s.valWeightHi.toNat
        | .paramA => s.params.alphabet % 2 ^ 32
        | .paramEofWeight => s.params.eofWeight % 2 ^ 32
        | .paramCw => 32
        | .paramInCap => s.params.inCap % 2 ^ 32) ∧
    (∀ r r' : Register, r.offset = r'.offset → r = r') ∧
    (∀ r : Register, r.offset.toNat = match r with
        | .cmd => 0x000
        | .status => 0x004
        | .resultKind => 0x008
        | .resultSym => 0x00C
        | .countOut => 0x010
        | .codeLen => 0x014
        | .pathLen => 0x018
        | .inLen => 0x01C
        | .inPos => 0x020
        | .valKey => 0x024
        | .valKind => 0x028
        | .valDepth => 0x02C
        | .valWeightLo => 0x030
        | .valWeightHi => 0x034
        | .paramA => 0x038
        | .paramEofWeight => 0x03C
        | .paramCw => 0x040
        | .paramInCap => 0x044)

/-- 20_memory.md R56: with BUSY = 0 a read returns the value of the latest write, for PATH_LEN, IN_LEN, IN_POS and the
buffer words; CMD, which a write also sets running, reads the last word written, legal or not, once the command has
ended (10_state.md R22); a CODE_BITS word reads the codeword buffer. -/
def Obligations.ReadReturnsTheLatestWrite : Prop :=
  (∀ (s : State) (a : Offset) (v : Word), s.params.legal → s.busy = false → a.toNat % 4 = 0 →
    a.toNat ∈ [0x018, 0x01C, 0x020] ∨ inBuffers s.params a.toNat →
    ∃ t u, hostAccess (.write 4 a v) s = .next t ∧ hostAccess (.read 4 a) t = .next u ∧ u.reply = some v) ∧
  (∀ (s : State) (j : Nat), s.params.legal → s.busy = false → j < s.params.codeWords →
    s.codeBits.length = s.params.codeWords →
    ∃ u w, hostAccess (.read 4 (BitVec.ofNat 18 (codeBase + 4 * j))) s = .next u ∧ u.reply = some w ∧
      ∀ k < 32, w.getLsbD k = s.codeBit (32 * j + k)) ∧
  (∀ (s : State) (w : Word), s.busy = false → s.hostWaits →
    ∃ t, hostAccess (.write 4 0x000#18 w) s = .next t ∧ (illegalWord w → ∃ u, step t = .next u) ∧
      ∀ u, step t = .next u → u.busy = false ∧
        ∃ v, hostAccess (.read 4 0x000#18) u = .next v ∧ v.reply = some w)

/-- 20_memory.md R51: stream bit `i` of a buffer is bit `i mod 32` of word `i div 32`, and bit `i mod 8` of byte
`i div 8`. -/
def Obligations.StreamBitOrder : Prop :=
  (∀ (m : Memory) (base j : Nat) (v : Word), base % 4 = 0 →
    (∀ k < 32, bufferBit (Memory.writeWord m (base + 4 * j) v) base (32 * j + k) = some (v.getLsbD k)) ∧
    (∀ k < 32, ∃ b, Memory.readByte (Memory.writeWord m (base + 4 * j) v) (base + (32 * j + k) / 8) = some b ∧
      b.getLsbD ((32 * j + k) % 8) = v.getLsbD k) ∧
    (∀ i, i / 32 ≠ j → bufferBit (Memory.writeWord m (base + 4 * j) v) base i = bufferBit m base i)) ∧
  (∀ (words : Nat) (code : List Bool) (i : Nat), i < 32 * words → i < code.length →
    ∃ w, (packWords words code)[i / 32]? = some w ∧ some (w.getLsbD (i % 32)) = code[i]?)

/-- 20_memory.md R52: an access that is not one 32-bit word at a multiple of 4 has no meaning, read or write. -/
def Obligations.UnalignedAccessIsRefused : Prop :=
  ∀ (s : State) (bytes : Nat) (a : Offset) (v : Word), bytes ≠ 4 ∨ a.toNat % 4 ≠ 0 →
    hostAccess (.read bytes a) s = .refused .accessNotAlignedWord ∧
    hostAccess (.write bytes a v) s = .refused .accessNotAlignedWord

/-- 70_reset_and_hazards.md R234: while BUSY = 1 every write is refused; a read of STATUS returns BUSY = 1 and FATAL, with
ERR unspecified; the PARAM constants read as ever; every other read returns the free value drawn for it (log 5); and no
read changes HCC. That reserved offsets are among those other reads is the model's reading of
93_implementation_defined.md U2 (log 20). -/
def Obligations.BusyHazard : Prop :=
  ∀ (s : State), s.busy = true →
    (∀ (a : Offset) (v : Word), a.toNat % 4 = 0 → hostAccess (.write 4 a v) s = .refused .writeWhileBusy) ∧
    (∃ t w, hostAccess (.read 4 0x004#18) s = .next t ∧ t.reply = some w ∧ w.getLsbD 8 = true ∧
      w.getLsbD 9 = s.fatal ∧ w.extractLsb' 4 4 = 0#4 ∧ w.extractLsb' 10 22 = 0#22) ∧
    (∃ t, hostAccess (.read 4 0x038#18) s = .next t ∧ t.reply = some (BitVec.ofNat 32 s.params.alphabet)) ∧
    (∃ t, hostAccess (.read 4 0x03C#18) s = .next t ∧ t.reply = some (BitVec.ofNat 32 s.params.eofWeight)) ∧
    (∃ t, hostAccess (.read 4 0x040#18) s = .next t ∧ t.reply = some 32#32) ∧
    (∃ t, hostAccess (.read 4 0x044#18) s = .next t ∧ t.reply = some (BitVec.ofNat 32 s.params.inCap)) ∧
    (∀ a : Offset, a.toNat % 4 = 0 → a.toNat ∉ [0x004, 0x038, 0x03C, 0x040, 0x044] →
      hostAccess (.read 4 a) s = .next { s with reply := some (Config.freeWord s.fresh), fresh := s.fresh + 1 }) ∧
    (∀ a : Offset, a.toNat % 4 = 0 → ∃ t, hostAccess (.read 4 a) s = .next t ∧ s.sameHcc t)

/-- A free value is any word: an unspecified host read returns the free value drawn for it and draws the next
(93_implementation_defined.md U2, U3; log 5: the counter is the model's). -/
def Obligations.UnwrittenWordReadsAreFree : Prop :=
  ∀ (s : State) (a : Offset), s.params.legal → s.busy = false → a.toNat % 4 = 0 → inBuffers s.params a.toNat →
    (Memory.readWord s.mem a.toNat = none →
      hostAccess (.read 4 a) s = .next { s with reply := some (Config.freeWord s.fresh), fresh := s.fresh + 1 }) ∧
    (∀ w, Memory.readWord s.mem a.toNat = some w → hostAccess (.read 4 a) s = .next { s with reply := some w })

/-! ### Several instances -/

/-- 60_exceptions.md R215 with 20_memory.md R53 and R56: instances at bases of their own share nothing. A step, a reset and
a host access at an address of an instance's window change that instance alone, as its own state says; a write to an
instance that is busy is refused, whichever host makes it; and what an instance is after any moves does not depend on
the other instances. The model's choices here: an access at an address in no window changes nothing (log 13), a reset
is one host step (log 9, log 21), and the moves are a list (log 22). -/
def Obligations.InstancesShareNothing : Prop :=
  (∀ (sys : Platform) (k : Nat) (x : PlacedHcc) (t : State), sys[k]? = some x → step x.state = .next t →
    platformStep (.step k) sys = .next (sys.set k { x with state := t })) ∧
  (∀ (sys : Platform) (k : Nat) (x : PlacedHcc), sys[k]? = some x →
    platformStep (.reset k) sys = .next (sys.set k { x with state := x.state.assertReset })) ∧
  (∀ (sys : Platform) (k bytes : Nat) (x : PlacedHcc) (offset : Offset) (v : Word) (t : State), sys.apart →
    sys[k]? = some x →
    (hostAccess (.read bytes offset) x.state = .next t →
      platformStep (.read bytes (x.address offset)) sys = .next (sys.set k { x with state := t })) ∧
    (hostAccess (.write bytes offset v) x.state = .next t →
      platformStep (.write bytes (x.address offset) v) sys = .next (sys.set k { x with state := t })) ∧
    (x.state.busy = true → offset.toNat % 4 = 0 →
      platformStep (.write 4 (x.address offset) v) sys = .refused .writeWhileBusy)) ∧
  (∀ (sys : Platform) (bytes address : Nat) (v : Word),
    (∀ x ∈ sys, address < x.base ∨ x.base + 2 ^ 18 ≤ address) →
    platformStep (.read bytes address) sys = .next sys ∧ platformStep (.write bytes address v) sys = .next sys) ∧
  (∀ (moves : List PlatformMove) (a b a' b' : Platform) (k : Nat),
    a.map PlacedHcc.base = b.map PlacedHcc.base → a[k]? = b[k]? →
    platformRun moves a = .next a' → platformRun moves b = .next b' → a'[k]? = b'[k]?)

/-! ### Reset and the invariant -/

/-- 70_reset_and_hazards.md R231: the reset value of every piece of state. The model's choices here: State.reset is the
state once the build has run (log 10), and BUSY = 1 from the reset step itself (log 21). -/
def Obligations.ResetValues : Prop :=
  (∀ p : Params, (State.resetOf p).params = p ∧ (State.resetOf p).cmd = 0#32 ∧ (State.resetOf p).err = .ok ∧
    (State.resetOf p).busy = false ∧ (State.resetOf p).fatal = false ∧ (State.resetOf p).resultKind = .none ∧
    (State.resetOf p).resultSym = 0#16 ∧ (State.resetOf p).countOut = 0#32 ∧ (State.resetOf p).codeLen = 0#16 ∧
    (State.resetOf p).pathLen = 0#32 ∧ (State.resetOf p).inLen = 0#32 ∧ (State.resetOf p).inPos = 0#32 ∧
    (State.resetOf p).valKey = 0#32 ∧ (State.resetOf p).valKind = .none ∧ (State.resetOf p).valDepth = 0#16 ∧
    (State.resetOf p).valWeightLo = 0#32 ∧ (State.resetOf p).valWeightHi = 0#16 ∧
    (∀ i, (State.resetOf p).codeBit i = false) ∧
    (∀ i, (State.resetOf p).pathBit i = none) ∧ (∀ i, (State.resetOf p).inBit i = none) ∧
    (∀ sym < p.eofSym, (State.resetOf p).countOf sym = 0#32) ∧
    (State.resetOf p).countOf p.eofSym = BitVec.ofNat 32 p.eofWeight ∧
    (State.resetOf p).node = buildTree (State.resetOf p).freq ∧
    (State.resetOf p).readRegister .status = 0#32 ∧
    (State.resetOf p).readRegister .paramA = BitVec.ofNat 32 p.alphabet ∧
    (State.resetOf p).readRegister .paramEofWeight = BitVec.ofNat 32 p.eofWeight ∧
    (State.resetOf p).readRegister .paramCw = 32#32 ∧
    (State.resetOf p).readRegister .paramInCap = BitVec.ofNat 32 p.inCap) ∧
  State.reset = State.resetOf { alphabet := 257, eofWeight := 1, inCap := 65536 } ∧
  (∀ s : State, ∃ t, hostAccess .reset s = .next t ∧ t.busy = true ∧
    (t.hostWaits → ∃ u, step t = .next u ∧ u.busy = false))

/-- 70_reset_and_hazards.md R230, R232: reset, at any time and whatever is in flight, is followed by the reset build with
BUSY = 1, after which the instance is in its reset state. The model's choices here: what is pending on the bus stays
(log 9, log 12), and BUSY = 1 right after the reset step, with no interval in which reset is held (log 21). -/
def Obligations.ResetBuildReachesTheResetState : Prop :=
  ∀ s : State, ∃ t, hostAccess .reset s = .next t ∧ t.busy = true ∧ t.fatal = false ∧ t.cmd = 0#32 ∧
    t.params = s.params ∧
    (t.hostWaits → step t = .next { State.resetOf s.params with
      host := s.host, reply := s.reply, fresh := s.fresh })

/-- The invariant holds at reset, for every legal configuration. -/
def Obligations.ResetMeetsTheInvariant : Prop := ∀ p : Params, p.legal → (State.resetOf p).Inv

/-- Every step keeps the invariant: NODE = BuildTree(FREQ) (10_state.md R38), FATAL stays 0 (60_exceptions.md R203), the EOF
entry is fixed (40_frequency.md R105), every symbol has an entry (10_state.md R33), the buffers keep their form. -/
def Obligations.StepKeepsTheInvariant : Prop := ∀ s t : State, s.Inv → step s = .next t → t.Inv
end

