-- ==== Sys2Proof/Laws/Bits.lean ====
section
/-! SUPPORT. Packing a bit sequence into words and reading it back (20_memory.md R51, 42_encoder.md R153). -/

namespace Sys2Proof.Machine

theorem testBit_natOfBits (bits : List Bool) (i : Nat) : (natOfBits bits).testBit i = bits.getD i false := by
  induction bits generalizing i with
  | nil => simp [natOfBits]
  | cons b bits ih =>
    cases i with
    | zero => cases b <;> simp [natOfBits, Nat.testBit_zero]
    | succ i =>
      have : (natOfBits (b :: bits)) / 2 = natOfBits bits := by
        cases b <;> (simp [natOfBits]; try omega)
      simp [Nat.testBit_succ, this, ih]

/-- Bit `k` of word `j` is bit `32j + k` of the sequence, 0 past its end. -/
theorem packWord_getLsbD (code : List Bool) (j : Nat) {k : Nat} (hk : k < 32) :
    (packWord code j).getLsbD k = code.getD (32 * j + k) false := by
  simp only [packWord, BitVec.getLsbD_ofNat, testBit_natOfBits, hk, decide_true, Bool.true_and]
  simp [List.getD, hk, List.getElem?_drop]

/-- `CODE_BITS` after `emit(c)` (42_encoder.md R153). -/
theorem State.codeBit_emit (s : State) (code : List Bool) {i : Nat} (hi : i < 32 * s.params.codeWords) :
    (s.emit code).codeBit i = code.getD i false := by
  have hj : i / 32 < s.params.codeWords := by omega
  simp only [State.codeBit, State.emit, packWords]
  rw [List.getD, List.getElem?_map, List.getElem?_range hj]
  simp only [Option.map_some, Option.getD_some]
  rw [packWord_getLsbD code _ (Nat.mod_lt _ (by omega)), Nat.div_add_mod]

/-- The codeword buffer has room for `MAXLEN` bits (10_state.md R36). -/
theorem maxLen_le_codeWords (p : Params) : p.maxLen ≤ 32 * p.codeWords := by
  simp only [Params.codeWords]; omega

/-- What was emitted is the codeword the buffer holds. -/
theorem State.codeword_emit (s : State) {code : List Bool} (fits : code.length ≤ s.params.maxLen)
    (small : s.params.alphabet ≤ 65536) : (s.emit code).codeword = code := by
  have hlen : (s.emit code).codeLen.toNat = code.length := by
    simp only [State.emit, BitVec.toNat_ofNat]
    apply Nat.mod_eq_of_lt
    simp only [Params.maxLen] at fits
    omega
  have hroom := maxLen_le_codeWords s.params
  apply List.ext_getElem
  · simp [State.codeword, hlen]
  · intro i h1 h2
    simp only [State.codeword, List.getElem_map, List.getElem_range]
    rw [s.codeBit_emit code (by omega)]
    simp [List.getD, h2]

end Sys2Proof.Machine
end

