-- ==== Sys2Proof/Laws/Tree.lean ====
section
/-! SUPPORT. What the comparator, the selection of the least forest member, the merge and `BuildTree` do
(41_tree.md R122–R125, R134, R135). The tree memory is shown to store one code tree. -/

namespace Sys2Proof.Machine

/-! ### The comparator -/

/-- The comparator is the lexicographic order of weight, depth and index (41_tree.md R123). -/
theorem precedes_iff (a b : Member) :
    precedes a b = true ↔
      a.node.weight.toNat < b.node.weight.toNat ∨
        (a.node.weight.toNat = b.node.weight.toNat ∧
          (a.node.depth.toNat < b.node.depth.toNat ∨
            (a.node.depth.toNat = b.node.depth.toNat ∧ a.index < b.index))) := by
  simp [precedes, Nat.blt_eq, Nat.beq_eq]

theorem precedes_false_iff (a b : Member) :
    precedes a b = false ↔ ¬ (a.node.weight.toNat < b.node.weight.toNat ∨
        (a.node.weight.toNat = b.node.weight.toNat ∧
          (a.node.depth.toNat < b.node.depth.toNat ∨
            (a.node.depth.toNat = b.node.depth.toNat ∧ a.index < b.index)))) := by
  rw [← precedes_iff, Bool.not_eq_true]

/-! ### The least member -/

theorem takeLeast_eq_none {forest : List Member} : takeLeast forest = none ↔ forest = [] := by
  cases forest with
  | nil => simp [takeLeast]
  | cons m f =>
    simp only [takeLeast, reduceCtorEq, iff_false]
    cases takeLeast f with
    | none => simp
    | some x =>
      obtain ⟨least, rest⟩ := x
      simp only
      split <;> simp

/-- Selection takes one member out and keeps the others. -/
theorem takeLeast_perm {forest rest : List Member} {m : Member}
    (h : takeLeast forest = some (m, rest)) : forest.Perm (m :: rest) := by
  induction forest generalizing m rest with
  | nil => simp [takeLeast] at h
  | cons x f ih =>
    rw [takeLeast] at h
    cases hf : takeLeast f with
    | none =>
      rw [hf] at h
      obtain ⟨rfl, rfl⟩ := by simpa using h
      rw [takeLeast_eq_none.mp hf]
    | some y =>
      obtain ⟨least, r⟩ := y
      have hp := ih hf
      rw [hf] at h
      simp only at h
      split at h
      · obtain ⟨rfl, rfl⟩ := by simpa using h
        exact hp.cons _
      · obtain ⟨rfl, rfl⟩ := by simpa using h
        exact (hp.cons _).trans (List.Perm.swap ..)

theorem takeLeast_length {forest rest : List Member} {m : Member}
    (h : takeLeast forest = some (m, rest)) : forest.length = rest.length + 1 := by
  simpa using (takeLeast_perm h).length_eq

/-- No member left is `≺` the selected one. -/
theorem takeLeast_least {forest rest : List Member} {m : Member}
    (h : takeLeast forest = some (m, rest)) : ∀ x ∈ rest, precedes x m = false := by
  induction forest generalizing m rest with
  | nil => simp [takeLeast] at h
  | cons x f ih =>
    rw [takeLeast] at h
    cases hf : takeLeast f with
    | none =>
      rw [hf] at h
      obtain ⟨rfl, rfl⟩ := by simpa using h
      simp
    | some y =>
      obtain ⟨least, r⟩ := y
      have hp := ih hf
      rw [hf] at h
      simp only at h
      split at h
      case isTrue hlt =>
        obtain ⟨rfl, rfl⟩ := by simpa using h
        have hlt' := (precedes_iff _ _).mp hlt
        intro z hz
        rcases List.mem_cons.mp hz with rfl | hz
        · rw [precedes_false_iff]; omega
        · have := (precedes_false_iff _ _).mp (hp z hz)
          rw [precedes_false_iff]; omega
      case isFalse hlt =>
        obtain ⟨rfl, rfl⟩ := by simpa using h
        intro z hz
        rcases List.mem_cons.mp hz with rfl | hz
        · simpa using hlt
        · exact hp z hz

/-! ### Code trees -/

/-- A code tree, each node with its index in the tree memory. -/
inductive CodeTree where
  | leaf (n : Nat)
  | node (n : Nat) (left right : CodeTree)

namespace CodeTree

/-- The index of the root. -/
def root : CodeTree → Nat
  | leaf n => n
  | node n _ _ => n

/-- The leaves' symbols, left to right. -/
def leaves : CodeTree → List Nat
  | leaf n => [n]
  | node _ l r => l.leaves ++ r.leaves

/-- Every node's index. -/
def indices : CodeTree → List Nat
  | leaf n => [n]
  | node n l r => n :: (l.indices ++ r.indices)

/-- The length of the longest path down to a leaf. -/
def height : CodeTree → Nat
  | leaf _ => 0
  | node _ l r => max l.height r.height + 1

/-- The sum of the leaves' counts. -/
def total (freq : List Count) : CodeTree → Nat
  | leaf n => (freq.getD n 0#32).toNat
  | node _ l r => l.total freq + r.total freq

/-- The subtree at the end of a bit sequence. -/
def sub : CodeTree → List Bool → Option CodeTree
  | t, [] => some t
  | leaf _, _ :: _ => none
  | node _ l r, bit :: path => if bit then r.sub path else l.sub path

/-- Depth first search for a leaf, the left subtree first. -/
def find (sym : Nat) : CodeTree → Option (List Bool)
  | leaf n => if n = sym then some [] else none
  | node _ l r =>
    match l.find sym with
    | some p => some (false :: p)
    | none => (r.find sym).map (true :: ·)

/-- The tree memory stores this tree: each record has the kind, the weight and the depth that the tree gives its
node, children stand below their parent, and the left child precedes the right one. -/
def Stored (freq : List Count) (nodes : List Node) : CodeTree → Prop
  | leaf n => n < freq.length ∧ nodes[n]? = some (leafNode (freq.getD n 0#32))
  | node n l r =>
    (freq.length ≤ n ∧ l.root < n ∧ r.root < n ∧
      ∃ nl nr nd, nodes[l.root]? = some nl ∧ nodes[r.root]? = some nr ∧ nodes[n]? = some nd ∧
        nd = mergeNode ⟨l.root, nl⟩ ⟨r.root, nr⟩ ∧ precedes ⟨l.root, nl⟩ ⟨r.root, nr⟩ = true) ∧
      l.Stored freq nodes ∧ r.Stored freq nodes

theorem root_leaf (n : Nat) : (leaf n).root = n := rfl

theorem root_node (n : Nat) (l r : CodeTree) : (node n l r).root = n := rfl

theorem root_mem_indices (t : CodeTree) : t.root ∈ t.indices := by cases t <;> simp [root, indices]

theorem leaves_subset_indices (t : CodeTree) : t.leaves ⊆ t.indices := by
  induction t with
  | leaf n => simp [leaves, indices]
  | node n l r ihl ihr =>
    intro x hx
    simp only [leaves, List.mem_append] at hx
    simp only [indices, List.mem_cons, List.mem_append]
    rcases hx with hx | hx
    · exact .inr (.inl (ihl hx))
    · exact .inr (.inr (ihr hx))

theorem leaves_length_pos (t : CodeTree) : 0 < t.leaves.length := by
  induction t with
  | leaf n => simp [leaves]
  | node n l r ihl ihr => simp [leaves]; omega

theorem height_lt_leaves (t : CodeTree) : t.height < t.leaves.length := by
  induction t with
  | leaf n => simp [leaves, height]
  | node n l r ihl ihr => simp only [leaves, height, List.length_append]; omega

theorem total_lt (freq : List Count) (t : CodeTree) : t.total freq < t.leaves.length * 2 ^ 32 := by
  induction t with
  | leaf n => simp only [leaves, total, List.length_singleton]; omega
  | node n l r ihl ihr => simp only [leaves, total, List.length_append]; omega

theorem Stored.append {freq : List Count} {nodes : List Node} (more : List Node) {t : CodeTree}
    (h : t.Stored freq nodes) : t.Stored freq (nodes ++ more) := by
  have get : ∀ {n : Nat} {r : Node}, nodes[n]? = some r → (nodes ++ more)[n]? = some r := by
    intro n r hr
    obtain ⟨hn, -⟩ := List.getElem?_eq_some_iff.mp hr
    rw [List.getElem?_append_left hn, hr]
  induction t with
  | leaf n => exact ⟨h.1, get h.2⟩
  | node n l r ihl ihr =>
    obtain ⟨⟨h1, h2, h3, nl, nr, nd, h4, h5, h6, h7, h8⟩, hl, hr⟩ := h
    exact ⟨⟨h1, h2, h3, nl, nr, nd, get h4, get h5, get h6, h7, h8⟩, ihl hl, ihr hr⟩

/-- The stored weight and depth are exact: the sum of the leaves' counts and the height (41_tree.md R134, R135). -/
theorem Stored.record {freq : List Count} {nodes : List Node} {t : CodeTree}
    (h : t.Stored freq nodes) (small : t.leaves.length ≤ 65536) :
    ∃ r, nodes[t.root]? = some r ∧ r.weight.toNat = t.total freq ∧ r.depth.toNat = t.height := by
  induction t with
  | leaf n =>
    refine ⟨_, h.2, ?_, ?_⟩
    · simp [leafNode, total]
      omega
    · simp [leafNode, height]
  | node n l r ihl ihr =>
    obtain ⟨⟨-, -, -, nl, nr, nd, h4, h5, h6, rfl, -⟩, hl, hr⟩ := h
    have hsum : (node n l r).leaves.length = l.leaves.length + r.leaves.length := by simp [leaves]
    obtain ⟨_, el, wl, dl⟩ := ihl hl (by omega)
    obtain ⟨_, er, wr, dr⟩ := ihr hr (by omega)
    obtain rfl := Option.some.inj (h4.symm.trans el)
    obtain rfl := Option.some.inj (h5.symm.trans er)
    refine ⟨_, h6, ?_, ?_⟩
    · have := total_lt freq (node n l r)
      simp only [total] at *
      simp only [mergeNode, BitVec.toNat_add, wl, wr]
      apply Nat.mod_eq_of_lt
      omega
    · have := height_lt_leaves (node n l r)
      simp only [height] at *
      simp only [mergeNode, BitVec.toNat_ofNat, dl, dr]
      apply Nat.mod_eq_of_lt
      omega

/-- A child of a stored node. -/
theorem Stored.childOf {freq : List Count} {nodes : List Node} {n : Nat} {l r : CodeTree}
    (h : (node n l r).Stored freq nodes) (bit : Bool) :
    Machine.childOf nodes n bit = some (if bit then r.root else l.root) := by
  obtain ⟨⟨-, -, -, nl, nr, nd, -, -, h6, rfl, -⟩, -, -⟩ := h
  simp [Machine.childOf, h6, mergeNode]

theorem Stored.childOf_leaf {freq : List Count} {nodes : List Node} {n : Nat}
    (h : (leaf n).Stored freq nodes) (bit : Bool) : Machine.childOf nodes n bit = none := by
  simp [Machine.childOf, h.2, leafNode]

/-- A subtree of a stored tree is stored. -/
theorem Stored.sub {freq : List Count} {nodes : List Node} {t u : CodeTree} {path : List Bool}
    (h : t.Stored freq nodes) (hu : t.sub path = some u) : u.Stored freq nodes := by
  induction path generalizing t with
  | nil => rw [CodeTree.sub] at hu; exact Option.some.inj hu ▸ h
  | cons bit path ih =>
    cases t with
    | leaf n => simp [CodeTree.sub] at hu
    | node n l r =>
      simp only [CodeTree.sub] at hu
      split at hu
      · exact ih h.2.2 hu
      · exact ih h.2.1 hu

/-- Walking the tree memory is walking the tree (41_tree.md R130). -/
theorem Stored.walkFrom {freq : List Count} {nodes : List Node} {t : CodeTree}
    (h : t.Stored freq nodes) (path : List Bool) :
    Machine.walkFrom nodes t.root path = (t.sub path).map root := by
  induction path generalizing t with
  | nil => simp [Machine.walkFrom, CodeTree.sub]
  | cons bit path ih =>
    cases t with
    | leaf n => simp [Machine.walkFrom, CodeTree.sub, root, h.childOf_leaf]
    | node n l r =>
      simp only [Machine.walkFrom, CodeTree.sub, root, h.childOf]
      cases bit with
      | false => exact ih h.2.1
      | true => exact ih h.2.2

/-- The search of the tree memory is the search of the tree (41_tree.md R128), given levels enough. -/
theorem Stored.search {freq : List Count} {nodes : List Node} {t : CodeTree} {levels : Nat}
    (h : t.Stored freq nodes) (deep : t.height < levels) (sym : Nat) :
    Machine.search nodes sym levels t.root = t.find sym := by
  induction t generalizing levels with
  | leaf n =>
    cases levels with
    | zero => omega
    | succ k => simp only [Machine.search, CodeTree.find, root_leaf, h.2, leafNode]; rfl
  | node n l r ihl ihr =>
    cases levels with
    | zero => omega
    | succ k =>
      simp only [height] at deep
      have hl := ihl h.2.1 (levels := k) (by omega)
      have hr := ihr h.2.2 (levels := k) (by omega)
      obtain ⟨⟨-, -, -, nl, nr, nd, -, -, h6, rfl, -⟩, -, -⟩ := h
      simp only [Machine.search, CodeTree.find, root_node, h6, mergeNode, hl, hr]
      try rfl

/-! ### Paths in a tree -/

theorem sub_append (t : CodeTree) (p q : List Bool) : t.sub (p ++ q) = (t.sub p).bind (·.sub q) := by
  induction p generalizing t with
  | nil => simp [CodeTree.sub]
  | cons bit p ih =>
    cases t with
    | leaf n => simp [CodeTree.sub]
    | node n l r => simp only [List.cons_append, CodeTree.sub]; split <;> exact ih _

theorem sub_length_le {t u : CodeTree} {p : List Bool} (h : t.sub p = some u) : p.length + u.height ≤ t.height := by
  induction p generalizing t with
  | nil => simp only [CodeTree.sub, Option.some.injEq] at h; simp [h]
  | cons bit p ih =>
    cases t with
    | leaf n => simp [CodeTree.sub] at h
    | node n l r =>
      simp only [CodeTree.sub] at h
      simp only [List.length_cons, height]
      split at h <;> have := ih h <;> omega

theorem sub_root_mem {t u : CodeTree} {p : List Bool} (h : t.sub p = some u) : u.root ∈ t.indices := by
  induction p generalizing t with
  | nil => simp only [CodeTree.sub, Option.some.injEq] at h; exact h ▸ root_mem_indices t
  | cons bit p ih =>
    cases t with
    | leaf n => simp [CodeTree.sub] at h
    | node n l r =>
      simp only [CodeTree.sub] at h
      simp only [indices, List.mem_cons, List.mem_append]
      split at h
      · exact .inr (.inr (ih h))
      · exact .inr (.inl (ih h))

theorem mem_leaves_of_sub {t : CodeTree} {p : List Bool} {s : Nat} (h : t.sub p = some (leaf s)) : s ∈ t.leaves := by
  induction p generalizing t with
  | nil => simp only [CodeTree.sub, Option.some.injEq] at h; simp [h, leaves]
  | cons bit p ih =>
    cases t with
    | leaf n => simp [CodeTree.sub] at h
    | node n l r =>
      simp only [CodeTree.sub] at h
      simp only [leaves, List.mem_append]
      split at h
      · exact .inr (ih h)
      · exact .inl (ih h)

theorem find_none {t : CodeTree} {s : Nat} (h : t.find s = none) : s ∉ t.leaves := by
  induction t with
  | leaf n => simp [find] at h; simp [leaves]; omega
  | node n l r ihl ihr =>
    simp only [find] at h
    cases hl : l.find s with
    | some p => simp [hl] at h
    | none =>
      simp only [hl, Option.map_eq_none_iff] at h
      simp only [leaves, List.mem_append, not_or]
      exact ⟨ihl hl, ihr h⟩

/-- What the search finds leads to the leaf. -/
theorem sub_of_find {t : CodeTree} {s : Nat} {p : List Bool} (h : t.find s = some p) : t.sub p = some (leaf s) := by
  induction t generalizing p with
  | leaf n =>
    simp only [find] at h
    split at h
    · obtain rfl := Option.some.inj h; subst_vars; simp [CodeTree.sub]
    · simp at h
  | node n l r ihl ihr =>
    simp only [find] at h
    cases hl : l.find s with
    | some q =>
      simp only [hl, Option.some.injEq] at h
      subst h
      simpa [CodeTree.sub] using ihl hl
    | none =>
      simp only [hl, Option.map_eq_some_iff] at h
      obtain ⟨q, hq, rfl⟩ := h
      simpa [CodeTree.sub] using ihr hq

/-- With no symbol twice, the path to a leaf is unique and is what the search finds (41_tree.md R128). -/
theorem find_of_sub {t : CodeTree} {s : Nat} {p : List Bool} (nodup : t.leaves.Nodup)
    (h : t.sub p = some (leaf s)) : t.find s = some p := by
  induction t generalizing p with
  | leaf n =>
    cases p with
    | nil => simp only [CodeTree.sub, Option.some.injEq, leaf.injEq] at h; simp [find, h]
    | cons bit p => simp [CodeTree.sub] at h
  | node n l r ihl ihr =>
    simp only [leaves, List.nodup_append] at nodup
    obtain ⟨nl, nr, disj⟩ := nodup
    cases p with
    | nil => simp [CodeTree.sub] at h
    | cons bit p =>
      simp only [CodeTree.sub] at h
      cases bit with
      | false => simp [find, ihl nl h]
      | true =>
        have hr := ihr nr h
        have : l.find s = none := by
          cases hl : l.find s with
          | none => rfl
          | some q => exact absurd rfl (disj _ (mem_leaves_of_sub (sub_of_find hl)) _ (mem_leaves_of_sub h))
        simp [find, this, hr]

end CodeTree
end Sys2Proof.Machine
end

