-- ==== Sys2Proof/Laws/BuildTree.lean ====
section
/-! SUPPORT. The tree memory that `BuildTree` makes stores one full code tree over all symbols, rooted at `ROOT`
(41_tree.md R121, R122, R125). Later proofs cite `buildTree_spec` and never unfold the merge. -/

namespace Sys2Proof.Machine

/-- A forest whose members carry their trees. -/
abbrev Grove := List (Member × CodeTree)

/-- Selecting a member selects its tree. -/
theorem takeLeast_grove {grove : Grove} {m : Member} {rest : List Member}
    (h : takeLeast (grove.map Prod.fst) = some (m, rest)) :
    ∃ t g, rest = g.map Prod.fst ∧ grove.Perm ((m, t) :: g) := by
  induction grove generalizing m rest with
  | nil => simp [takeLeast] at h
  | cons x f ih =>
    obtain ⟨mx, tx⟩ := x
    rw [List.map_cons, takeLeast] at h
    cases hf : takeLeast (f.map Prod.fst) with
    | none =>
      rw [hf] at h
      obtain ⟨rfl, rfl⟩ := by simpa using h
      have : f = [] := by simpa using takeLeast_eq_none.mp hf
      exact ⟨tx, [], rfl, by simp [this]⟩
    | some y =>
      obtain ⟨least, r⟩ := y
      obtain ⟨t, g, rfl, hp⟩ := ih hf
      rw [hf] at h
      simp only at h
      split at h
      · obtain ⟨rfl, rfl⟩ := by simpa using h
        exact ⟨tx, (least, t) :: g, rfl, hp.cons _⟩
      · obtain ⟨rfl, rfl⟩ := by simpa using h
        exact ⟨t, (mx, tx) :: g, rfl, (hp.cons _).trans (List.Perm.swap ..)⟩

/-- A member stands for its tree in the tree memory built so far. -/
def Rooted (freq : List Count) (nodes : List Node) (x : Member × CodeTree) : Prop :=
  x.1.index = x.2.root ∧ nodes[x.2.root]? = some x.1.node ∧ x.2.Stored freq nodes

theorem Rooted.append {freq : List Count} {nodes : List Node} (more : List Node) {x : Member × CodeTree}
    (h : Rooted freq nodes x) : Rooted freq (nodes ++ more) x := by
  refine ⟨h.1, ?_, h.2.2.append more⟩
  obtain ⟨hn, -⟩ := List.getElem?_eq_some_iff.mp h.2.1
  rw [List.getElem?_append_left hn, h.2.1]

/-- Merging a forest of `k + 1` trees makes `k` nodes and one tree over all their leaves. -/
theorem mergeForest_spec (freq : List Count) (k : Nat) :
    ∀ (next : Nat) (grove : Grove) (nodes : List Node),
      nodes.length = next → grove.length = k + 1 → freq.length ≤ next →
      (grove.map fun x => x.1.index).Nodup →
      (∀ x ∈ grove, Rooted freq nodes x) →
      (mergeForest k next (grove.map Prod.fst)).length = k ∧
      ∃ t : CodeTree,
        t.Stored freq (nodes ++ mergeForest k next (grove.map Prod.fst)) ∧
        t.leaves.Perm (grove.flatMap fun x => x.2.leaves) ∧
        t.indices.Perm ((grove.flatMap fun x => x.2.indices) ++ List.range' next k) ∧
        (k = 0 → ∀ x ∈ grove, t.root = x.2.root) ∧ (0 < k → t.root = next + k - 1) := by
  induction k with
  | zero =>
    intro next grove nodes _ hg _ _ hr
    obtain ⟨x, rfl⟩ := List.length_eq_one_iff.mp hg
    refine ⟨by simp [mergeForest], x.2, ?_, by simp, by simp, by simp, by simp⟩
    simpa [mergeForest] using (hr x (by simp)).2.2
  | succ k ih =>
    intro next grove nodes hn hg hfreq hne hr
    cases h1 : takeLeast (grove.map Prod.fst) with
    | none => have := takeLeast_eq_none.mp h1; simp_all
    | some y1 =>
      obtain ⟨⟨i1, n1⟩, r1⟩ := y1
      obtain ⟨t1, g1, rfl, p1⟩ := takeLeast_grove h1
      have l1 := p1.length_eq
      cases h2 : takeLeast (g1.map Prod.fst) with
      | none => have := takeLeast_eq_none.mp h2; simp_all
      | some y2 =>
        obtain ⟨⟨i2, n2⟩, r2⟩ := y2
        obtain ⟨t2, g2, rfl, p2⟩ := takeLeast_grove h2
        have l2 := p2.length_eq
        have p := p1.trans (p2.cons _)
        obtain ⟨hi1, hs1, st1⟩ := hr (⟨i1, n1⟩, t1) (p.mem_iff.mpr (by simp))
        obtain ⟨hi2, hs2, st2⟩ := hr (⟨i2, n2⟩, t2) (p.mem_iff.mpr (by simp))
        simp only at hi1 hi2 hs1 hs2 st1 st2
        subst hi1 hi2
        have hne' := (p.map fun x => x.1.index).nodup_iff.mp hne
        simp only [List.map_cons, List.nodup_cons, List.mem_cons, not_or] at hne'
        obtain ⟨⟨hd, -⟩, -, hnd⟩ := hne'
        have hlt : precedes ⟨t1.root, n1⟩ ⟨t2.root, n2⟩ = true := by
          have hle := takeLeast_least h1 ⟨t2.root, n2⟩ ((takeLeast_perm h2).mem_iff.mpr (List.mem_cons_self ..))
          rw [precedes_false_iff] at hle
          rw [precedes_iff]
          simp only at *
          omega
        have b1 : t1.root < next := hn ▸ (List.getElem?_eq_some_iff.mp hs1).1
        have b2 : t2.root < next := hn ▸ (List.getElem?_eq_some_iff.mp hs2).1
        let merged := mergeNode ⟨t1.root, n1⟩ ⟨t2.root, n2⟩
        let grove' : Grove := (⟨next, merged⟩, .node next t1 t2) :: g2
        have hget : (nodes ++ [merged])[next]? = some merged := by
          rw [List.getElem?_append_right (by omega)]; simp [hn]
        have hrooted : ∀ x ∈ grove', Rooted freq (nodes ++ [merged]) x := by
          intro x hx
          rcases List.mem_cons.mp hx with rfl | hx
          · refine ⟨rfl, hget, ⟨hfreq, b1, b2, n1, n2, merged, ?_, ?_, hget, rfl, hlt⟩, st1.append _, st2.append _⟩
            · rw [List.getElem?_append_left (by omega), hs1]
            · rw [List.getElem?_append_left (by omega), hs2]
          · exact (hr x (p.mem_iff.mpr (by simp [hx]))).append _
        have hfresh : (grove'.map fun x => x.1.index).Nodup := by
          simp only [grove', List.map_cons, List.nodup_cons]
          refine ⟨?_, hnd⟩
          simp only [List.mem_map, not_exists, not_and]
          intro x hx
          have hx' := hr x (p.mem_iff.mpr (by simp [hx]))
          have hb := (List.getElem?_eq_some_iff.mp hx'.2.1).1
          have := hx'.1
          omega
        have hg' : grove'.length = k + 1 := by
          simp only [grove', List.length_cons] at *; omega
        obtain ⟨hlen, t, hst, hleaves, hindices, hroot0, hroot⟩ :=
          ih (next + 1) grove' (nodes ++ [merged]) (by simp [hn]) hg' (by omega) hfresh hrooted
        have hrun : mergeForest (k + 1) next (grove.map Prod.fst)
            = merged :: mergeForest k (next + 1) (grove'.map Prod.fst) := by
          simp [mergeForest, h1, h2, grove', merged]
        refine ⟨by simp [hrun, hlen], t, ?_, ?_, ?_, by simp, ?_⟩
        · rw [hrun]; simpa using hst
        · refine hleaves.trans ((p.flatMap_right _).trans ?_).symm
          simp [grove', CodeTree.leaves]
        · refine hindices.trans (((p.flatMap_right _).append_right _).trans ?_).symm
          simp only [grove', List.flatMap_cons, CodeTree.indices, List.range'_succ, List.cons_append, List.append_assoc]
          refine List.Perm.trans ?_ (List.perm_middle (l₁ := [])).symm
          simp only [← List.append_assoc, List.nil_append]
          exact List.perm_middle
        · intro _
          rcases Nat.eq_zero_or_pos k with rfl | hk
          · rw [hroot0 rfl (⟨next, merged⟩, .node next t1 t2) (by simp [grove'])]
            simp [CodeTree.root]
          · rw [hroot hk]; omega

/-- The leaves as a grove of one-leaf trees. -/
theorem membersFrom_grove (first : Nat) (counts : List Count) :
    ∃ grove : Grove, grove.map Prod.fst = membersFrom first (counts.map leafNode) ∧
      grove.length = counts.length ∧
      (grove.map fun x => x.1.index) = List.range' first counts.length ∧
      (grove.flatMap fun x => x.2.leaves) = List.range' first counts.length ∧
      (grove.flatMap fun x => x.2.indices) = List.range' first counts.length ∧
      ∀ x ∈ grove, ∃ i c, counts[i]? = some c ∧ x = (⟨first + i, leafNode c⟩, .leaf (first + i)) := by
  induction counts generalizing first with
  | nil => exact ⟨[], by simp [membersFrom]⟩
  | cons c cs ih =>
    obtain ⟨g, h1, h2, h3, h4, h5, h6⟩ := ih (first + 1)
    refine ⟨(⟨first, leafNode c⟩, .leaf first) :: g, ?_, by simp [h2], ?_, ?_, ?_, ?_⟩
    · simp [membersFrom, h1]
    · simp [h3, List.range'_succ]
    · simp [h4, List.range'_succ, CodeTree.leaves]
    · simp [h5, List.range'_succ, CodeTree.indices]
    · intro x hx
      rcases List.mem_cons.mp hx with rfl | hx
      · exact ⟨0, c, by simp, by simp⟩
      · obtain ⟨i, d, hd, rfl⟩ := h6 x hx
        exact ⟨i + 1, d, by simpa using hd, by simp; omega⟩

/-- `BuildTree` makes `2A-1` records that store one full tree over all symbols, rooted at `2A-2`, every node once. -/
theorem buildTree_spec (freq : List Count) (two : 2 ≤ freq.length) :
    (buildTree freq).length = 2 * freq.length - 1 ∧
    ∃ t : CodeTree,
      t.Stored freq (buildTree freq) ∧
      t.root = 2 * freq.length - 2 ∧
      t.leaves.Perm (List.range freq.length) ∧
      t.indices.Perm (List.range (2 * freq.length - 1)) := by
  obtain ⟨grove, h1, h2, h3, h4, h5, h6⟩ := membersFrom_grove 0 freq
  have hrooted : ∀ x ∈ grove, Rooted freq (freq.map leafNode) x := by
    intro x hx
    obtain ⟨i, c, hc, rfl⟩ := h6 x hx
    obtain ⟨hi, hic⟩ := List.getElem?_eq_some_iff.mp hc
    have hrec : (freq.map leafNode)[i]? = some (leafNode c) := by simp [hc]
    refine ⟨rfl, by simpa [CodeTree.root] using hrec, ?_⟩
    refine ⟨by simpa using hi, ?_⟩
    simp [List.getD, hc]
  obtain ⟨hlen, t, hst, hl, hi, -, hroot⟩ :=
    mergeForest_spec freq (freq.length - 1) freq.length grove (freq.map leafNode)
      (by simp) (by omega) le_rfl (by rw [h3]; exact List.nodup_range') hrooted
  rw [h1] at hlen hst
  refine ⟨by simp [buildTree, hlen]; omega, t, hst, ?_, ?_, ?_⟩
  · rw [hroot (by omega)]; omega
  · rw [h4] at hl; simpa [List.range_eq_range'] using hl
  · rw [h5] at hi
    refine hi.trans ?_
    rw [List.range_eq_range', show 2 * freq.length - 1 = freq.length + (freq.length - 1) by omega,
      ← List.range'_append_1, Nat.zero_add]

end Sys2Proof.Machine
end

