-- ==== Sys2Proof/Laws/Code.lean ====
section
/-! SUPPORT. What `pathTo` and `walk` answer on the tree of a frequency table (41_tree.md R128, R130, R131;
42_encoder.md R152), said once; later proofs cite these and unfold neither the search nor the merge. -/

namespace Sys2Proof.Machine

/-- The tree memory of a full frequency table, as a code tree: walking and searching the memory are walking and
searching the tree. -/
theorem codeTree_spec {p : Params} {freq : List Count} (len : freq.length = p.alphabet) (two : 2 ≤ p.alphabet) :
    ∃ t : CodeTree,
      t.Stored freq (buildTree freq) ∧ t.root = p.root ∧ t.leaves.Perm (List.range p.alphabet) ∧
      t.indices.Perm (List.range p.nodes) ∧
      (∀ s, pathTo p (buildTree freq) s = t.find s) ∧
      (∀ path, walk p (buildTree freq) path = (t.sub path).map CodeTree.root) := by
  obtain ⟨-, t, hst, hroot, hl, hi⟩ := buildTree_spec freq (len ▸ two)
  rw [len] at hroot hl hi
  have hh := t.height_lt_leaves
  rw [hl.length_eq, List.length_range] at hh
  refine ⟨t, hst, hroot, hl, hi, fun s => ?_, fun path => ?_⟩
  · rw [pathTo, Params.root, ← hroot, hst.search hh]
  · rw [walk, Params.root, ← hroot, hst.walkFrom]

/-- A stored subtree whose root is a symbol is that symbol's leaf. -/
theorem CodeTree.Stored.eq_leaf {freq : List Count} {nodes : List Node} {t : CodeTree}
    (h : t.Stored freq nodes) (small : t.root < freq.length) : t = .leaf t.root := by
  cases t with
  | leaf n => rfl
  | node n l r => exact absurd small (Nat.not_lt.mpr h.1.1)

/-- Every symbol has a codeword, of 1 to `MAXLEN` bits (41_tree.md R128, 42_encoder.md R152). -/
theorem pathTo_total {p : Params} {freq : List Count} (len : freq.length = p.alphabet) (two : 2 ≤ p.alphabet)
    {s : Nat} (hs : s < p.alphabet) :
    ∃ code, pathTo p (buildTree freq) s = some code ∧ 1 ≤ code.length ∧ code.length ≤ p.maxLen := by
  obtain ⟨t, hst, hroot, hl, -, hfind, -⟩ := codeTree_spec len two
  rw [hfind]
  cases hc : t.find s with
  | none => exact absurd (hl.mem_iff.mpr (List.mem_range.mpr hs)) (CodeTree.find_none hc)
  | some code =>
    have hsub := CodeTree.sub_of_find hc
    have hle := CodeTree.sub_length_le hsub
    have hh := t.height_lt_leaves
    rw [hl.length_eq, List.length_range] at hh
    refine ⟨code, rfl, ?_, by simp only [Params.maxLen]; omega⟩
    cases code with
    | cons b c => simp
    | nil =>
      simp only [CodeTree.sub, Option.some.injEq] at hsub
      subst hsub
      simp only [CodeTree.root, Params.root] at hroot
      omega

/-- A bit sequence is a symbol's codeword exactly when the walk along it ends at the symbol's leaf
(41_tree.md R128, R130). -/
theorem pathTo_iff_walk {p : Params} {freq : List Count} (len : freq.length = p.alphabet) (two : 2 ≤ p.alphabet)
    {s : Nat} (hs : s < p.alphabet) (code : List Bool) :
    pathTo p (buildTree freq) s = some code ↔ walk p (buildTree freq) code = some s := by
  obtain ⟨t, hst, -, hl, -, hfind, hwalk⟩ := codeTree_spec len two
  rw [hfind, hwalk]
  constructor
  · intro h; rw [CodeTree.sub_of_find h]; rfl
  · intro h
    obtain ⟨u, hu, rfl⟩ := Option.map_eq_some_iff.mp h
    have := (hst.sub hu).eq_leaf (len ▸ hs)
    exact CodeTree.find_of_sub (hl.nodup_iff.mpr List.nodup_range) (this ▸ hu)

/-- A walk ends at a node of the memory. -/
theorem walk_lt {p : Params} {freq : List Count} (len : freq.length = p.alphabet) (two : 2 ≤ p.alphabet)
    {path : List Bool} {n : Nat} (h : walk p (buildTree freq) path = some n) : n < p.nodes := by
  obtain ⟨t, -, -, -, hi, -, hwalk⟩ := codeTree_spec len two
  rw [hwalk] at h
  obtain ⟨u, hu, rfl⟩ := Option.map_eq_some_iff.mp h
  exact List.mem_range.mp (hi.mem_iff.mp (CodeTree.sub_root_mem hu))

/-- A walk takes at most MAXLEN steps (43_decoder.md R171). -/
theorem walk_length_le {p : Params} {freq : List Count} (len : freq.length = p.alphabet) (two : 2 ≤ p.alphabet)
    {path : List Bool} {n : Nat} (h : walk p (buildTree freq) path = some n) : path.length ≤ p.maxLen := by
  obtain ⟨t, -, -, hl, -, -, hwalk⟩ := codeTree_spec len two
  rw [hwalk] at h
  obtain ⟨u, hu, rfl⟩ := Option.map_eq_some_iff.mp h
  have h1 := CodeTree.sub_length_le hu
  have h2 := t.height_lt_leaves
  have h3 := hl.length_eq
  simp only [List.length_range] at h3
  simp only [Params.maxLen]
  omega

/-- A walk never leaves a leaf (41_tree.md R130). -/
theorem walk_below_leaf {p : Params} {freq : List Count} (len : freq.length = p.alphabet) (two : 2 ≤ p.alphabet)
    {path more : List Bool} {s : Nat} (hs : s < p.alphabet) (h : walk p (buildTree freq) path = some s)
    (ne : more ≠ []) : walk p (buildTree freq) (path ++ more) = none := by
  obtain ⟨t, hst, -, -, -, -, hwalk⟩ := codeTree_spec len two
  rw [hwalk] at h ⊢
  obtain ⟨u, hu, rfl⟩ := Option.map_eq_some_iff.mp h
  have := (hst.sub hu).eq_leaf (len ▸ hs)
  rw [CodeTree.sub_append, hu, this]
  cases more with
  | nil => exact absurd rfl ne
  | cons b m => simp [CodeTree.sub]

/-- No codeword is a prefix of another (41_tree.md R131). -/
theorem code_prefix_free {p : Params} {freq : List Count} (len : freq.length = p.alphabet) (two : 2 ≤ p.alphabet)
    {x y : Nat} (hx : x < p.alphabet) (hy : y < p.alphabet) {cx cy : List Bool}
    (ex : pathTo p (buildTree freq) x = some cx) (ey : pathTo p (buildTree freq) y = some cy)
    (pre : cx <+: cy) : x = y := by
  obtain ⟨more, rfl⟩ := pre
  have wx := (pathTo_iff_walk len two hx _).mp ex
  have wy := (pathTo_iff_walk len two hy _).mp ey
  rcases eq_or_ne more [] with rfl | ne
  · rw [List.append_nil, wx] at wy; exact Option.some.inj wy
  · rw [walk_below_leaf len two hx wx ne] at wy; exact absurd wy (by simp)

/-- The record at the end of a walk exists. -/
theorem walk_record {p : Params} {freq : List Count} (len : freq.length = p.alphabet) (two : 2 ≤ p.alphabet)
    {path : List Bool} {n : Nat} (h : walk p (buildTree freq) path = some n) :
    ∃ r, (buildTree freq)[n]? = some r ∧ (r.kind = .leaf ↔ n < p.alphabet) := by
  obtain ⟨t, hst, -, -, -, -, hwalk⟩ := codeTree_spec len two
  rw [hwalk] at h
  obtain ⟨u, hu, rfl⟩ := Option.map_eq_some_iff.mp h
  have hu := hst.sub hu
  cases u with
  | leaf m => exact ⟨_, hu.2, by simpa [leafNode, CodeTree.root, len] using hu.1⟩
  | node m l r =>
    obtain ⟨⟨h1, -, -, nl, nr, nd, -, -, h6, rfl, -⟩, -, -⟩ := hu
    exact ⟨_, h6, by simp [mergeNode, CodeTree.root]; omega⟩

end Sys2Proof.Machine
end

