-- ==== Sys2Proof/Laws/Decode.lean ====
section
/-! SUPPORT. The fields of an assembled word, and the word put together from its fields (30_encoding.md R71, R77). -/

namespace Sys2Proof

/-- The bits of an assembled word. -/
theorem commandWord_getLsbD (opc : BitVec 4) (sym i : Nat) :
    (commandWord opc sym).getLsbD i =
      if i < 16 then (BitVec.ofNat 16 sym).getLsbD i else if i < 28 then false else opc.getLsbD (i - 28) := by
  have h : (commandWord opc sym).getLsbD i =
      BitVec.getLsbD (w := 4 + 12 + 16) (opc ++ 0#12 ++ BitVec.ofNat 16 sym) i := rfl
  rw [h, BitVec.getLsbD_append, BitVec.getLsbD_append]
  by_cases h0 : i < 16
  · simp only [h0, if_true]
  · by_cases h1 : i < 28
    · simp [h0, h1, show i - 16 < 12 by omega]
    · simp [h0, h1, show ¬ i - 16 < 12 by omega, show i - 16 - 12 = i - 28 by omega]

@[simp] theorem opcOf_commandWord (opc : BitVec 4) (sym : Nat) : opcOf (commandWord opc sym) = opc := by
  apply BitVec.eq_of_getLsbD_eq
  intro i hi
  simp [opcOf, commandWord_getLsbD, hi, show ¬ 28 + i < 16 by omega]

@[simp] theorem rsvOf_commandWord (opc : BitVec 4) (sym : Nat) : rsvOf (commandWord opc sym) = 0#12 := by
  apply BitVec.eq_of_getLsbD_eq
  intro i hi
  simp [rsvOf, BitVec.getLsbD_extractLsb', commandWord_getLsbD, show 16 + i < 28 by omega]

@[simp] theorem operandOf_commandWord (opc : BitVec 4) (sym : Nat) :
    operandOf (commandWord opc sym) = BitVec.ofNat 16 sym := by
  apply BitVec.eq_of_getLsbD_eq
  intro i hi
  simp [operandOf, commandWord_getLsbD, hi]

/-- A word is its three fields (30_encoding.md R71). -/
theorem word_of_fields (w : Word) : opcOf w ++ rsvOf w ++ operandOf w = w := by
  apply BitVec.eq_of_getLsbD_eq
  intro i hi
  simp only [opcOf, rsvOf, operandOf, BitVec.getLsbD_append, BitVec.getLsbD_extractLsb']
  by_cases h0 : i < 16
  · simp [h0]
  · by_cases h1 : i < 28
    · simp [h0, show i - 16 < 12 by omega, show 16 + (i - 16) = i by omega]
    · simp [h0, show ¬ i - 16 < 12 by omega, show i - 16 - 12 < 4 by omega, show 28 + (i - 16 - 12) = i by omega]

/-- A word whose reserved field is zero is the assembled word of its opcode and operand. -/
theorem commandWord_of_fields {w : Word} (h : rsvOf w = 0#12) : commandWord (opcOf w) (operandOf w).toNat = w := by
  rw [commandWord, BitVec.ofNat_toNat, BitVec.setWidth_eq, ← h]
  exact word_of_fields w

/-- The fields as numbers. -/
theorem opcOf_toNat (w : Word) : (opcOf w).toNat = w.toNat / 2 ^ 28 := by
  simp only [opcOf, BitVec.extractLsb'_toNat, Nat.shiftRight_eq_div_pow]
  omega

theorem rsvOf_toNat (w : Word) : (rsvOf w).toNat = w.toNat / 2 ^ 16 % 2 ^ 12 := by
  simp [rsvOf, BitVec.extractLsb'_toNat, Nat.shiftRight_eq_div_pow]

theorem operandOf_toNat (w : Word) : (operandOf w).toNat = w.toNat % 2 ^ 16 := by
  simp [operandOf, BitVec.extractLsb'_toNat]

end Sys2Proof
end

