-- ==== Sys2Proof/Laws/Decoder.lean ====
section
/-! SUPPORT. What the decode loop does on a stored code tree (43_decoder.md R170, R171). -/

namespace Sys2Proof.Machine

/-- One pass of the loop at an internal node whose next input bit is written. -/
theorem decodeLoop_node {s : State} {n : Nat} {l r : CodeTree} (h : (CodeTree.node n l r).Stored s.freq s.node)
    {pos : Nat} {bit : Bool} (hbit : s.inBit pos = some bit) (remaining : Nat) :
    decodeLoop s (remaining + 1) pos n =
      match (if bit then r else l) with
      | .leaf m => .leaf m (pos + 1)
      | .node m _ _ => decodeLoop s remaining (pos + 1) m := by
  have hc := h.childOf bit
  have hsub : (if bit then r else l).Stored s.freq s.node := by
    split
    · exact h.2.2
    · exact h.2.1
  rw [← apply_ite CodeTree.root] at hc
  simp only [decodeLoop, hbit, hc]
  generalize (if bit = true then r else l) = u at hsub
  cases u with
  | leaf m => simp [CodeTree.root_leaf, hsub.2, leafNode]
  | node m l' r' =>
    obtain ⟨⟨-, -, -, nl, nr, nd, -, -, h6, rfl, -⟩, -, -⟩ := hsub
    simp [CodeTree.root_node, h6, mergeNode]

/-- On input that begins with the path of a leaf, the loop ends at that leaf, just past the path. -/
theorem decodeLoop_complete {s : State} {n sym : Nat} {l r : CodeTree} {code : List Bool}
    (h : (CodeTree.node n l r).Stored s.freq s.node) (hc : (CodeTree.node n l r).sub code = some (.leaf sym))
    {pos remaining : Nat} (bits : s.inputHas pos code) (fits : code.length ≤ remaining) :
    decodeLoop s remaining pos n = .leaf sym (pos + code.length) := by
  induction code generalizing n l r pos remaining with
  | nil => simp [CodeTree.sub] at hc
  | cons bit code ih =>
    obtain ⟨rem, rfl⟩ : ∃ rem, remaining = rem + 1 := ⟨remaining - 1, by simp at fits; omega⟩
    have hbit : s.inBit pos = some bit := bits 0 (by simp)
    have hrest : s.inputHas (pos + 1) code := by
      intro i hi
      have := bits (i + 1) (by simpa using hi)
      simpa [Nat.add_assoc, Nat.add_comm 1 i] using this
    rw [decodeLoop_node h hbit]
    have hsub : (if bit then r else l).sub code = some (.leaf sym) := by
      simp only [CodeTree.sub] at hc
      split at hc <;> simp_all
    have hst : (if bit then r else l).Stored s.freq s.node := by
      split
      · exact h.2.2
      · exact h.2.1
    generalize (if bit = true then r else l) = u at hsub hst
    cases u with
    | leaf m =>
      cases code with
      | nil => simp only [CodeTree.sub, Option.some.injEq, CodeTree.leaf.injEq] at hsub; simp [hsub]
      | cons b c => simp [CodeTree.sub] at hsub
    | node m l' r' =>
      have := ih hst hsub hrest (by simpa using fits)
      simp only [this, List.length_cons]
      congr 1; omega

/-- On input that leads to an internal node, the loop goes on from there. -/
theorem decodeLoop_through {s : State} {n : Nat} {l r u : CodeTree} {path : List Bool}
    (h : (CodeTree.node n l r).Stored s.freq s.node) (hp : (CodeTree.node n l r).sub path = some u)
    (hu : ∀ m, u ≠ .leaf m) {pos remaining : Nat} (bits : s.inputHas pos path) (fits : path.length ≤ remaining) :
    decodeLoop s remaining pos n = decodeLoop s (remaining - path.length) (pos + path.length) u.root := by
  induction path generalizing n l r pos remaining with
  | nil => simp only [CodeTree.sub, Option.some.injEq] at hp; subst hp; simp [CodeTree.root]
  | cons bit path ih =>
    obtain ⟨k, rfl⟩ : ∃ k, remaining = k + 1 := ⟨remaining - 1, by simp at fits; omega⟩
    have hbit : s.inBit pos = some bit := bits 0 (by simp)
    have hrest : s.inputHas (pos + 1) path := by
      intro i hi
      have := bits (i + 1) (by simpa using hi)
      simpa [Nat.add_assoc, Nat.add_comm 1 i] using this
    rw [decodeLoop_node h hbit]
    have hsub : (if bit then r else l).sub path = some u := by
      simp only [CodeTree.sub] at hp
      split at hp <;> simp_all
    have hst : (if bit then r else l).Stored s.freq s.node := by
      split
      · exact h.2.2
      · exact h.2.1
    generalize (if bit = true then r else l) = v at hsub hst
    cases v with
    | leaf m =>
      cases path with
      | nil =>
        simp only [CodeTree.sub, Option.some.injEq] at hsub
        exact absurd hsub.symm (hu m)
      | cons b q => simp [CodeTree.sub] at hsub
    | node m a b =>
      simp only
      rw [ih hst hsub hrest (by simpa using fits)]
      simp only [List.length_cons]
      congr 1 <;> omega

/-- Whatever the loop ends with is what the input along the tree says; the internal InvalidPath cannot occur. -/
theorem decodeLoop_sound {s : State} {n : Nat} {l r : CodeTree}
    (h : (CodeTree.node n l r).Stored s.freq s.node) (remaining pos : Nat) :
    match decodeLoop s remaining pos n with
    | .leaf sym p => ∃ code, (CodeTree.node n l r).sub code = some (.leaf sym) ∧ p = pos + code.length ∧
        code.length ≤ remaining ∧ s.inputHas pos code
    | .truncated => ∃ path u, path.length = remaining ∧ (CodeTree.node n l r).sub path = some u ∧
        s.inputHas pos path
    | .unwritten j => ∃ i, pos ≤ i ∧ i < pos + remaining ∧ s.inBit i = none ∧ j = i / 32
    | .broken => False := by
  induction remaining generalizing n l r pos with
  | zero => exact ⟨[], _, rfl, rfl, by simp [State.inputHas]⟩
  | succ remaining ih =>
    cases hbit : s.inBit pos with
    | none => simp only [decodeLoop, hbit]; exact ⟨pos, le_rfl, by omega, hbit, rfl⟩
    | some bit =>
      rw [decodeLoop_node h hbit]
      have hst : (if bit then r else l).Stored s.freq s.node := by
        split
        · exact h.2.2
        · exact h.2.1
      have hsub : ∀ path, (CodeTree.node n l r).sub (bit :: path) = (if bit then r else l).sub path := by
        intro path; simp only [CodeTree.sub]; split <;> simp_all
      have hcons : ∀ path, s.inputHas (pos + 1) path → s.inputHas pos (bit :: path) := by
        intro path hp i hi
        cases i with
        | zero => simpa using hbit
        | succ i => simpa [Nat.add_assoc, Nat.add_comm 1 i] using hp i (by simpa using hi)
      generalize (if bit = true then r else l) = u at hst hsub
      cases u with
      | leaf m =>
        exact ⟨[bit], by rw [hsub]; rfl, rfl, by simp, hcons [] (by simp [State.inputHas])⟩
      | node m l' r' =>
        have := ih hst (pos + 1)
        revert this
        simp only
        cases decodeLoop s remaining (pos + 1) m with
        | leaf sym p =>
          rintro ⟨code, h1, h2, h3, h4⟩
          exact ⟨bit :: code, by rw [hsub, h1], by simp; omega, by simpa using h3, hcons _ h4⟩
        | truncated =>
          rintro ⟨path, u, h1, h2, h3⟩
          exact ⟨bit :: path, u, by simp [h1], by rw [hsub, h2], hcons _ h3⟩
        | unwritten j =>
          rintro ⟨i, h1, h2, h3, h4⟩
          exact ⟨i, by omega, by omega, h3, h4⟩
        | broken => exact False.elim

end Sys2Proof.Machine
end

