-- ==== Sys2Proof/Laws/State.lean ====
section
/-! SUPPORT. One lemma per field of State and per named update, each true by rfl: no later proof unfolds a record update. -/

namespace Sys2Proof.Machine

/-! ### State.done -/

@[simp] theorem State.done_params (s : State) : s.done.params = s.params := rfl
@[simp] theorem State.done_cmd (s : State) : s.done.cmd = s.cmd := rfl
@[simp] theorem State.done_err (s : State) : s.done.err = .ok := rfl
@[simp] theorem State.done_engine (s : State) : s.done.engine = .idle := rfl
@[simp] theorem State.done_fatal (s : State) : s.done.fatal = s.fatal := rfl
@[simp] theorem State.done_resultKind (s : State) : s.done.resultKind = s.resultKind := rfl
@[simp] theorem State.done_resultSym (s : State) : s.done.resultSym = s.resultSym := rfl
@[simp] theorem State.done_countOut (s : State) : s.done.countOut = s.countOut := rfl
@[simp] theorem State.done_codeLen (s : State) : s.done.codeLen = s.codeLen := rfl
@[simp] theorem State.done_pathLen (s : State) : s.done.pathLen = s.pathLen := rfl
@[simp] theorem State.done_inLen (s : State) : s.done.inLen = s.inLen := rfl
@[simp] theorem State.done_inPos (s : State) : s.done.inPos = s.inPos := rfl
@[simp] theorem State.done_valKey (s : State) : s.done.valKey = s.valKey := rfl
@[simp] theorem State.done_valKind (s : State) : s.done.valKind = s.valKind := rfl
@[simp] theorem State.done_valDepth (s : State) : s.done.valDepth = s.valDepth := rfl
@[simp] theorem State.done_valWeightLo (s : State) : s.done.valWeightLo = s.valWeightLo := rfl
@[simp] theorem State.done_valWeightHi (s : State) : s.done.valWeightHi = s.valWeightHi := rfl
@[simp] theorem State.done_codeBits (s : State) : s.done.codeBits = s.codeBits := rfl
@[simp] theorem State.done_freq (s : State) : s.done.freq = s.freq := rfl
@[simp] theorem State.done_node (s : State) : s.done.node = s.node := rfl
@[simp] theorem State.done_mem (s : State) : s.done.mem = s.mem := rfl
@[simp] theorem State.done_host (s : State) : s.done.host = s.host := rfl
@[simp] theorem State.done_reply (s : State) : s.done.reply = s.reply := rfl
@[simp] theorem State.done_fresh (s : State) : s.done.fresh = s.fresh := rfl

/-! ### State.raise -/

@[simp] theorem State.raise_params (s : State) (e : ErrCode) : (s.raise e).params = s.params := rfl
@[simp] theorem State.raise_cmd (s : State) (e : ErrCode) : (s.raise e).cmd = s.cmd := rfl
@[simp] theorem State.raise_err (s : State) (e : ErrCode) : (s.raise e).err = e := rfl
@[simp] theorem State.raise_engine (s : State) (e : ErrCode) : (s.raise e).engine = .idle := rfl
@[simp] theorem State.raise_fatal (s : State) (e : ErrCode) : (s.raise e).fatal = s.fatal := rfl
@[simp] theorem State.raise_resultKind (s : State) (e : ErrCode) : (s.raise e).resultKind = s.resultKind := rfl
@[simp] theorem State.raise_resultSym (s : State) (e : ErrCode) : (s.raise e).resultSym = s.resultSym := rfl
@[simp] theorem State.raise_countOut (s : State) (e : ErrCode) : (s.raise e).countOut = s.countOut := rfl
@[simp] theorem State.raise_codeLen (s : State) (e : ErrCode) : (s.raise e).codeLen = s.codeLen := rfl
@[simp] theorem State.raise_pathLen (s : State) (e : ErrCode) : (s.raise e).pathLen = s.pathLen := rfl
@[simp] theorem State.raise_inLen (s : State) (e : ErrCode) : (s.raise e).inLen = s.inLen := rfl
@[simp] theorem State.raise_inPos (s : State) (e : ErrCode) : (s.raise e).inPos = s.inPos := rfl
@[simp] theorem State.raise_valKey (s : State) (e : ErrCode) : (s.raise e).valKey = s.valKey := rfl
@[simp] theorem State.raise_valKind (s : State) (e : ErrCode) : (s.raise e).valKind = s.valKind := rfl
@[simp] theorem State.raise_valDepth (s : State) (e : ErrCode) : (s.raise e).valDepth = s.valDepth := rfl
@[simp] theorem State.raise_valWeightLo (s : State) (e : ErrCode) : (s.raise e).valWeightLo = s.valWeightLo := rfl
@[simp] theorem State.raise_valWeightHi (s : State) (e : ErrCode) : (s.raise e).valWeightHi = s.valWeightHi := rfl
@[simp] theorem State.raise_codeBits (s : State) (e : ErrCode) : (s.raise e).codeBits = s.codeBits := rfl
@[simp] theorem State.raise_freq (s : State) (e : ErrCode) : (s.raise e).freq = s.freq := rfl
@[simp] theorem State.raise_node (s : State) (e : ErrCode) : (s.raise e).node = s.node := rfl
@[simp] theorem State.raise_mem (s : State) (e : ErrCode) : (s.raise e).mem = s.mem := rfl
@[simp] theorem State.raise_host (s : State) (e : ErrCode) : (s.raise e).host = s.host := rfl
@[simp] theorem State.raise_reply (s : State) (e : ErrCode) : (s.raise e).reply = s.reply := rfl
@[simp] theorem State.raise_fresh (s : State) (e : ErrCode) : (s.raise e).fresh = s.fresh := rfl

/-! ### State.raiseFatal -/

@[simp] theorem State.raiseFatal_params (s : State) (e : ErrCode) : (s.raiseFatal e).params = s.params := rfl
@[simp] theorem State.raiseFatal_cmd (s : State) (e : ErrCode) : (s.raiseFatal e).cmd = s.cmd := rfl
@[simp] theorem State.raiseFatal_err (s : State) (e : ErrCode) : (s.raiseFatal e).err = e := rfl
@[simp] theorem State.raiseFatal_engine (s : State) (e : ErrCode) : (s.raiseFatal e).engine = .idle := rfl
@[simp] theorem State.raiseFatal_fatal (s : State) (e : ErrCode) : (s.raiseFatal e).fatal = true := rfl
@[simp] theorem State.raiseFatal_resultKind (s : State) (e : ErrCode) :
    (s.raiseFatal e).resultKind = s.resultKind := rfl
@[simp] theorem State.raiseFatal_resultSym (s : State) (e : ErrCode) :
    (s.raiseFatal e).resultSym = s.resultSym := rfl
@[simp] theorem State.raiseFatal_countOut (s : State) (e : ErrCode) : (s.raiseFatal e).countOut = s.countOut := rfl
@[simp] theorem State.raiseFatal_codeLen (s : State) (e : ErrCode) : (s.raiseFatal e).codeLen = s.codeLen := rfl
@[simp] theorem State.raiseFatal_pathLen (s : State) (e : ErrCode) : (s.raiseFatal e).pathLen = s.pathLen := rfl
@[simp] theorem State.raiseFatal_inLen (s : State) (e : ErrCode) : (s.raiseFatal e).inLen = s.inLen := rfl
@[simp] theorem State.raiseFatal_inPos (s : State) (e : ErrCode) : (s.raiseFatal e).inPos = s.inPos := rfl
@[simp] theorem State.raiseFatal_valKey (s : State) (e : ErrCode) : (s.raiseFatal e).valKey = s.valKey := rfl
@[simp] theorem State.raiseFatal_valKind (s : State) (e : ErrCode) : (s.raiseFatal e).valKind = s.valKind := rfl
@[simp] theorem State.raiseFatal_valDepth (s : State) (e : ErrCode) : (s.raiseFatal e).valDepth = s.valDepth := rfl
@[simp] theorem State.raiseFatal_valWeightLo (s : State) (e : ErrCode) :
    (s.raiseFatal e).valWeightLo = s.valWeightLo := rfl
@[simp] theorem State.raiseFatal_valWeightHi (s : State) (e : ErrCode) :
    (s.raiseFatal e).valWeightHi = s.valWeightHi := rfl
@[simp] theorem State.raiseFatal_codeBits (s : State) (e : ErrCode) : (s.raiseFatal e).codeBits = s.codeBits := rfl
@[simp] theorem State.raiseFatal_freq (s : State) (e : ErrCode) : (s.raiseFatal e).freq = s.freq := rfl
@[simp] theorem State.raiseFatal_node (s : State) (e : ErrCode) : (s.raiseFatal e).node = s.node := rfl
@[simp] theorem State.raiseFatal_mem (s : State) (e : ErrCode) : (s.raiseFatal e).mem = s.mem := rfl
@[simp] theorem State.raiseFatal_host (s : State) (e : ErrCode) : (s.raiseFatal e).host = s.host := rfl
@[simp] theorem State.raiseFatal_reply (s : State) (e : ErrCode) : (s.raiseFatal e).reply = s.reply := rfl
@[simp] theorem State.raiseFatal_fresh (s : State) (e : ErrCode) : (s.raiseFatal e).fresh = s.fresh := rfl

/-! ### State.rebuild -/

@[simp] theorem State.rebuild_params (s : State) (freq : List Count) : (s.rebuild freq).params = s.params := rfl
@[simp] theorem State.rebuild_cmd (s : State) (freq : List Count) : (s.rebuild freq).cmd = s.cmd := rfl
@[simp] theorem State.rebuild_err (s : State) (freq : List Count) : (s.rebuild freq).err = s.err := rfl
@[simp] theorem State.rebuild_engine (s : State) (freq : List Count) : (s.rebuild freq).engine = s.engine := rfl
@[simp] theorem State.rebuild_fatal (s : State) (freq : List Count) : (s.rebuild freq).fatal = s.fatal := rfl
@[simp] theorem State.rebuild_resultKind (s : State) (freq : List Count) :
    (s.rebuild freq).resultKind = s.resultKind := rfl
@[simp] theorem State.rebuild_resultSym (s : State) (freq : List Count) :
    (s.rebuild freq).resultSym = s.resultSym := rfl
@[simp] theorem State.rebuild_countOut (s : State) (freq : List Count) :
    (s.rebuild freq).countOut = s.countOut := rfl
@[simp] theorem State.rebuild_codeLen (s : State) (freq : List Count) : (s.rebuild freq).codeLen = s.codeLen := rfl
@[simp] theorem State.rebuild_pathLen (s : State) (freq : List Count) : (s.rebuild freq).pathLen = s.pathLen := rfl
@[simp] theorem State.rebuild_inLen (s : State) (freq : List Count) : (s.rebuild freq).inLen = s.inLen := rfl
@[simp] theorem State.rebuild_inPos (s : State) (freq : List Count) : (s.rebuild freq).inPos = s.inPos := rfl
@[simp] theorem State.rebuild_valKey (s : State) (freq : List Count) : (s.rebuild freq).valKey = s.valKey := rfl
@[simp] theorem State.rebuild_valKind (s : State) (freq : List Count) : (s.rebuild freq).valKind = s.valKind := rfl
@[simp] theorem State.rebuild_valDepth (s : State) (freq : List Count) :
    (s.rebuild freq).valDepth = s.valDepth := rfl
@[simp] theorem State.rebuild_valWeightLo (s : State) (freq : List Count) :
    (s.rebuild freq).valWeightLo = s.valWeightLo := rfl
@[simp] theorem State.rebuild_valWeightHi (s : State) (freq : List Count) :
    (s.rebuild freq).valWeightHi = s.valWeightHi := rfl
@[simp] theorem State.rebuild_codeBits (s : State) (freq : List Count) :
    (s.rebuild freq).codeBits = s.codeBits := rfl
@[simp] theorem State.rebuild_freq (s : State) (freq : List Count) : (s.rebuild freq).freq = freq := rfl
@[simp] theorem State.rebuild_node (s : State) (freq : List Count) : (s.rebuild freq).node = buildTree freq := rfl
@[simp] theorem State.rebuild_mem (s : State) (freq : List Count) : (s.rebuild freq).mem = s.mem := rfl
@[simp] theorem State.rebuild_host (s : State) (freq : List Count) : (s.rebuild freq).host = s.host := rfl
@[simp] theorem State.rebuild_reply (s : State) (freq : List Count) : (s.rebuild freq).reply = s.reply := rfl
@[simp] theorem State.rebuild_fresh (s : State) (freq : List Count) : (s.rebuild freq).fresh = s.fresh := rfl

/-! ### State.initEngine -/

@[simp] theorem State.initEngine_params (s : State) : s.initEngine.params = s.params := rfl
@[simp] theorem State.initEngine_cmd (s : State) : s.initEngine.cmd = s.cmd := rfl
@[simp] theorem State.initEngine_err (s : State) : s.initEngine.err = s.err := rfl
@[simp] theorem State.initEngine_engine (s : State) : s.initEngine.engine = s.engine := rfl
@[simp] theorem State.initEngine_fatal (s : State) : s.initEngine.fatal = s.fatal := rfl
@[simp] theorem State.initEngine_resultKind (s : State) : s.initEngine.resultKind = s.resultKind := rfl
@[simp] theorem State.initEngine_resultSym (s : State) : s.initEngine.resultSym = s.resultSym := rfl
@[simp] theorem State.initEngine_countOut (s : State) : s.initEngine.countOut = s.countOut := rfl
@[simp] theorem State.initEngine_codeLen (s : State) : s.initEngine.codeLen = s.codeLen := rfl
@[simp] theorem State.initEngine_pathLen (s : State) : s.initEngine.pathLen = s.pathLen := rfl
@[simp] theorem State.initEngine_inLen (s : State) : s.initEngine.inLen = s.inLen := rfl
@[simp] theorem State.initEngine_inPos (s : State) : s.initEngine.inPos = s.inPos := rfl
@[simp] theorem State.initEngine_valKey (s : State) : s.initEngine.valKey = s.valKey := rfl
@[simp] theorem State.initEngine_valKind (s : State) : s.initEngine.valKind = s.valKind := rfl
@[simp] theorem State.initEngine_valDepth (s : State) : s.initEngine.valDepth = s.valDepth := rfl
@[simp] theorem State.initEngine_valWeightLo (s : State) : s.initEngine.valWeightLo = s.valWeightLo := rfl
@[simp] theorem State.initEngine_valWeightHi (s : State) : s.initEngine.valWeightHi = s.valWeightHi := rfl
@[simp] theorem State.initEngine_codeBits (s : State) : s.initEngine.codeBits = s.codeBits := rfl
@[simp] theorem State.initEngine_freq (s : State) : s.initEngine.freq = initialFreq s.params := rfl
@[simp] theorem State.initEngine_node (s : State) : s.initEngine.node = buildTree (initialFreq s.params) := rfl
@[simp] theorem State.initEngine_mem (s : State) : s.initEngine.mem = s.mem := rfl
@[simp] theorem State.initEngine_host (s : State) : s.initEngine.host = s.host := rfl
@[simp] theorem State.initEngine_reply (s : State) : s.initEngine.reply = s.reply := rfl
@[simp] theorem State.initEngine_fresh (s : State) : s.initEngine.fresh = s.fresh := rfl

/-! ### State.count -/

@[simp] theorem State.count_params (s : State) (sym : Nat) : (s.count sym).params = s.params := rfl
@[simp] theorem State.count_cmd (s : State) (sym : Nat) : (s.count sym).cmd = s.cmd := rfl
@[simp] theorem State.count_err (s : State) (sym : Nat) : (s.count sym).err = s.err := rfl
@[simp] theorem State.count_engine (s : State) (sym : Nat) : (s.count sym).engine = s.engine := rfl
@[simp] theorem State.count_fatal (s : State) (sym : Nat) : (s.count sym).fatal = s.fatal := rfl
@[simp] theorem State.count_resultKind (s : State) (sym : Nat) : (s.count sym).resultKind = s.resultKind := rfl
@[simp] theorem State.count_resultSym (s : State) (sym : Nat) : (s.count sym).resultSym = s.resultSym := rfl
@[simp] theorem State.count_countOut (s : State) (sym : Nat) : (s.count sym).countOut = s.countOut := rfl
@[simp] theorem State.count_codeLen (s : State) (sym : Nat) : (s.count sym).codeLen = s.codeLen := rfl
@[simp] theorem State.count_pathLen (s : State) (sym : Nat) : (s.count sym).pathLen = s.pathLen := rfl
@[simp] theorem State.count_inLen (s : State) (sym : Nat) : (s.count sym).inLen = s.inLen := rfl
@[simp] theorem State.count_inPos (s : State) (sym : Nat) : (s.count sym).inPos = s.inPos := rfl
@[simp] theorem State.count_valKey (s : State) (sym : Nat) : (s.count sym).valKey = s.valKey := rfl
@[simp] theorem State.count_valKind (s : State) (sym : Nat) : (s.count sym).valKind = s.valKind := rfl
@[simp] theorem State.count_valDepth (s : State) (sym : Nat) : (s.count sym).valDepth = s.valDepth := rfl
@[simp] theorem State.count_valWeightLo (s : State) (sym : Nat) : (s.count sym).valWeightLo = s.valWeightLo := rfl
@[simp] theorem State.count_valWeightHi (s : State) (sym : Nat) : (s.count sym).valWeightHi = s.valWeightHi := rfl
@[simp] theorem State.count_codeBits (s : State) (sym : Nat) : (s.count sym).codeBits = s.codeBits := rfl
@[simp] theorem State.count_freq (s : State) (sym : Nat) :
    (s.count sym).freq = s.freq.set sym (s.countOf sym + 1#32) := rfl
@[simp] theorem State.count_node (s : State) (sym : Nat) :
    (s.count sym).node = buildTree (s.freq.set sym (s.countOf sym + 1#32)) := rfl
@[simp] theorem State.count_mem (s : State) (sym : Nat) : (s.count sym).mem = s.mem := rfl
@[simp] theorem State.count_host (s : State) (sym : Nat) : (s.count sym).host = s.host := rfl
@[simp] theorem State.count_reply (s : State) (sym : Nat) : (s.count sym).reply = s.reply := rfl
@[simp] theorem State.count_fresh (s : State) (sym : Nat) : (s.count sym).fresh = s.fresh := rfl

/-! ### State.emit -/

@[simp] theorem State.emit_params (s : State) (code : List Bool) : (s.emit code).params = s.params := rfl
@[simp] theorem State.emit_cmd (s : State) (code : List Bool) : (s.emit code).cmd = s.cmd := rfl
@[simp] theorem State.emit_err (s : State) (code : List Bool) : (s.emit code).err = s.err := rfl
@[simp] theorem State.emit_engine (s : State) (code : List Bool) : (s.emit code).engine = s.engine := rfl
@[simp] theorem State.emit_fatal (s : State) (code : List Bool) : (s.emit code).fatal = s.fatal := rfl
@[simp] theorem State.emit_resultKind (s : State) (code : List Bool) :
    (s.emit code).resultKind = s.resultKind := rfl
@[simp] theorem State.emit_resultSym (s : State) (code : List Bool) : (s.emit code).resultSym = s.resultSym := rfl
@[simp] theorem State.emit_countOut (s : State) (code : List Bool) : (s.emit code).countOut = s.countOut := rfl
@[simp] theorem State.emit_codeLen (s : State) (code : List Bool) :
    (s.emit code).codeLen = BitVec.ofNat 16 code.length := rfl
@[simp] theorem State.emit_pathLen (s : State) (code : List Bool) : (s.emit code).pathLen = s.pathLen := rfl
@[simp] theorem State.emit_inLen (s : State) (code : List Bool) : (s.emit code).inLen = s.inLen := rfl
@[simp] theorem State.emit_inPos (s : State) (code : List Bool) : (s.emit code).inPos = s.inPos := rfl
@[simp] theorem State.emit_valKey (s : State) (code : List Bool) : (s.emit code).valKey = s.valKey := rfl
@[simp] theorem State.emit_valKind (s : State) (code : List Bool) : (s.emit code).valKind = s.valKind := rfl
@[simp] theorem State.emit_valDepth (s : State) (code : List Bool) : (s.emit code).valDepth = s.valDepth := rfl
@[simp] theorem State.emit_valWeightLo (s : State) (code : List Bool) :
    (s.emit code).valWeightLo = s.valWeightLo := rfl
@[simp] theorem State.emit_valWeightHi (s : State) (code : List Bool) :
    (s.emit code).valWeightHi = s.valWeightHi := rfl
@[simp] theorem State.emit_codeBits (s : State) (code : List Bool) :
    (s.emit code).codeBits = packWords s.params.codeWords code := rfl
@[simp] theorem State.emit_freq (s : State) (code : List Bool) : (s.emit code).freq = s.freq := rfl
@[simp] theorem State.emit_node (s : State) (code : List Bool) : (s.emit code).node = s.node := rfl
@[simp] theorem State.emit_mem (s : State) (code : List Bool) : (s.emit code).mem = s.mem := rfl
@[simp] theorem State.emit_host (s : State) (code : List Bool) : (s.emit code).host = s.host := rfl
@[simp] theorem State.emit_reply (s : State) (code : List Bool) : (s.emit code).reply = s.reply := rfl
@[simp] theorem State.emit_fresh (s : State) (code : List Bool) : (s.emit code).fresh = s.fresh := rfl

/-! ### State.reportNode -/

@[simp] theorem State.reportNode_params (s : State) (n : Nat) (r : Node) :
    (s.reportNode n r).params = s.params := rfl
@[simp] theorem State.reportNode_cmd (s : State) (n : Nat) (r : Node) : (s.reportNode n r).cmd = s.cmd := rfl
@[simp] theorem State.reportNode_err (s : State) (n : Nat) (r : Node) : (s.reportNode n r).err = s.err := rfl
@[simp] theorem State.reportNode_engine (s : State) (n : Nat) (r : Node) :
    (s.reportNode n r).engine = s.engine := rfl
@[simp] theorem State.reportNode_fatal (s : State) (n : Nat) (r : Node) : (s.reportNode n r).fatal = s.fatal := rfl
@[simp] theorem State.reportNode_resultKind (s : State) (n : Nat) (r : Node) :
    (s.reportNode n r).resultKind = s.resultKind := rfl
@[simp] theorem State.reportNode_resultSym (s : State) (n : Nat) (r : Node) :
    (s.reportNode n r).resultSym = s.resultSym := rfl
@[simp] theorem State.reportNode_countOut (s : State) (n : Nat) (r : Node) :
    (s.reportNode n r).countOut = s.countOut := rfl
@[simp] theorem State.reportNode_codeLen (s : State) (n : Nat) (r : Node) :
    (s.reportNode n r).codeLen = s.codeLen := rfl
@[simp] theorem State.reportNode_pathLen (s : State) (n : Nat) (r : Node) :
    (s.reportNode n r).pathLen = s.pathLen := rfl
@[simp] theorem State.reportNode_inLen (s : State) (n : Nat) (r : Node) : (s.reportNode n r).inLen = s.inLen := rfl
@[simp] theorem State.reportNode_inPos (s : State) (n : Nat) (r : Node) : (s.reportNode n r).inPos = s.inPos := rfl
@[simp] theorem State.reportNode_valKey (s : State) (n : Nat) (r : Node) :
    (s.reportNode n r).valKey = BitVec.ofNat 32 n := rfl
@[simp] theorem State.reportNode_valKind (s : State) (n : Nat) (r : Node) :
    (s.reportNode n r).valKind = valKindOf r.kind := rfl
@[simp] theorem State.reportNode_valDepth (s : State) (n : Nat) (r : Node) :
    (s.reportNode n r).valDepth = r.depth := rfl
@[simp] theorem State.reportNode_valWeightLo (s : State) (n : Nat) (r : Node) :
    (s.reportNode n r).valWeightLo = r.weight.extractLsb' 0 32 := rfl
@[simp] theorem State.reportNode_valWeightHi (s : State) (n : Nat) (r : Node) :
    (s.reportNode n r).valWeightHi = r.weight.extractLsb' 32 16 := rfl
@[simp] theorem State.reportNode_codeBits (s : State) (n : Nat) (r : Node) :
    (s.reportNode n r).codeBits = s.codeBits := rfl
@[simp] theorem State.reportNode_freq (s : State) (n : Nat) (r : Node) : (s.reportNode n r).freq = s.freq := rfl
@[simp] theorem State.reportNode_node (s : State) (n : Nat) (r : Node) : (s.reportNode n r).node = s.node := rfl
@[simp] theorem State.reportNode_mem (s : State) (n : Nat) (r : Node) : (s.reportNode n r).mem = s.mem := rfl
@[simp] theorem State.reportNode_host (s : State) (n : Nat) (r : Node) : (s.reportNode n r).host = s.host := rfl
@[simp] theorem State.reportNode_reply (s : State) (n : Nat) (r : Node) : (s.reportNode n r).reply = s.reply := rfl
@[simp] theorem State.reportNode_fresh (s : State) (n : Nat) (r : Node) : (s.reportNode n r).fresh = s.fresh := rfl

/-! ### State.decodedSymbol -/

@[simp] theorem State.decodedSymbol_params (s : State) (n p : Nat) : (s.decodedSymbol n p).params = s.params := rfl
@[simp] theorem State.decodedSymbol_cmd (s : State) (n p : Nat) : (s.decodedSymbol n p).cmd = s.cmd := rfl
@[simp] theorem State.decodedSymbol_err (s : State) (n p : Nat) : (s.decodedSymbol n p).err = s.err := rfl
@[simp] theorem State.decodedSymbol_engine (s : State) (n p : Nat) : (s.decodedSymbol n p).engine = s.engine := rfl
@[simp] theorem State.decodedSymbol_fatal (s : State) (n p : Nat) : (s.decodedSymbol n p).fatal = s.fatal := rfl
@[simp] theorem State.decodedSymbol_resultKind (s : State) (n p : Nat) :
    (s.decodedSymbol n p).resultKind = .symbol := rfl
@[simp] theorem State.decodedSymbol_resultSym (s : State) (n p : Nat) :
    (s.decodedSymbol n p).resultSym = BitVec.ofNat 16 n := rfl
@[simp] theorem State.decodedSymbol_countOut (s : State) (n p : Nat) :
    (s.decodedSymbol n p).countOut = s.countOut := rfl
@[simp] theorem State.decodedSymbol_codeLen (s : State) (n p : Nat) :
    (s.decodedSymbol n p).codeLen = s.codeLen := rfl
@[simp] theorem State.decodedSymbol_pathLen (s : State) (n p : Nat) :
    (s.decodedSymbol n p).pathLen = s.pathLen := rfl
@[simp] theorem State.decodedSymbol_inLen (s : State) (n p : Nat) : (s.decodedSymbol n p).inLen = s.inLen := rfl
@[simp] theorem State.decodedSymbol_inPos (s : State) (n p : Nat) :
    (s.decodedSymbol n p).inPos = BitVec.ofNat 32 p := rfl
@[simp] theorem State.decodedSymbol_valKey (s : State) (n p : Nat) : (s.decodedSymbol n p).valKey = s.valKey := rfl
@[simp] theorem State.decodedSymbol_valKind (s : State) (n p : Nat) :
    (s.decodedSymbol n p).valKind = s.valKind := rfl
@[simp] theorem State.decodedSymbol_valDepth (s : State) (n p : Nat) :
    (s.decodedSymbol n p).valDepth = s.valDepth := rfl
@[simp] theorem State.decodedSymbol_valWeightLo (s : State) (n p : Nat) :
    (s.decodedSymbol n p).valWeightLo = s.valWeightLo := rfl
@[simp] theorem State.decodedSymbol_valWeightHi (s : State) (n p : Nat) :
    (s.decodedSymbol n p).valWeightHi = s.valWeightHi := rfl
@[simp] theorem State.decodedSymbol_codeBits (s : State) (n p : Nat) :
    (s.decodedSymbol n p).codeBits = s.codeBits := rfl
@[simp] theorem State.decodedSymbol_freq (s : State) (n p : Nat) : (s.decodedSymbol n p).freq = s.freq := rfl
@[simp] theorem State.decodedSymbol_node (s : State) (n p : Nat) : (s.decodedSymbol n p).node = s.node := rfl
@[simp] theorem State.decodedSymbol_mem (s : State) (n p : Nat) : (s.decodedSymbol n p).mem = s.mem := rfl
@[simp] theorem State.decodedSymbol_host (s : State) (n p : Nat) : (s.decodedSymbol n p).host = s.host := rfl
@[simp] theorem State.decodedSymbol_reply (s : State) (n p : Nat) : (s.decodedSymbol n p).reply = s.reply := rfl
@[simp] theorem State.decodedSymbol_fresh (s : State) (n p : Nat) : (s.decodedSymbol n p).fresh = s.fresh := rfl

/-! ### State.decodedEof -/

@[simp] theorem State.decodedEof_params (s : State) : s.decodedEof.params = s.params := rfl
@[simp] theorem State.decodedEof_cmd (s : State) : s.decodedEof.cmd = s.cmd := rfl
@[simp] theorem State.decodedEof_err (s : State) : s.decodedEof.err = s.err := rfl
@[simp] theorem State.decodedEof_engine (s : State) : s.decodedEof.engine = s.engine := rfl
@[simp] theorem State.decodedEof_fatal (s : State) : s.decodedEof.fatal = s.fatal := rfl
@[simp] theorem State.decodedEof_resultKind (s : State) : s.decodedEof.resultKind = .endOfStream := rfl
@[simp] theorem State.decodedEof_resultSym (s : State) :
    s.decodedEof.resultSym = BitVec.ofNat 16 s.params.eofSym := rfl
@[simp] theorem State.decodedEof_countOut (s : State) : s.decodedEof.countOut = s.countOut := rfl
@[simp] theorem State.decodedEof_codeLen (s : State) : s.decodedEof.codeLen = s.codeLen := rfl
@[simp] theorem State.decodedEof_pathLen (s : State) : s.decodedEof.pathLen = s.pathLen := rfl
@[simp] theorem State.decodedEof_inLen (s : State) : s.decodedEof.inLen = s.inLen := rfl
@[simp] theorem State.decodedEof_inPos (s : State) : s.decodedEof.inPos = s.inLen := rfl
@[simp] theorem State.decodedEof_valKey (s : State) : s.decodedEof.valKey = s.valKey := rfl
@[simp] theorem State.decodedEof_valKind (s : State) : s.decodedEof.valKind = s.valKind := rfl
@[simp] theorem State.decodedEof_valDepth (s : State) : s.decodedEof.valDepth = s.valDepth := rfl
@[simp] theorem State.decodedEof_valWeightLo (s : State) : s.decodedEof.valWeightLo = s.valWeightLo := rfl
@[simp] theorem State.decodedEof_valWeightHi (s : State) : s.decodedEof.valWeightHi = s.valWeightHi := rfl
@[simp] theorem State.decodedEof_codeBits (s : State) : s.decodedEof.codeBits = s.codeBits := rfl
@[simp] theorem State.decodedEof_freq (s : State) : s.decodedEof.freq = s.freq := rfl
@[simp] theorem State.decodedEof_node (s : State) : s.decodedEof.node = s.node := rfl
@[simp] theorem State.decodedEof_mem (s : State) : s.decodedEof.mem = s.mem := rfl
@[simp] theorem State.decodedEof_host (s : State) : s.decodedEof.host = s.host := rfl
@[simp] theorem State.decodedEof_reply (s : State) : s.decodedEof.reply = s.reply := rfl
@[simp] theorem State.decodedEof_fresh (s : State) : s.decodedEof.fresh = s.fresh := rfl

/-! ### State.decodedTruncated -/

@[simp] theorem State.decodedTruncated_params (s : State) : s.decodedTruncated.params = s.params := rfl
@[simp] theorem State.decodedTruncated_cmd (s : State) : s.decodedTruncated.cmd = s.cmd := rfl
@[simp] theorem State.decodedTruncated_err (s : State) : s.decodedTruncated.err = s.err := rfl
@[simp] theorem State.decodedTruncated_engine (s : State) : s.decodedTruncated.engine = s.engine := rfl
@[simp] theorem State.decodedTruncated_fatal (s : State) : s.decodedTruncated.fatal = s.fatal := rfl
@[simp] theorem State.decodedTruncated_resultKind (s : State) : s.decodedTruncated.resultKind = .truncated := rfl
@[simp] theorem State.decodedTruncated_resultSym (s : State) : s.decodedTruncated.resultSym = s.resultSym := rfl
@[simp] theorem State.decodedTruncated_countOut (s : State) : s.decodedTruncated.countOut = s.countOut := rfl
@[simp] theorem State.decodedTruncated_codeLen (s : State) : s.decodedTruncated.codeLen = s.codeLen := rfl
@[simp] theorem State.decodedTruncated_pathLen (s : State) : s.decodedTruncated.pathLen = s.pathLen := rfl
@[simp] theorem State.decodedTruncated_inLen (s : State) : s.decodedTruncated.inLen = s.inLen := rfl
@[simp] theorem State.decodedTruncated_inPos (s : State) : s.decodedTruncated.inPos = s.inLen := rfl
@[simp] theorem State.decodedTruncated_valKey (s : State) : s.decodedTruncated.valKey = s.valKey := rfl
@[simp] theorem State.decodedTruncated_valKind (s : State) : s.decodedTruncated.valKind = s.valKind := rfl
@[simp] theorem State.decodedTruncated_valDepth (s : State) : s.decodedTruncated.valDepth = s.valDepth := rfl
@[simp] theorem State.decodedTruncated_valWeightLo (s : State) :
    s.decodedTruncated.valWeightLo = s.valWeightLo := rfl
@[simp] theorem State.decodedTruncated_valWeightHi (s : State) :
    s.decodedTruncated.valWeightHi = s.valWeightHi := rfl
@[simp] theorem State.decodedTruncated_codeBits (s : State) : s.decodedTruncated.codeBits = s.codeBits := rfl
@[simp] theorem State.decodedTruncated_freq (s : State) : s.decodedTruncated.freq = s.freq := rfl
@[simp] theorem State.decodedTruncated_node (s : State) : s.decodedTruncated.node = s.node := rfl
@[simp] theorem State.decodedTruncated_mem (s : State) : s.decodedTruncated.mem = s.mem := rfl
@[simp] theorem State.decodedTruncated_host (s : State) : s.decodedTruncated.host = s.host := rfl
@[simp] theorem State.decodedTruncated_reply (s : State) : s.decodedTruncated.reply = s.reply := rfl
@[simp] theorem State.decodedTruncated_fresh (s : State) : s.decodedTruncated.fresh = s.fresh := rfl

/-! ### State.finishResetBuild -/

@[simp] theorem State.finishResetBuild_params (s : State) : s.finishResetBuild.params = s.params := rfl
@[simp] theorem State.finishResetBuild_cmd (s : State) : s.finishResetBuild.cmd = s.cmd := rfl
@[simp] theorem State.finishResetBuild_err (s : State) : s.finishResetBuild.err = .ok := rfl
@[simp] theorem State.finishResetBuild_engine (s : State) : s.finishResetBuild.engine = .idle := rfl
@[simp] theorem State.finishResetBuild_fatal (s : State) : s.finishResetBuild.fatal = false := rfl
@[simp] theorem State.finishResetBuild_resultKind (s : State) : s.finishResetBuild.resultKind = s.resultKind := rfl
@[simp] theorem State.finishResetBuild_resultSym (s : State) : s.finishResetBuild.resultSym = s.resultSym := rfl
@[simp] theorem State.finishResetBuild_countOut (s : State) : s.finishResetBuild.countOut = s.countOut := rfl
@[simp] theorem State.finishResetBuild_codeLen (s : State) : s.finishResetBuild.codeLen = s.codeLen := rfl
@[simp] theorem State.finishResetBuild_pathLen (s : State) : s.finishResetBuild.pathLen = s.pathLen := rfl
@[simp] theorem State.finishResetBuild_inLen (s : State) : s.finishResetBuild.inLen = s.inLen := rfl
@[simp] theorem State.finishResetBuild_inPos (s : State) : s.finishResetBuild.inPos = s.inPos := rfl
@[simp] theorem State.finishResetBuild_valKey (s : State) : s.finishResetBuild.valKey = s.valKey := rfl
@[simp] theorem State.finishResetBuild_valKind (s : State) : s.finishResetBuild.valKind = s.valKind := rfl
@[simp] theorem State.finishResetBuild_valDepth (s : State) : s.finishResetBuild.valDepth = s.valDepth := rfl
@[simp] theorem State.finishResetBuild_valWeightLo (s : State) :
    s.finishResetBuild.valWeightLo = s.valWeightLo := rfl
@[simp] theorem State.finishResetBuild_valWeightHi (s : State) :
    s.finishResetBuild.valWeightHi = s.valWeightHi := rfl
@[simp] theorem State.finishResetBuild_codeBits (s : State) : s.finishResetBuild.codeBits = s.codeBits := rfl
@[simp] theorem State.finishResetBuild_freq (s : State) : s.finishResetBuild.freq = initialFreq s.params := rfl
@[simp] theorem State.finishResetBuild_node (s : State) :
    s.finishResetBuild.node = buildTree (initialFreq s.params) := rfl
@[simp] theorem State.finishResetBuild_mem (s : State) : s.finishResetBuild.mem = s.mem := rfl
@[simp] theorem State.finishResetBuild_host (s : State) : s.finishResetBuild.host = s.host := rfl
@[simp] theorem State.finishResetBuild_reply (s : State) : s.finishResetBuild.reply = s.reply := rfl
@[simp] theorem State.finishResetBuild_fresh (s : State) : s.finishResetBuild.fresh = s.fresh := rfl

/-! ### State.assertReset -/

@[simp] theorem State.assertReset_params (s : State) : s.assertReset.params = s.params := rfl
@[simp] theorem State.assertReset_cmd (s : State) : s.assertReset.cmd = 0#32 := rfl
@[simp] theorem State.assertReset_err (s : State) : s.assertReset.err = .ok := rfl
@[simp] theorem State.assertReset_engine (s : State) : s.assertReset.engine = .resetBuild := rfl
@[simp] theorem State.assertReset_fatal (s : State) : s.assertReset.fatal = false := rfl
@[simp] theorem State.assertReset_resultKind (s : State) : s.assertReset.resultKind = .none := rfl
@[simp] theorem State.assertReset_resultSym (s : State) : s.assertReset.resultSym = 0#16 := rfl
@[simp] theorem State.assertReset_countOut (s : State) : s.assertReset.countOut = 0#32 := rfl
@[simp] theorem State.assertReset_codeLen (s : State) : s.assertReset.codeLen = 0#16 := rfl
@[simp] theorem State.assertReset_pathLen (s : State) : s.assertReset.pathLen = 0#32 := rfl
@[simp] theorem State.assertReset_inLen (s : State) : s.assertReset.inLen = 0#32 := rfl
@[simp] theorem State.assertReset_inPos (s : State) : s.assertReset.inPos = 0#32 := rfl
@[simp] theorem State.assertReset_valKey (s : State) : s.assertReset.valKey = 0#32 := rfl
@[simp] theorem State.assertReset_valKind (s : State) : s.assertReset.valKind = .none := rfl
@[simp] theorem State.assertReset_valDepth (s : State) : s.assertReset.valDepth = 0#16 := rfl
@[simp] theorem State.assertReset_valWeightLo (s : State) : s.assertReset.valWeightLo = 0#32 := rfl
@[simp] theorem State.assertReset_valWeightHi (s : State) : s.assertReset.valWeightHi = 0#16 := rfl
@[simp] theorem State.assertReset_codeBits (s : State) :
    s.assertReset.codeBits = List.replicate s.params.codeWords 0#32 := rfl
@[simp] theorem State.assertReset_freq (s : State) : s.assertReset.freq = s.freq := rfl
@[simp] theorem State.assertReset_node (s : State) : s.assertReset.node = s.node := rfl
@[simp] theorem State.assertReset_mem (s : State) : s.assertReset.mem = [] := rfl
@[simp] theorem State.assertReset_host (s : State) : s.assertReset.host = s.host := rfl
@[simp] theorem State.assertReset_reply (s : State) : s.assertReset.reply = s.reply := rfl
@[simp] theorem State.assertReset_fresh (s : State) : s.assertReset.fresh = s.fresh := rfl

/-! ### issueWord -/

@[simp] theorem issueWord_params (s : State) (w : Word) : (issueWord s w).params = s.params := rfl
@[simp] theorem issueWord_cmd (s : State) (w : Word) : (issueWord s w).cmd = w := rfl
@[simp] theorem issueWord_err (s : State) (w : Word) : (issueWord s w).err = s.err := rfl
@[simp] theorem issueWord_engine (s : State) (w : Word) : (issueWord s w).engine = .command := rfl
@[simp] theorem issueWord_fatal (s : State) (w : Word) : (issueWord s w).fatal = s.fatal := rfl
@[simp] theorem issueWord_resultKind (s : State) (w : Word) : (issueWord s w).resultKind = s.resultKind := rfl
@[simp] theorem issueWord_resultSym (s : State) (w : Word) : (issueWord s w).resultSym = s.resultSym := rfl
@[simp] theorem issueWord_countOut (s : State) (w : Word) : (issueWord s w).countOut = s.countOut := rfl
@[simp] theorem issueWord_codeLen (s : State) (w : Word) : (issueWord s w).codeLen = s.codeLen := rfl
@[simp] theorem issueWord_pathLen (s : State) (w : Word) : (issueWord s w).pathLen = s.pathLen := rfl
@[simp] theorem issueWord_inLen (s : State) (w : Word) : (issueWord s w).inLen = s.inLen := rfl
@[simp] theorem issueWord_inPos (s : State) (w : Word) : (issueWord s w).inPos = s.inPos := rfl
@[simp] theorem issueWord_valKey (s : State) (w : Word) : (issueWord s w).valKey = s.valKey := rfl
@[simp] theorem issueWord_valKind (s : State) (w : Word) : (issueWord s w).valKind = s.valKind := rfl
@[simp] theorem issueWord_valDepth (s : State) (w : Word) : (issueWord s w).valDepth = s.valDepth := rfl
@[simp] theorem issueWord_valWeightLo (s : State) (w : Word) : (issueWord s w).valWeightLo = s.valWeightLo := rfl
@[simp] theorem issueWord_valWeightHi (s : State) (w : Word) : (issueWord s w).valWeightHi = s.valWeightHi := rfl
@[simp] theorem issueWord_codeBits (s : State) (w : Word) : (issueWord s w).codeBits = s.codeBits := rfl
@[simp] theorem issueWord_freq (s : State) (w : Word) : (issueWord s w).freq = s.freq := rfl
@[simp] theorem issueWord_node (s : State) (w : Word) : (issueWord s w).node = s.node := rfl
@[simp] theorem issueWord_mem (s : State) (w : Word) : (issueWord s w).mem = s.mem := rfl
@[simp] theorem issueWord_host (s : State) (w : Word) : (issueWord s w).host = deferOldest s.host := rfl
@[simp] theorem issueWord_reply (s : State) (w : Word) : (issueWord s w).reply = s.reply := rfl
@[simp] theorem issueWord_fresh (s : State) (w : Word) : (issueWord s w).fresh = s.fresh := rfl

/-! ### The bus: reads and writes leave what they do not name -/

@[simp] theorem State.answerRead_params (s : State) (l : Location) : (s.answerRead l).params = s.params := by
  unfold State.answerRead; split
  · rfl
  · split <;> rfl
@[simp] theorem State.answerRead_cmd (s : State) (l : Location) : (s.answerRead l).cmd = s.cmd := by
  unfold State.answerRead; split
  · rfl
  · split <;> rfl
@[simp] theorem State.answerRead_err (s : State) (l : Location) : (s.answerRead l).err = s.err := by
  unfold State.answerRead; split
  · rfl
  · split <;> rfl
@[simp] theorem State.answerRead_engine (s : State) (l : Location) : (s.answerRead l).engine = s.engine := by
  unfold State.answerRead; split
  · rfl
  · split <;> rfl
@[simp] theorem State.answerRead_fatal (s : State) (l : Location) : (s.answerRead l).fatal = s.fatal := by
  unfold State.answerRead; split
  · rfl
  · split <;> rfl
@[simp] theorem State.answerRead_resultKind (s : State) (l : Location) : (s.answerRead l).resultKind = s.resultKind := by
  unfold State.answerRead; split
  · rfl
  · split <;> rfl
@[simp] theorem State.answerRead_resultSym (s : State) (l : Location) : (s.answerRead l).resultSym = s.resultSym := by
  unfold State.answerRead; split
  · rfl
  · split <;> rfl
@[simp] theorem State.answerRead_countOut (s : State) (l : Location) : (s.answerRead l).countOut = s.countOut := by
  unfold State.answerRead; split
  · rfl
  · split <;> rfl
@[simp] theorem State.answerRead_codeLen (s : State) (l : Location) : (s.answerRead l).codeLen = s.codeLen := by
  unfold State.answerRead; split
  · rfl
  · split <;> rfl
@[simp] theorem State.answerRead_pathLen (s : State) (l : Location) : (s.answerRead l).pathLen = s.pathLen := by
  unfold State.answerRead; split
  · rfl
  · split <;> rfl
@[simp] theorem State.answerRead_inLen (s : State) (l : Location) : (s.answerRead l).inLen = s.inLen := by
  unfold State.answerRead; split
  · rfl
  · split <;> rfl
@[simp] theorem State.answerRead_inPos (s : State) (l : Location) : (s.answerRead l).inPos = s.inPos := by
  unfold State.answerRead; split
  · rfl
  · split <;> rfl
@[simp] theorem State.answerRead_valKey (s : State) (l : Location) : (s.answerRead l).valKey = s.valKey := by
  unfold State.answerRead; split
  · rfl
  · split <;> rfl
@[simp] theorem State.answerRead_valKind (s : State) (l : Location) : (s.answerRead l).valKind = s.valKind := by
  unfold State.answerRead; split
  · rfl
  · split <;> rfl
@[simp] theorem State.answerRead_valDepth (s : State) (l : Location) : (s.answerRead l).valDepth = s.valDepth := by
  unfold State.answerRead; split
  · rfl
  · split <;> rfl
@[simp] theorem State.answerRead_valWeightLo (s : State) (l : Location) : (s.answerRead l).valWeightLo = s.valWeightLo := by
  unfold State.answerRead; split
  · rfl
  · split <;> rfl
@[simp] theorem State.answerRead_valWeightHi (s : State) (l : Location) : (s.answerRead l).valWeightHi = s.valWeightHi := by
  unfold State.answerRead; split
  · rfl
  · split <;> rfl
@[simp] theorem State.answerRead_codeBits (s : State) (l : Location) : (s.answerRead l).codeBits = s.codeBits := by
  unfold State.answerRead; split
  · rfl
  · split <;> rfl
@[simp] theorem State.answerRead_freq (s : State) (l : Location) : (s.answerRead l).freq = s.freq := by
  unfold State.answerRead; split
  · rfl
  · split <;> rfl
@[simp] theorem State.answerRead_node (s : State) (l : Location) : (s.answerRead l).node = s.node := by
  unfold State.answerRead; split
  · rfl
  · split <;> rfl
@[simp] theorem State.answerRead_mem (s : State) (l : Location) : (s.answerRead l).mem = s.mem := by
  unfold State.answerRead; split
  · rfl
  · split <;> rfl
@[simp] theorem State.answerRead_host (s : State) (l : Location) : (s.answerRead l).host = s.host := by
  unfold State.answerRead; split
  · rfl
  · split <;> rfl
@[simp] theorem State.acceptWrite_params (s : State) (l : Location) (w : Word) :
    (s.acceptWrite l w).params = s.params := by
  cases l with
  | register r => cases r <;> rfl
  | _ => rfl
@[simp] theorem State.acceptWrite_err (s : State) (l : Location) (w : Word) :
    (s.acceptWrite l w).err = s.err := by
  cases l with
  | register r => cases r <;> rfl
  | _ => rfl
@[simp] theorem State.acceptWrite_fatal (s : State) (l : Location) (w : Word) :
    (s.acceptWrite l w).fatal = s.fatal := by
  cases l with
  | register r => cases r <;> rfl
  | _ => rfl
@[simp] theorem State.acceptWrite_resultKind (s : State) (l : Location) (w : Word) :
    (s.acceptWrite l w).resultKind = s.resultKind := by
  cases l with
  | register r => cases r <;> rfl
  | _ => rfl
@[simp] theorem State.acceptWrite_resultSym (s : State) (l : Location) (w : Word) :
    (s.acceptWrite l w).resultSym = s.resultSym := by
  cases l with
  | register r => cases r <;> rfl
  | _ => rfl
@[simp] theorem State.acceptWrite_countOut (s : State) (l : Location) (w : Word) :
    (s.acceptWrite l w).countOut = s.countOut := by
  cases l with
  | register r => cases r <;> rfl
  | _ => rfl
@[simp] theorem State.acceptWrite_codeLen (s : State) (l : Location) (w : Word) :
    (s.acceptWrite l w).codeLen = s.codeLen := by
  cases l with
  | register r => cases r <;> rfl
  | _ => rfl
@[simp] theorem State.acceptWrite_valKey (s : State) (l : Location) (w : Word) :
    (s.acceptWrite l w).valKey = s.valKey := by
  cases l with
  | register r => cases r <;> rfl
  | _ => rfl
@[simp] theorem State.acceptWrite_valKind (s : State) (l : Location) (w : Word) :
    (s.acceptWrite l w).valKind = s.valKind := by
  cases l with
  | register r => cases r <;> rfl
  | _ => rfl
@[simp] theorem State.acceptWrite_valDepth (s : State) (l : Location) (w : Word) :
    (s.acceptWrite l w).valDepth = s.valDepth := by
  cases l with
  | register r => cases r <;> rfl
  | _ => rfl
@[simp] theorem State.acceptWrite_valWeightLo (s : State) (l : Location) (w : Word) :
    (s.acceptWrite l w).valWeightLo = s.valWeightLo := by
  cases l with
  | register r => cases r <;> rfl
  | _ => rfl
@[simp] theorem State.acceptWrite_valWeightHi (s : State) (l : Location) (w : Word) :
    (s.acceptWrite l w).valWeightHi = s.valWeightHi := by
  cases l with
  | register r => cases r <;> rfl
  | _ => rfl
@[simp] theorem State.acceptWrite_codeBits (s : State) (l : Location) (w : Word) :
    (s.acceptWrite l w).codeBits = s.codeBits := by
  cases l with
  | register r => cases r <;> rfl
  | _ => rfl
@[simp] theorem State.acceptWrite_freq (s : State) (l : Location) (w : Word) :
    (s.acceptWrite l w).freq = s.freq := by
  cases l with
  | register r => cases r <;> rfl
  | _ => rfl
@[simp] theorem State.acceptWrite_node (s : State) (l : Location) (w : Word) :
    (s.acceptWrite l w).node = s.node := by
  cases l with
  | register r => cases r <;> rfl
  | _ => rfl
@[simp] theorem State.acceptWrite_host (s : State) (l : Location) (w : Word) :
    (s.acceptWrite l w).host = s.host := by
  cases l with
  | register r => cases r <;> rfl
  | _ => rfl
@[simp] theorem State.acceptWrite_reply (s : State) (l : Location) (w : Word) :
    (s.acceptWrite l w).reply = s.reply := by
  cases l with
  | register r => cases r <;> rfl
  | _ => rfl
@[simp] theorem State.acceptWrite_fresh (s : State) (l : Location) (w : Word) :
    (s.acceptWrite l w).fresh = s.fresh := by
  cases l with
  | register r => cases r <;> rfl
  | _ => rfl

end Sys2Proof.Machine
end

