-- ==== Sys2Proof/Laws/Exec.lean ====
section
/-! SUPPORT. Everything a command and a step can do, said once: later proofs cite these inversions and unfold neither a
meaning nor the step (60_exceptions.md R201, R202; 20_memory.md R54). -/

namespace Sys2Proof.Machine

/-- The recoverable errors of each command that write ERR and nothing else (60_exceptions.md R201, R202). -/
def plainErrorsOf : Instr → List ErrCode
  | .nop => [.faulted]
  | .init => []
  | .observe _ => [.faulted, .invalidSymbol, .eofNotObservable, .countOverflow]
  | .encode _ => [.faulted, .invalidSymbol]
  | .eofcode => [.faulted]
  | .decode => [.faulted, .cursorRange]
  | .getcount _ => [.faulted, .invalidSymbol]
  | .valueat => [.faulted, .invalidPath]

theorem ok_not_plain (i : Instr) : ErrCode.ok ∉ plainErrorsOf i := by cases i <;> simp [plainErrorsOf]

/-- Every way a command goes on to a next state. -/
inductive Effect (s : State) : Instr → State → Prop where
  /-- A recoverable error: ERR and BUSY alone are written (60_exceptions.md R201). -/
  | raised (i : Instr) (e : ErrCode) (listed : e ∈ plainErrorsOf i) : Effect s i (s.raise e)
  | nop (up : s.fatal = false) : Effect s .nop s.done
  | init : Effect s .init { s.initEngine with fatal := false }.done
  | observe (sym : Nat) (up : s.fatal = false) (inRange : sym < s.params.alphabet)
      (data : sym ≠ s.params.eofSym) (room : s.countOf sym ≠ 0xFFFFFFFF#32) :
      Effect s (.observe sym) (s.count sym).done
  | getcount (sym : Nat) (up : s.fatal = false) (inRange : sym < s.params.alphabet) :
      Effect s (.getcount sym) { s with countOut := s.countOf sym }.done
  | encode (sym : Nat) (code : List Bool) (up : s.fatal = false) (inRange : sym < s.params.alphabet)
      (found : s.codeOf sym = some code) : Effect s (.encode sym) (s.emit code).done
  | encodeLost (sym : Nat) (up : s.fatal = false) (inRange : sym < s.params.alphabet)
      (lost : s.codeOf sym = none) : Effect s (.encode sym) (s.raiseFatal .notFound)
  | eofcode (code : List Bool) (up : s.fatal = false) (found : s.codeOf s.params.eofSym = some code) :
      Effect s .eofcode (s.emit code).done
  | eofcodeLost (up : s.fatal = false) (lost : s.codeOf s.params.eofSym = none) :
      Effect s .eofcode (s.raiseFatal .notFound)
  | decodeSymbol (n p : Nat) (up : s.fatal = false) (cap : s.inLen.toNat ≤ s.params.inCap)
      (cursor : s.inPos.toNat ≤ s.inLen.toNat)
      (found : decodeLoop s (s.inLen.toNat - s.inPos.toNat) s.inPos.toNat s.params.root = .leaf n p)
      (data : n ≠ s.params.eofSym) : Effect s .decode (s.decodedSymbol n p).done
  | decodeEof (p : Nat) (up : s.fatal = false) (cap : s.inLen.toNat ≤ s.params.inCap)
      (cursor : s.inPos.toNat ≤ s.inLen.toNat)
      (found : decodeLoop s (s.inLen.toNat - s.inPos.toNat) s.inPos.toNat s.params.root =
        .leaf s.params.eofSym p) : Effect s .decode s.decodedEof.done
  | decodeTruncated (up : s.fatal = false) (cap : s.inLen.toNat ≤ s.params.inCap)
      (cursor : s.inPos.toNat ≤ s.inLen.toNat)
      (ended : decodeLoop s (s.inLen.toNat - s.inPos.toNat) s.inPos.toNat s.params.root = .truncated) :
      Effect s .decode (s.decodedTruncated.raise .truncatedStream)
  | decodeBroken (up : s.fatal = false) (cap : s.inLen.toNat ≤ s.params.inCap)
      (cursor : s.inPos.toNat ≤ s.inLen.toNat)
      (broken : decodeLoop s (s.inLen.toNat - s.inPos.toNat) s.inPos.toNat s.params.root = .broken) :
      Effect s .decode (s.raiseFatal .invalidPath)
  | valueat (path : List Bool) (n : Nat) (r : Node) (up : s.fatal = false)
      (short : s.pathLen.toNat ≤ s.params.maxLen) (operand : pathOperand s s.pathLen.toNat 0 = .ok path)
      (found : walk s.params s.node path = some n) (record : s.node[n]? = some r) :
      Effect s .valueat (s.reportNode n r).done

theorem unlessFaulted_next {s t : State} {i : Instr} {run : State → Result} (listed : .faulted ∈ plainErrorsOf i)
    (h : unlessFaulted s run = .next t) (k : s.fatal = false → run s = .next t → Effect s i t) : Effect s i t := by
  unfold unlessFaulted at h
  split at h
  · injection h with h; subst h; exact .raised _ _ listed
  · exact k (by simpa using ‹¬ s.fatal = true›) h

theorem execNop_effect {s t : State} (h : execNop s = .next t) : Effect s .nop t := by
  refine unlessFaulted_next (by simp [plainErrorsOf]) h fun up h => ?_
  injection h with h; subst h; exact .nop up

theorem execInit_effect {s t : State} (h : execInit s = .next t) : Effect s .init t := by
  injection h with h; subst h; exact .init

theorem execObserve_effect {s t : State} {sym : Nat} (h : execObserve sym s = .next t) :
    Effect s (.observe sym) t := by
  refine unlessFaulted_next (by simp [plainErrorsOf]) h fun up h => ?_
  split at h
  · injection h with h; subst h; exact .raised _ _ (by simp [plainErrorsOf])
  · split at h
    · injection h with h; subst h; exact .raised _ _ (by simp [plainErrorsOf])
    · split at h
      · injection h with h; subst h; exact .raised _ _ (by simp [plainErrorsOf])
      · injection h with h; subst h; exact .observe sym up (by omega) ‹_› ‹_›

theorem execGetcount_effect {s t : State} {sym : Nat} (h : execGetcount sym s = .next t) :
    Effect s (.getcount sym) t := by
  refine unlessFaulted_next (by simp [plainErrorsOf]) h fun up h => ?_
  split at h
  · injection h with h; subst h; exact .raised _ _ (by simp [plainErrorsOf])
  · injection h with h; subst h; exact .getcount sym up (by omega)

theorem execEncode_effect {s t : State} {sym : Nat} (h : execEncode sym s = .next t) :
    Effect s (.encode sym) t := by
  refine unlessFaulted_next (by simp [plainErrorsOf]) h fun up h => ?_
  split at h
  · injection h with h; subst h; exact .raised _ _ (by simp [plainErrorsOf])
  · unfold emitCode at h
    split at h
    · injection h with h; subst h; exact .encodeLost sym up (by omega) ‹_›
    · injection h with h; subst h; exact .encode sym _ up (by omega) ‹_›

theorem execEofcode_effect {s t : State} (h : execEofcode s = .next t) : Effect s .eofcode t := by
  refine unlessFaulted_next (by simp [plainErrorsOf]) h fun up h => ?_
  unfold emitCode at h
  split at h
  · injection h with h; subst h; exact .eofcodeLost up ‹_›
  · injection h with h; subst h; exact .eofcode _ up ‹_›

theorem execDecode_effect {s t : State} (h : execDecode s = .next t) : Effect s .decode t := by
  refine unlessFaulted_next (by simp [plainErrorsOf]) h fun up h => ?_
  split at h
  · injection h with h; subst h; exact .raised _ _ (by simp [plainErrorsOf])
  · have hb : s.inLen.toNat ≤ s.params.inCap ∧ s.inPos.toNat ≤ s.inLen.toNat := by omega
    split at h
    · injection h with h; subst h; exact .decodeTruncated up hb.1 hb.2 ‹_›
    · cases h
    · injection h with h; subst h; exact .decodeBroken up hb.1 hb.2 ‹_›
    · split at h
      · rename_i n p hd heq
        subst heq
        injection h with h; subst h; exact .decodeEof p up hb.1 hb.2 hd
      · injection h with h; subst h; exact .decodeSymbol _ _ up hb.1 hb.2 ‹_› ‹_›

theorem execValueat_effect {s t : State} (h : execValueat s = .next t) : Effect s .valueat t := by
  refine unlessFaulted_next (by simp [plainErrorsOf]) h fun up h => ?_
  split at h
  · injection h with h; subst h; exact .raised _ _ (by simp [plainErrorsOf])
  · split at h
    · cases h
    · split at h
      · injection h with h; subst h; exact .raised _ _ (by simp [plainErrorsOf])
      · split at h
        · injection h with h; subst h; exact .raised _ _ (by simp [plainErrorsOf])
        · injection h with h; subst h; exact .valueat _ _ _ up (by omega) ‹_› ‹_› ‹_›

/-- A command that goes on has one of the effects listed. -/
theorem exec_effect {i : Instr} {s t : State} (h : exec i s = .next t) : Effect s i t := by
  cases i with
  | nop => exact execNop_effect h
  | init => exact execInit_effect h
  | observe sym => exact execObserve_effect h
  | encode sym => exact execEncode_effect h
  | eofcode => exact execEofcode_effect h
  | decode => exact execDecode_effect h
  | getcount sym => exact execGetcount_effect h
  | valueat => exact execValueat_effect h

/-- A host access that goes on: a reset, a read that is answered, or a write accepted while BUSY = 0. -/
theorem hostAccess_next {a : HostAccess} {s t : State} (h : hostAccess a s = .next t) :
    (a = .reset ∧ t = s.assertReset) ∨
    (∃ offset, a = .read 4 offset ∧ offset.toNat % 4 = 0 ∧ t = s.answerRead (locate s.params offset)) ∨
    (∃ offset w, a = .write 4 offset w ∧ offset.toNat % 4 = 0 ∧ s.busy = false ∧
      t = s.acceptWrite (locate s.params offset) w) := by
  cases a with
  | reset => injection h with h; exact .inl ⟨rfl, h.symm⟩
  | read bytes offset =>
    simp only [hostAccess] at h
    split at h
    · rename_i al
      obtain ⟨rfl, al⟩ := al
      injection h with h; exact .inr (.inl ⟨offset, rfl, al, h.symm⟩)
    · cases h
  | write bytes offset w =>
    simp only [hostAccess] at h
    split at h
    · rename_i al
      obtain ⟨rfl, al⟩ := al
      split at h
      · cases h
      · injection h with h; exact .inr (.inr ⟨offset, w, rfl, al, by simpa using ‹¬ s.busy = true›, h.symm⟩)
    · cases h

/-- While the engine is busy and no host step is presented early, the engine moves. -/
theorem agentStep_busy {s : State} (busy : s.busy = true) (waits : s.hostWaits) : agentStep s = engineStep s := by
  unfold agentStep
  cases hh : s.host with
  | nil => rfl
  | cons h later => simp [busy, waits h (by simp [hh])]

/-- The running command word, and what it does. -/
theorem runCommand_next {s t : State} (h : runCommand s = .next t) :
    (∃ e, decodeCmd s.cmd = .error e ∧ t = s.raise .illegalCommand) ∨
    (∃ i, decodeCmd s.cmd = .ok i ∧ exec i s = .next t) := by
  unfold runCommand at h
  split at h
  · injection h with h; exact .inl ⟨_, ‹_›, h.symm⟩
  · exact .inr ⟨_, ‹_›, h⟩

/-- A step that goes on is one of: an idle machine with nothing pending, a command, the end of the reset build, a host
access taken off the pending list. -/
theorem step_next {s t : State} (h : step s = .next t) :
    (s.engine = .idle ∧ s.host = [] ∧ t = s) ∨
    (s.engine = .command ∧ runCommand s = .next t) ∨
    (s.engine = .resetBuild ∧ t = s.finishResetBuild) ∨
    (∃ a later, s.host = a :: later ∧ hostAccess a.access { s with host := later } = .next t) := by
  have engine : engineStep s = .next t → (s.engine = .idle ∧ t = s) ∨
      (s.engine = .command ∧ runCommand s = .next t) ∨ (s.engine = .resetBuild ∧ t = s.finishResetBuild) := by
    intro h
    unfold engineStep at h
    split at h
    · injection h with h; exact .inl ⟨‹_›, h.symm⟩
    · exact .inr (.inl ⟨‹_›, h⟩)
    · injection h with h; exact .inr (.inr ⟨‹_›, h.symm⟩)
  unfold step agentStep at h
  cases hh : s.host with
  | nil =>
    rw [hh] at h
    rcases engine h with ⟨h1, h2⟩ | h1 | h1
    · exact .inl ⟨h1, rfl, h2⟩
    · exact .inr (.inl h1)
    · exact .inr (.inr (.inl h1))
  | cons a later =>
    rw [hh] at h
    simp only at h
    split at h
    · rename_i hb
      rcases engine h with ⟨h1, -⟩ | h1 | h1
      · simp [State.busy, h1] at hb
      · exact .inr (.inl h1)
      · exact .inr (.inr (.inl h1))
    · exact .inr (.inr (.inr ⟨a, later, rfl, h⟩))

end Sys2Proof.Machine
end

