-- ==== Sys2Proof/Laws/Memory.lean ====
section
/-! SUPPORT. The laws of the buffer memory: read after write, canonical form, words (20_memory.md R51, R54). -/

namespace Sys2Proof.Machine

theorem Memory.readByte_writeByte_same (m : Memory) (a : Nat) (b : Byte) :
    Memory.readByte (Memory.writeByte m a b) a = some b := by
  induction m with
  | nil => simp [Memory.writeByte, Memory.readByte]
  | cons c m ih =>
    simp only [Memory.writeByte]
    split
    · simp [Memory.readByte]
    · split
      · simp [Memory.readByte]
      · simp [Memory.readByte, *]

theorem Memory.readByte_writeByte_other (m : Memory) {a a' : Nat} (b : Byte) (ne : a' ≠ a) :
    Memory.readByte (Memory.writeByte m a b) a' = Memory.readByte m a' := by
  induction m with
  | nil => simp [Memory.writeByte, Memory.readByte, ne.symm]
  | cons c m ih =>
    simp only [Memory.writeByte]
    split
    · simp [Memory.readByte, ne.symm]
    · split
      · rename_i h; simp [Memory.readByte, h, ne.symm]
      · simp only [Memory.readByte, ih]

theorem Memory.readByte_writeByte (m : Memory) (a a' : Nat) (b : Byte) :
    Memory.readByte (Memory.writeByte m a b) a' = if a' = a then some b else Memory.readByte m a' := by
  split
  · subst_vars; exact readByte_writeByte_same ..
  · exact readByte_writeByte_other _ _ ‹_›

/-- The cells after a byte store are the new one and old ones. -/
theorem Memory.mem_writeByte {m : Memory} {a : Nat} {b : Byte} {c : Host.Cell}
    (h : c ∈ Memory.writeByte m a b) : c = (a, b) ∨ c ∈ m := by
  induction m with
  | nil => simpa [Memory.writeByte] using h
  | cons d m ih =>
    simp only [Memory.writeByte] at h
    split at h
    · simpa using h
    · split at h
      · rcases List.mem_cons.mp h with h | h <;> simp [h]
      · rcases List.mem_cons.mp h with h | h
        · simp [h]
        · rcases ih h with h | h <;> simp [h]

/-- A byte store keeps the canonical form. -/
theorem Memory.writeByte_wf {m : Memory} (h : Memory.wf m) (a : Nat) (b : Byte) :
    Memory.wf (Memory.writeByte m a b) := by
  refine ⟨?_, fun c _ => by simp [Memory.unlisted]⟩
  replace h := h.1
  induction m with
  | nil => simp [Memory.writeByte]
  | cons c m ih =>
    obtain ⟨hc, hm⟩ := List.pairwise_cons.mp h
    simp only [Memory.writeByte]
    split
    · refine List.pairwise_cons.mpr ⟨fun d hd => ?_, h⟩
      rcases List.mem_cons.mp hd with rfl | hd
      · assumption
      · have := hc d hd; simp only; omega
    · split
      · rename_i heq
        refine List.pairwise_cons.mpr ⟨fun d hd => ?_, hm⟩
        have := hc d hd; simp only; omega
      · refine List.pairwise_cons.mpr ⟨fun d hd => ?_, ih hm⟩
        rcases Memory.mem_writeByte hd with rfl | hd
        · simp only; omega
        · exact hc d hd

/-- A word store keeps the canonical form. -/
theorem Memory.writeWord_wf {m : Memory} (h : Memory.wf m) (a : Nat) (w : Word) :
    Memory.wf (Memory.writeWord m a w) :=
  writeByte_wf (writeByte_wf (writeByte_wf (writeByte_wf h _ _) _ _) _ _) _ _

/-- A byte after a word store: one of the word's four bytes, or as before. -/
theorem Memory.readByte_writeWord (m : Memory) (a a' : Nat) (w : Word) :
    Memory.readByte (Memory.writeWord m a w) a' =
      if a ≤ a' ∧ a' < a + 4 then some (byteOfWord w (a' - a)) else Memory.readByte m a' := by
  simp only [Memory.writeWord, Memory.readByte_writeByte]
  by_cases h3 : a' = a + 3
  · simp [h3]
  · by_cases h2 : a' = a + 2
    · simp [h2]
    · by_cases h1 : a' = a + 1
      · simp [h1]
      · by_cases h0 : a' = a
        · simp [h0]
        · rw [if_neg h3, if_neg h2, if_neg h1, if_neg h0, if_neg (by omega)]

/-- The bytes of a word give the word back (20_memory.md R51). -/
theorem wordOfBytes_byteOfWord (w : Word) :
    wordOfBytes (byteOfWord w 0) (byteOfWord w 1) (byteOfWord w 2) (byteOfWord w 3) = w := by
  apply BitVec.eq_of_getLsbD_eq
  intro i hi
  simp only [wordOfBytes, byteOfWord, BitVec.getLsbD_append, BitVec.getLsbD_extractLsb']
  by_cases h0 : i < 8
  · simp [h0]
  · by_cases h1 : i < 16
    · simp [h0, show i - 8 < 8 by omega, show 8 + (i - 8) = i by omega]
    · by_cases h2 : i < 24
      · simp [h0, show ¬ i - 8 < 8 by omega, show i - 8 - 8 < 8 by omega, show 16 + (i - 8 - 8) = i by omega]
      · simp [h0, show ¬ i - 8 < 8 by omega, show ¬ i - 8 - 8 < 8 by omega, show i - 8 - 8 - 8 < 8 by omega,
          show 24 + (i - 8 - 8 - 8) = i by omega]

/-- Reading a word just stored gives it back (20_memory.md R54, R56). -/
theorem Memory.readWord_writeWord_same (m : Memory) (a : Nat) (w : Word) :
    Memory.readWord (Memory.writeWord m a w) a = some w := by
  simp [Memory.readWord, Memory.readByte_writeWord, wordOfBytes_byteOfWord]

/-- A word store leaves every word apart from it alone. -/
theorem Memory.readWord_writeWord_other (m : Memory) {a a' : Nat} (w : Word) (apart : a' + 4 ≤ a ∨ a + 4 ≤ a') :
    Memory.readWord (Memory.writeWord m a w) a' = Memory.readWord m a' := by
  simp only [Memory.readWord, Memory.readByte_writeWord]
  rw [if_neg (by omega), if_neg (by omega), if_neg (by omega), if_neg (by omega)]

/-- An unlisted byte reads as no value. -/
theorem Memory.readByte_isSome {m : Memory} {a : Nat} : (Memory.readByte m a).isSome ↔ ∃ b, (a, b) ∈ m := by
  induction m with
  | nil => simp [Memory.readByte, Memory.unlisted]
  | cons c m ih =>
    obtain ⟨ca, cb⟩ := c
    simp only [Memory.readByte, List.mem_cons, Prod.mk.injEq]
    split
    · simp_all
    · rw [ih]; constructor
      · rintro ⟨b, hb⟩; exact ⟨b, .inr hb⟩
      · rintro ⟨b, ⟨rfl, -⟩ | hb⟩
        · exact absurd rfl ‹_›
        · exact ⟨b, hb⟩

end Sys2Proof.Machine
end

