-- ==== Sys2Proof/Laws/Invariant.lean ====
section
/-! SUPPORT. What the invariant gives the commands (the tree as a code tree, every symbol's codeword, no broken walk), and
that each named operation keeps it. -/

namespace Sys2Proof.Machine

/-! ### What the invariant gives -/

/-- The sentinel is a symbol. -/
theorem State.Inv.eofSym_lt {s : State} (h : s.Inv) : s.params.eofSym < s.params.alphabet := by
  have := h.legal.1; simp only [Params.eofSym]; omega

/-- The tree memory stores a code tree whose root is an internal node. -/
theorem State.Inv.codeTree {s : State} (h : s.Inv) : ∃ l r,
    (CodeTree.node s.params.root l r).Stored s.freq s.node ∧
    (CodeTree.node s.params.root l r).leaves.Perm (List.range s.params.alphabet) ∧
    (CodeTree.node s.params.root l r).indices.Perm (List.range s.params.nodes) ∧
    (∀ path, walk s.params s.node path = ((CodeTree.node s.params.root l r).sub path).map CodeTree.root) := by
  obtain ⟨t, hst, hroot, hl, hi, -, hw⟩ := codeTree_spec h.freqLength h.legal.1
  cases t with
  | leaf n =>
    have h1 := hl.length_eq
    have := h.legal.1
    simp only [CodeTree.leaves, List.length_singleton, List.length_range] at h1
    omega
  | node n l r =>
    simp only [CodeTree.root_node] at hroot
    subst hroot
    rw [h.tree]
    exact ⟨l, r, hst, hl, hi, hw⟩

/-- Every symbol has a codeword (42_encoder.md R152). -/
theorem State.Inv.codeOf_total {s : State} (h : s.Inv) {sym : Nat} (hs : sym < s.params.alphabet) :
    ∃ code, s.codeOf sym = some code ∧ 1 ≤ code.length ∧ code.length ≤ s.params.maxLen := by
  rw [State.codeOf, h.tree]; exact pathTo_total h.freqLength h.legal.1 hs

/-- A symbol's codeword is the path the walk takes to its leaf (41_tree.md R128, R130). -/
theorem State.Inv.codeOf_iff_walk {s : State} (h : s.Inv) {sym : Nat} (hs : sym < s.params.alphabet)
    (code : List Bool) : s.codeOf sym = some code ↔ walk s.params s.node code = some sym := by
  rw [State.codeOf, h.tree]; exact pathTo_iff_walk h.freqLength h.legal.1 hs code

/-- On input that begins with a symbol's codeword, the decode loop ends at the symbol (43_decoder.md R171). -/
theorem State.Inv.decodeLoop_symbol {s : State} (h : s.Inv) {sym pos remaining : Nat} {code : List Bool}
    (hs : sym < s.params.alphabet) (hc : walk s.params s.node code = some sym) (bits : s.inputHas pos code)
    (fits : code.length ≤ remaining) :
    decodeLoop s remaining pos s.params.root = .leaf sym (pos + code.length) := by
  obtain ⟨l, r, hst, -, -, hw⟩ := h.codeTree
  rw [hw] at hc
  obtain ⟨u, hu, rfl⟩ := Option.map_eq_some_iff.mp hc
  have := (hst.sub hu).eq_leaf (by rw [h.freqLength]; exact hs)
  exact decodeLoop_complete hst (by rw [hu, ← this]) bits fits

/-- On input whose bits lead to an internal node, the loop stands there after them. -/
theorem State.Inv.decodeLoop_internal {s : State} (h : s.Inv) {n pos remaining : Nat} {path : List Bool}
    (hn : s.params.alphabet ≤ n) (hc : walk s.params s.node path = some n) (bits : s.inputHas pos path)
    (fits : path.length ≤ remaining) :
    decodeLoop s remaining pos s.params.root = decodeLoop s (remaining - path.length) (pos + path.length) n := by
  obtain ⟨l, r, hst, -, -, hw⟩ := h.codeTree
  rw [hw] at hc
  obtain ⟨u, hu, rfl⟩ := Option.map_eq_some_iff.mp hc
  refine decodeLoop_through hst hu ?_ bits fits
  intro m hm
  subst hm
  have hlt := (hst.sub hu).1
  rw [h.freqLength] at hlt
  simp only [CodeTree.root] at hn
  omega

/-- What the loop ends with (43_decoder.md R171): a symbol, whose codeword was consumed; the end of the input inside the
tree; an unwritten word. The internal InvalidPath does not occur (60_exceptions.md R203). -/
theorem State.Inv.decodeLoop_cases {s : State} (h : s.Inv) (remaining pos : Nat) :
    match decodeLoop s remaining pos s.params.root with
    | .leaf sym p => sym < s.params.alphabet ∧ ∃ code, walk s.params s.node code = some sym ∧
        p = pos + code.length ∧ code.length ≤ remaining ∧ s.inputHas pos code
    | .truncated => ∃ path n, path.length = remaining ∧ walk s.params s.node path = some n ∧ s.inputHas pos path
    | .unwritten j => ∃ i, pos ≤ i ∧ i < pos + remaining ∧ s.inBit i = none ∧ j = i / 32
    | .broken => False := by
  obtain ⟨l, r, hst, hl, -, hw⟩ := h.codeTree
  have := decodeLoop_sound hst remaining pos
  revert this
  cases decodeLoop s remaining pos s.params.root with
  | leaf sym p =>
    rintro ⟨code, h1, h2, h3, h4⟩
    exact ⟨List.mem_range.mp (hl.mem_iff.mp (CodeTree.mem_leaves_of_sub h1)), code, by rw [hw, h1]; rfl, h2, h3, h4⟩
  | truncated =>
    rintro ⟨path, u, h1, h2, h3⟩
    exact ⟨path, u.root, h1, by rw [hw, h2]; rfl, h3⟩
  | unwritten j => exact id
  | broken => exact id

/-! ### Every named operation keeps it -/

/-- The invariant speaks of the fields named here only. -/
theorem State.Inv.congr {s t : State} (h : s.Inv) (hp : t.params = s.params) (hf : t.fatal = false)
    (hq : t.freq = s.freq) (hn : t.node = s.node) (hm : t.mem = s.mem) (hb : t.codeBits = s.codeBits)
    (hl : t.codeLen = s.codeLen) (hr : t.resultSym = s.resultSym) (hv : t.valKey = s.valKey) : t.Inv := by
  constructor
  · rw [hp]; exact h.legal
  · exact hf
  · rw [hp, hq]; exact h.freqLength
  · rw [State.countOf, hp, hq]; exact h.eofCount
  · rw [hn, hq]; exact h.tree
  · rw [hm]; exact h.memWf
  · rw [hm, hp]; exact h.memPlaces
  · rw [hm]; exact h.memWords
  · rw [hb, hp]; exact h.codeWords
  · rw [hl, hp]; exact h.codeLen
  · rw [hl]; intro i hi; rw [State.codeBit, hb]; exact h.codeClear i hi
  · rw [hr, hp]; exact h.resultSym
  · rw [hv, hp]; exact h.valKey

theorem State.Inv.raise {s : State} (h : s.Inv) (e : ErrCode) : (s.raise e).Inv :=
  h.congr rfl h.noFatal rfl rfl rfl rfl rfl rfl rfl

theorem State.Inv.done {s : State} (h : s.Inv) : s.done.Inv :=
  h.congr rfl h.noFatal rfl rfl rfl rfl rfl rfl rfl

/-- A new frequency table with its tree. -/
theorem State.Inv.rebuild {s : State} (h : s.Inv) {freq : List Count} (len : freq.length = s.params.alphabet)
    (eof : freq.getD s.params.eofSym 0#32 = BitVec.ofNat 32 s.params.eofWeight) : (s.rebuild freq).Inv :=
  { h with freqLength := len, eofCount := eof, tree := rfl }

theorem initialFreq_length (p : Params) (two : 2 ≤ p.alphabet) : (initialFreq p).length = p.alphabet := by
  simp only [initialFreq, List.length_append, List.length_replicate, List.length_singleton, Params.eofSym]; omega

theorem initialFreq_eof (p : Params) : (initialFreq p).getD p.eofSym 0#32 = BitVec.ofNat 32 p.eofWeight := by
  simp [initialFreq, List.getD]

theorem State.Inv.initEngine {s : State} (h : s.Inv) : s.initEngine.Inv :=
  h.rebuild (initialFreq_length _ h.legal.1) (initialFreq_eof _)

theorem State.Inv.count {s : State} (h : s.Inv) {sym : Nat} (data : sym ≠ s.params.eofSym) : (s.count sym).Inv := by
  refine h.rebuild (by simp [h.freqLength]) ?_
  have := h.eofCount
  rw [State.countOf] at this
  rw [← this, List.getD, List.getD, List.getElem?_set_ne data]

theorem State.Inv.emit {s : State} (h : s.Inv) {code : List Bool} (fits : code.length ≤ s.params.maxLen) :
    (s.emit code).Inv := by
  have hlen : (s.emit code).codeLen.toNat = code.length := by
    have := h.legal.2.1
    simp only [State.emit_codeLen, BitVec.toNat_ofNat]
    apply Nat.mod_eq_of_lt
    simp only [Params.maxLen] at fits
    omega
  have hwords : (s.emit code).codeBits.length = s.params.codeWords := by simp [packWords]
  refine { h with codeWords := hwords, codeLen := by rw [hlen]; exact fits, codeClear := fun i hi => ?_ }
  by_cases hroom : i < 32 * s.params.codeWords
  · rw [s.codeBit_emit code hroom, List.getD, List.getElem?_eq_none (by omega)]; rfl
  · rw [State.codeBit, List.getD, List.getElem?_eq_none (by rw [hwords]; omega)]; simp

/-- A byte is readable after a word store exactly where it was, or in the word stored. -/
theorem readWord_isSome_iff (m : Memory) (a : Nat) :
    (Memory.readWord m a).isSome ↔ ∀ k < 4, (Memory.readByte m (a + k)).isSome := by
  constructor
  · intro h k hk
    unfold Memory.readWord at h
    split at h
    · rename_i h0 h1 h2 h3
      interval_cases k <;> simp [*]
    · simp at h
  · intro h
    have h0 := h 0 (by omega)
    have h1 := h 1 (by omega)
    have h2 := h 2 (by omega)
    have h3 := h 3 (by omega)
    obtain ⟨b0, e0⟩ := Option.isSome_iff_exists.mp h0
    obtain ⟨b1, e1⟩ := Option.isSome_iff_exists.mp h1
    obtain ⟨b2, e2⟩ := Option.isSome_iff_exists.mp h2
    obtain ⟨b3, e3⟩ := Option.isSome_iff_exists.mp h3
    simp only [Nat.add_zero] at e0
    simp [Memory.readWord, e0, e1, e2, e3]

/-- Storing a whole word of a buffer. -/
theorem State.Inv.writeWord {s : State} (h : s.Inv) {a : Nat} (w : Word) (aligned : a % 4 = 0)
    (place : ∀ k < 4, inBuffers s.params (a + k)) : ({ s with mem := Memory.writeWord s.mem a w } : State).Inv := by
  refine { h with memWf := Memory.writeWord_wf h.memWf _ _, memPlaces := ?_, memWords := ?_ }
  · intro c hc
    rcases Memory.mem_writeByte hc with rfl | hc
    · exact place 3 (by omega)
    · rcases Memory.mem_writeByte hc with rfl | hc
      · exact place 2 (by omega)
      · rcases Memory.mem_writeByte hc with rfl | hc
        · exact place 1 (by omega)
        · rcases Memory.mem_writeByte hc with rfl | hc
          · exact place 0 (by omega)
          · exact h.memPlaces c hc
  · intro offset ho
    rw [readWord_isSome_iff]
    intro k hk
    simp only [Memory.readByte_writeWord] at ho ⊢
    by_cases hin : a ≤ offset ∧ offset < a + 4
    · rw [if_pos (by omega)]; rfl
    · rw [if_neg hin] at ho
      rw [if_neg (by omega)]
      exact (readWord_isSome_iff _ _).mp (h.memWords offset ho) k hk

/-- Every place the address map gives a host write keeps the invariant (20_memory.md R53, R54). -/
theorem State.Inv.acceptWrite {s : State} (h : s.Inv) (offset : Offset) (w : Word) :
    (s.acceptWrite (locate s.params offset) w).Inv := by
  have same : ∀ t : State, t.params = s.params → t.fatal = s.fatal → t.freq = s.freq → t.node = s.node →
      t.mem = s.mem → t.codeBits = s.codeBits → t.codeLen = s.codeLen → t.resultSym = s.resultSym →
      t.valKey = s.valKey → t.Inv :=
    fun t h1 h2 h3 h4 h5 h6 h7 h8 h9 => h.congr h1 (by rw [h2, h.noFatal]) h3 h4 h5 h6 h7 h8 h9
  have hcap := h.legal.2.2.2.2.1
  cases hl : locate s.params offset with
  | register r => cases r <;> exact same _ rfl rfl rfl rfl rfl rfl rfl rfl rfl
  | codeWord j => exact same _ rfl rfl rfl rfl rfl rfl rfl rfl rfl
  | reserved => exact same _ rfl rfl rfl rfl rfl rfl rfl rfl rfl
  | pathWord j =>
    refine h.writeWord w (by simp only [pathBase]; omega) fun k hk => .inl ?_
    have : j < s.params.codeWords := by
      unfold locate at hl
      dsimp only at hl
      split at hl
      · split at hl <;> cases hl
      · split at hl
        · cases hl
        · split at hl
          · injection hl
            simp only [pathBase] at *
            omega
          · split at hl <;> cases hl
    simp only [pathBase]; omega
  | inWord j =>
    refine h.writeWord w (by simp only [inBase]; omega) fun k hk => .inr ?_
    have : 4 * j + 4 ≤ s.params.inCap / 8 := by
      unfold locate at hl
      dsimp only at hl
      split at hl
      · split at hl <;> cases hl
      · split at hl
        · cases hl
        · split at hl
          · cases hl
          · split at hl
            · injection hl
              simp only [inBase] at *
              omega
            · cases hl
    simp only [inBase]; omega

theorem State.Inv.answerRead {s : State} (h : s.Inv) (l : Location) : (s.answerRead l).Inv :=
  h.congr (by simp) (by simp [h.noFatal]) (by simp) (by simp) (by simp) (by simp) (by simp) (by simp) (by simp)

theorem State.Inv.assertReset {s : State} (h : s.Inv) : s.assertReset.Inv := by
  have hbit : ∀ i, s.assertReset.codeBit i = false := by
    intro i
    simp only [State.codeBit, State.assertReset_codeBits, List.getD, List.getElem?_replicate]
    split <;> simp
  have := h.legal.1
  exact { h with
    noFatal := rfl
    memWf := ⟨List.Pairwise.nil, by simp⟩
    memPlaces := by simp
    memWords := by intro o ho; simp [Memory.readByte, Memory.unlisted] at ho
    codeWords := by simp
    codeLen := by simp
    codeClear := fun i _ => hbit i
    resultSym := by simp; omega
    valKey := by simp }

theorem State.Inv.finishResetBuild {s : State} (h : s.Inv) : s.finishResetBuild.Inv :=
  h.initEngine.congr rfl rfl rfl rfl rfl rfl rfl rfl rfl

theorem State.Inv.decodedSymbol {s : State} (h : s.Inv) {n p : Nat} (hn : n < s.params.alphabet) :
    (s.decodedSymbol n p).Inv := by
  have := h.legal.2.1
  refine { h with resultSym := ?_ }
  simp only [State.decodedSymbol_resultSym, State.decodedSymbol_params, BitVec.toNat_ofNat]
  omega

theorem State.Inv.decodedEof {s : State} (h : s.Inv) : s.decodedEof.Inv := by
  have := h.legal.2.1
  have := h.eofSym_lt
  refine { h with resultSym := ?_ }
  simp only [State.decodedEof_resultSym, State.decodedEof_params, BitVec.toNat_ofNat]
  omega

theorem State.Inv.reportNode {s : State} (h : s.Inv) {n : Nat} {r : Node} (hn : n < s.params.nodes) :
    (s.reportNode n r).Inv := by
  have := h.legal.2.1
  refine { h with valKey := ?_ }
  simp only [State.reportNode_valKey, State.reportNode_params, BitVec.toNat_ofNat]
  simp only [Params.nodes, Params.root] at *
  omega

end Sys2Proof.Machine
end

