-- ==== Sys2Proof/Laws/Operands.lean ====
section
/-! SUPPORT. What the path operand of VALUEAT reads (41_tree.md R129). -/

namespace Sys2Proof.Machine

/-- Bits that are all written are read. -/
theorem pathOperand_written {s : State} {path : List Bool} {start : Nat}
    (bits : ∀ (i : Nat) (h : i < path.length), s.pathBit (start + i) = some path[i]) :
    pathOperand s path.length start = .ok path := by
  induction path generalizing start with
  | nil => rfl
  | cons b p ih =>
    have h0 : s.pathBit start = some b := bits 0 (by simp)
    have hrest := ih (start := start + 1) fun i hi => by
      rw [show start + 1 + i = start + (i + 1) by omega]
      exact bits (i + 1) (by simpa using hi)
    simp [pathOperand, h0, hrest]

/-- The first unwritten bit stops the reading. -/
theorem pathOperand_unwritten {s : State} {path : List Bool} {start count : Nat}
    (bits : ∀ (i : Nat) (h : i < path.length), s.pathBit (start + i) = some path[i])
    (more : path.length < count) (missing : s.pathBit (start + path.length) = none) :
    pathOperand s count start = .error ((start + path.length) / 32) := by
  induction path generalizing start count with
  | nil =>
    obtain ⟨m, rfl⟩ : ∃ m, count = m + 1 := ⟨count - 1, by simp at more; omega⟩
    simp only [List.length_nil, Nat.add_zero] at missing
    simp [pathOperand, missing]
  | cons b p ih =>
    obtain ⟨m, rfl⟩ : ∃ m, count = m + 1 := ⟨count - 1, by simp at more; omega⟩
    have h0 : s.pathBit start = some b := bits 0 (by simp)
    have hrest := ih (start := start + 1) (count := m)
      (fun i hi => by
        rw [show start + 1 + i = start + (i + 1) by omega]
        exact bits (i + 1) (by simpa using hi))
      (by simpa using more) (by simpa [Nat.add_assoc, Nat.add_comm 1] using missing)
    simp only [pathOperand, h0, hrest, List.length_cons]
    congr 2; omega

/-- What was read is what the buffer holds. -/
theorem pathOperand_ok {s : State} {path : List Bool} {start count : Nat}
    (h : pathOperand s count start = .ok path) :
    path.length = count ∧ ∀ (i : Nat) (h : i < path.length), s.pathBit (start + i) = some path[i] := by
  induction count generalizing start path with
  | zero => injection h with h; subst h; simp
  | succ n ih =>
    unfold pathOperand at h
    split at h
    · cases h
    · rename_i b hb
      split at h
      · cases h
      · rename_i p hp
        injection h with h; subst h
        obtain ⟨h1, h2⟩ := ih hp
        refine ⟨by simp [h1], fun i hi => ?_⟩
        cases i with
        | zero => simpa using hb
        | succ i => simpa [Nat.add_assoc, Nat.add_comm 1 i] using h2 i (by simpa using hi)

end Sys2Proof.Machine
end

