-- ==== Sys2Proof/Laws/PerInstr.lean ====
section
/-! SUPPORT. What holds of every command as syntax: its word matches its row of spec/opcode_table.json. -/

namespace Sys2Proof.Laws.EncodingMatchesTable

/-- A row of spec/opcode_table.json: the mask and the match of its words. -/
structure Row where
  mask : Word
  bits : Word
  deriving DecidableEq, Repr

/-- The row of a command (30_encoding.md R73, spec/opcode_table.json). -/
def rowOf : Instr → Row
  | .nop => ⟨0xFFFFFFFF#32, 0x00000000#32⟩
  | .init => ⟨0xFFFFFFFF#32, 0x10000000#32⟩
  | .observe _ => ⟨0xFFFF0000#32, 0x20000000#32⟩
  | .encode _ => ⟨0xFFFF0000#32, 0x30000000#32⟩
  | .eofcode => ⟨0xFFFFFFFF#32, 0x40000000#32⟩
  | .decode => ⟨0xFFFFFFFF#32, 0x50000000#32⟩
  | .getcount _ => ⟨0xFFFF0000#32, 0x60000000#32⟩
  | .valueat => ⟨0xFFFFFFFF#32, 0x70000000#32⟩

/-- The command's word matches its row. -/
def Statement (i : Instr) : Prop := encode i &&& (rowOf i).mask = (rowOf i).bits

/-- A word with a symbol operand, under the mask of the other bits. -/
theorem commandWord_masked (opc : BitVec 4) (sym : Nat) :
    commandWord opc sym &&& 0xFFFF0000#32 = commandWord opc 0 := by
  apply BitVec.eq_of_getLsbD_eq
  intro i hi
  rw [BitVec.getLsbD_and, commandWord_getLsbD, commandWord_getLsbD]
  have key : ∀ k < 32, (0xFFFF0000#32).getLsbD k = decide (16 ≤ k) := by decide
  rw [key i hi]
  by_cases h0 : i < 16
  · simp [h0]
  · simp [h0, show 16 ≤ i by omega]

theorem nop : Statement .nop := by unfold Statement; decide
theorem init : Statement .init := by unfold Statement; decide
theorem observe (sym : Nat) : Statement (.observe sym) := commandWord_masked _ _
theorem encode (sym : Nat) : Statement (.encode sym) := commandWord_masked _ _
theorem eofcode : Statement .eofcode := by unfold Statement; decide
theorem decode : Statement .decode := by unfold Statement; decide
theorem getcount (sym : Nat) : Statement (.getcount sym) := commandWord_masked _ _
theorem valueat : Statement .valueat := by unfold Statement; decide

end Sys2Proof.Laws.EncodingMatchesTable
end

