-- ==== Sys2Proof/Laws/Platform.lean ====
section
/-! SUPPORT. What one move of a platform can do (60_exceptions.md R215): one instance moves as its own state says, and the
others stay. -/

namespace Sys2Proof.Machine

/-- An offset of the window lies in the window. -/
theorem PlacedHcc.holds_address (x : PlacedHcc) (offset : Offset) : x.holds (x.address offset) = true := by
  have := offset.isLt
  refine (Bool.and_eq_true _ _).mpr ⟨decide_eq_true ?_, decide_eq_true ?_⟩ <;> simp only [PlacedHcc.address] <;> omega

/-- The offset of an address made from an offset is that offset. -/
theorem PlacedHcc.offsetOf_address (x : PlacedHcc) (offset : Offset) : x.offsetOf (x.address offset) = offset := by
  simp [PlacedHcc.offsetOf, PlacedHcc.address]

/-- Where the windows do not overlap, an address in a window reaches that instance. -/
theorem Platform.apart_reaches {sys : Platform} (apart : sys.apart) {k : Nat} {x : PlacedHcc} (hk : sys[k]? = some x)
    {address : Nat} (inside : x.holds address = true) : sys.findIdx? (·.holds address) = some k := by
  obtain ⟨lt, rfl⟩ := List.getElem?_eq_some_iff.mp hk
  refine List.findIdx?_eq_some_iff_getElem.mpr ⟨lt, inside, fun j hj => ?_⟩
  have := List.pairwise_iff_getElem.mp apart j k (by omega) lt hj
  simp only [PlacedHcc.holds, Bool.and_eq_true, decide_eq_true_eq] at inside ⊢
  omega

/-- Which instance an address reaches depends on the bases alone. -/
theorem findIdx_holds_of_bases {a b : Platform} (same : a.map PlacedHcc.base = b.map PlacedHcc.base) (address : Nat) :
    a.findIdx? (·.holds address) = b.findIdx? (·.holds address) := by
  have key : ∀ sys : Platform, sys.findIdx? (·.holds address) =
      (sys.map PlacedHcc.base).findIdx? fun base => base ≤ address && address < base + 2 ^ 18 := by
    intro sys; rw [List.findIdx?_map]; rfl
  rw [key, key, same]

/-- What a move of one instance that goes on can do. -/
theorem onInstance_next {k : Nat} {run : PlacedHcc → Result} {sys sys' : Platform}
    (h : onInstance k run sys = .next sys') :
    (sys[k]? = none ∧ sys' = sys) ∨
    (∃ x t, sys[k]? = some x ∧ run x = .next t ∧ sys' = sys.set k { x with state := t }) := by
  unfold onInstance at h
  split at h
  · injection h with h; exact .inl ⟨‹_›, h.symm⟩
  · split at h
    · injection h with h; exact .inr ⟨_, _, ‹_›, ‹_›, h.symm⟩
    · cases h
    · cases h

/-- A move of one instance keeps every base. -/
theorem onInstance_bases {k : Nat} {run : PlacedHcc → Result} {sys sys' : Platform}
    (h : onInstance k run sys = .next sys') : sys'.map PlacedHcc.base = sys.map PlacedHcc.base := by
  rcases onInstance_next h with ⟨-, rfl⟩ | ⟨x, t, hx, -, rfl⟩
  · rfl
  · obtain ⟨lt, rfl⟩ := List.getElem?_eq_some_iff.mp hx
    rw [List.map_set, show PlacedHcc.base { sys[k] with state := t } = (sys.map PlacedHcc.base)[k]'(by simpa) by simp,
      List.set_getElem_self]

/-- A move of one instance does the same to it on two platforms that agree on it. -/
theorem onInstance_agree {j k : Nat} {run : PlacedHcc → Result} {a b a' b' : Platform} (same : a[k]? = b[k]?)
    (ha : onInstance j run a = .next a') (hb : onInstance j run b = .next b') : a'[k]? = b'[k]? := by
  by_cases hjk : j = k
  · subst hjk
    rcases onInstance_next ha with ⟨h1, rfl⟩ | ⟨x, t, h1, h2, rfl⟩
    · rcases onInstance_next hb with ⟨-, rfl⟩ | ⟨y, u, h3, -⟩
      · exact same
      · rw [← same, h1] at h3; cases h3
    · rcases onInstance_next hb with ⟨h3, -⟩ | ⟨y, u, h3, h4, rfl⟩
      · rw [← same, h1] at h3; cases h3
      · have lt := (List.getElem?_eq_some_iff.mp h1).1
        have lt' := (List.getElem?_eq_some_iff.mp h3).1
        rw [← same, h1] at h3
        injection h3 with h3
        subst h3
        rw [h2] at h4
        injection h4 with h4
        simp [lt, lt', h4]
  · have other : ∀ {sys sys' : Platform}, onInstance j run sys = .next sys' → sys'[k]? = sys[k]? := by
      intro sys sys' h
      rcases onInstance_next h with ⟨-, rfl⟩ | ⟨x, t, -, -, rfl⟩
      · rfl
      · exact List.getElem?_set_ne hjk
    rw [other ha, other hb, same]

end Sys2Proof.Machine
end

