-- ==== Sys2Proof/Laws/Window.lean ====
section
/-! SUPPORT. The register window: what stands at each offset, and what an aligned read and write of a word do
(10_state.md R21; 20_memory.md R52, R53, R54). -/

namespace Sys2Proof.Machine

/-- `CODE_BITS` ends at or before `PATH_BITS` starts, for every legal alphabet (20_memory.md R53). -/
theorem codeWords_le {p : Params} (legal : p.legal) : 4 * p.codeWords ≤ 0x2000 := by
  have := legal; simp only [Params.codeWords, Params.maxLen]; omega

/-- An aligned read is answered. -/
theorem hostAccess_read (s : State) {a : Offset} (aligned : a.toNat % 4 = 0) :
    hostAccess (.read 4 a) s = .next (s.answerRead (locate s.params a)) := if_pos ⟨rfl, aligned⟩

/-- An aligned write while BUSY = 0 is accepted. -/
theorem hostAccess_write {s : State} (idle : s.busy = false) {a : Offset} (aligned : a.toNat % 4 = 0) (v : Word) :
    hostAccess (.write 4 a v) s = .next (s.acceptWrite (locate s.params a) v) := by
  show (if alignedWord 4 a then _ else _) = _
  rw [if_pos ⟨rfl, aligned⟩, idle]; rfl

/-- An aligned write while BUSY = 1 is refused. -/
theorem hostAccess_write_busy {s : State} (busy : s.busy = true) {a : Offset} (aligned : a.toNat % 4 = 0) (v : Word) :
    hostAccess (.write 4 a v) s = .refused .writeWhileBusy := by
  show (if alignedWord 4 a then _ else _) = _
  rw [if_pos ⟨rfl, aligned⟩, busy]; rfl

/-- A register stands at its offset. -/
theorem locate_offset (p : Params) (r : Register) : locate p r.offset = .register r := by cases r <;> rfl

/-- Below 0x48 every aligned offset is a register's. -/
theorem locate_register (p : Params) {a : Offset} (low : a.toNat < 0x48) (aligned : a.toNat % 4 = 0) :
    ∃ r : Register, a = r.offset ∧ locate p a = .register r := by
  have key : ∀ k < 18, ∃ r : Register, r.offset.toNat = 4 * k := by
    intro k hk
    interval_cases k
    exacts [⟨.cmd, rfl⟩, ⟨.status, rfl⟩, ⟨.resultKind, rfl⟩, ⟨.resultSym, rfl⟩, ⟨.countOut, rfl⟩, ⟨.codeLen, rfl⟩,
      ⟨.pathLen, rfl⟩, ⟨.inLen, rfl⟩, ⟨.inPos, rfl⟩, ⟨.valKey, rfl⟩, ⟨.valKind, rfl⟩, ⟨.valDepth, rfl⟩,
      ⟨.valWeightLo, rfl⟩, ⟨.valWeightHi, rfl⟩, ⟨.paramA, rfl⟩, ⟨.paramEofWeight, rfl⟩, ⟨.paramCw, rfl⟩,
      ⟨.paramInCap, rfl⟩]
  obtain ⟨r, hr⟩ := key (a.toNat / 4) (by omega)
  have : a = r.offset := BitVec.eq_of_toNat_eq (by omega)
  exact ⟨r, this, by rw [this, locate_offset]⟩

theorem locate_codeWord {p : Params} {a : Offset}
    (inside : codeBase ≤ a.toNat ∧ a.toNat < codeBase + 4 * p.codeWords) :
    locate p a = .codeWord ((a.toNat - codeBase) / 4) := by
  have : codeBase = 0x1000 := rfl
  unfold locate; dsimp only
  rw [if_neg (by omega), if_pos inside]

theorem locate_pathWord {p : Params} (legal : p.legal) {a : Offset}
    (inside : pathBase ≤ a.toNat ∧ a.toNat < pathBase + 4 * p.codeWords) :
    locate p a = .pathWord ((a.toNat - pathBase) / 4) := by
  have : codeBase = 0x1000 := rfl
  have : pathBase = 0x3000 := rfl
  have := codeWords_le legal
  unfold locate; dsimp only
  rw [if_neg (by omega), if_neg (by omega), if_pos inside]

theorem locate_inWord {p : Params} (legal : p.legal) {a : Offset}
    (inside : inBase ≤ a.toNat ∧ a.toNat < inBase + p.inCap / 8) :
    locate p a = .inWord ((a.toNat - inBase) / 4) := by
  have : codeBase = 0x1000 := rfl
  have : pathBase = 0x3000 := rfl
  have : inBase = 0x10000 := rfl
  have := codeWords_le legal
  unfold locate; dsimp only
  rw [if_neg (by omega), if_neg (by omega), if_neg (by omega), if_pos inside]

theorem locate_reserved {p : Params} {a : Offset} (high : 0x48 ≤ a.toNat)
    (outside : ¬ inBuffers p a.toNat) (notCode : ¬ (codeBase ≤ a.toNat ∧ a.toNat < codeBase + 4 * p.codeWords)) :
    locate p a = .reserved := by
  unfold locate; dsimp only
  rw [if_neg (by omega), if_neg notCode, if_neg fun h => outside (.inl h), if_neg fun h => outside (.inr h)]

/-- A write of an aligned word inside a buffer stores that word there. -/
theorem acceptWrite_buffer {s : State} (legal : s.params.legal) {a : Offset} (aligned : a.toNat % 4 = 0)
    (inside : inBuffers s.params a.toNat) (v : Word) :
    s.acceptWrite (locate s.params a) v = { s with mem := Memory.writeWord s.mem a.toNat v } := by
  have hp : pathBase = 0x3000 := rfl
  have hi : inBase = 0x10000 := rfl
  rcases inside with h | h
  · rw [locate_pathWord legal h]
    simp only [State.acceptWrite]
    congr 2; omega
  · rw [locate_inWord legal h]
    simp only [State.acceptWrite]
    congr 2; omega

/-- A read of an aligned word inside a buffer reads that word. -/
theorem readIdle_buffer {s : State} (legal : s.params.legal) {a : Offset} (aligned : a.toNat % 4 = 0)
    (inside : inBuffers s.params a.toNat) :
    s.readIdle (locate s.params a) = Memory.readWord s.mem a.toNat := by
  have hp : pathBase = 0x3000 := rfl
  have hi : inBase = 0x10000 := rfl
  rcases inside with h | h
  · rw [locate_pathWord legal h]
    simp only [State.readIdle]
    congr 1; omega
  · rw [locate_inWord legal h]
    simp only [State.readIdle]
    congr 1; omega

/-- A read changes nothing of HCC. -/
theorem answerRead_sameHcc (s : State) (l : Location) : s.sameHcc (s.answerRead l) := by
  unfold State.answerRead State.sameHcc
  split
  · rfl
  · split <;> rfl

end Sys2Proof.Machine
end

