-- ==== Sys2Proof/Tests/Slice0.lean ====
section
/-! SUPPORT. Tests: well-formedness, decoding, one step per command, with results from 95_test_vectors.md, and a witness
for each obligation that has hypotheses. `small` is an instance of A = 4, whose trees are T-B4 to T-B8. -/

namespace Sys2Proof.Tests

open Sys2Proof Sys2Proof.Machine

/-! ### Well-formedness and decoding -/

theorem test_observe_operand_too_wide : ¬ (Instr.observe 65536).wellFormed := by decide
theorem test_encode_operand_too_wide : ¬ (Instr.encode 65536).wellFormed := by decide
theorem test_getcount_operand_too_wide : ¬ (Instr.getcount 65536).wellFormed := by decide
theorem test_operand_bounds : (Instr.observe 0).wellFormed ∧ (Instr.encode 65535).wellFormed := by decide

-- 30_encoding.md R71, R73: OPC 31:28, RSV 27:16, OPERAND 15:0, written out bit by bit.
theorem test_decode_nop : decodeCmd 0b0000_000000000000_0000000000000000#32 = .ok .nop := by decide
theorem test_decode_init : decodeCmd 0b0001_000000000000_0000000000000000#32 = .ok .init := by decide
theorem test_decode_observe : decodeCmd 0b0010_000000000000_0000000001100011#32 = .ok (.observe 0x63) := by decide
theorem test_decode_encode : decodeCmd 0b0011_000000000000_1000000000000001#32 = .ok (.encode 0x8001) := by decide
theorem test_decode_eofcode : decodeCmd 0b0100_000000000000_0000000000000000#32 = .ok .eofcode := by decide
theorem test_decode_decode : decodeCmd 0b0101_000000000000_0000000000000000#32 = .ok .decode := by decide
theorem test_decode_getcount : decodeCmd 0b0110_000000000000_0000000100000000#32 = .ok (.getcount 256) := by decide
theorem test_decode_valueat : decodeCmd 0b0111_000000000000_0000000000000000#32 = .ok .valueat := by decide

-- T-E1 to T-E9: the illegal words.
theorem test_decode_illegal :
    ([0x00000001#32, 0x10000001#32, 0x40000001#32, 0x50000001#32, 0x70000001#32].all fun w =>
      decodeCmd w = .error .operandNotZero) ∧
    ([0x20010000#32, 0x3FFF0000#32].all fun w => decodeCmd w = .error .reservedField) ∧
    ([0x80000000#32, 0xF0000000#32].all fun w => decodeCmd w = .error .reservedOpcode) := by decide

theorem test_decode_table_word : decodeTableWord 32 0x20000063 = some (.observe 0x63) := by decide

-- The examples of 30_encoding.md R77.
theorem test_assemble :
    assemble Params.hcc "OBSERVE 99".toList = some 0x20000063#32 ∧
    assemble Params.hcc "OBSERVE 0x63".toList = some 0x20000063#32 ∧
    assemble Params.hcc "OBSERVE 'c'".toList = some 0x20000063#32 ∧
    assemble Params.hcc "ENCODE EOF".toList = some 0x30000100#32 ∧
    assemble Params.hcc "DECODE".toList = some 0x50000000#32 := by decide +kernel

/-! ### Helpers -/

/-- The result is a next state that passes the check. -/
def nextIs (r : Result) (check : State → Bool) : Bool :=
  match r with
  | .next t => check t
  | _ => false

theorem of_nextIs {r : Result} {check : State → Bool} (h : nextIs r check = true) :
    ∃ t, r = .next t ∧ check t = true := by
  cases r with
  | next t => exact ⟨t, rfl, h⟩
  | fault e => cases h
  | refused e => cases h

/-- The four-symbol instance of T-B4: the codewords are 0 `010`, 1 `011`, 2 `00`, EOF `1`. -/
def small : State := State.resetOf { alphabet := 4, eofWeight := 1, inCap := 64 }

/-- `small` with its first input word written. -/
def withInput (len pos : Nat) (word : Word) : State :=
  { small with
    inLen := BitVec.ofNat 32 len, inPos := BitVec.ofNat 32 pos, mem := Memory.writeWord small.mem inBase word }

/-- `small` with its path word written. -/
def withPath (len : Nat) (word : Word) : State :=
  { small with pathLen := BitVec.ofNat 32 len, mem := Memory.writeWord small.mem pathBase word }

/-- `small` with a command word in flight and a host step that waits. -/
def running (word : Word) : State :=
  { small with cmd := word, engine := .command, host := [rdReg .status] }

/-- `small` with the FATAL latch set, as in T-E12 to T-E15. -/
def latched : State := { small with fatal := true }

/-- `small` with an entry at its maximum, as in T-F12. -/
def full : State := small.rebuild [0xFFFFFFFF#32, 0#32, 0#32, 1#32]

theorem small_inv : small.Inv where
  legal := by decide
  noFatal := rfl
  freqLength := by decide
  eofCount := by decide
  tree := rfl
  memWf := by decide
  memPlaces := by decide
  memWords := by intro o ho; cases ho
  codeWords := by decide
  codeLen := by decide
  codeClear := by
    intro i _
    show (([0#32] : List Word).getD (i / 32) 0#32).getLsbD (i % 32) = false
    cases i / 32 <;> simp
  resultSym := by decide
  valKey := by decide

theorem withInput_inv (len pos : Nat) (word : Word) : (withInput len pos word).Inv :=
  (small_inv.writeWord (a := inBase) word (by decide)
    (fun k hk => .inr ⟨by omega, by show inBase + k < inBase + 8; omega⟩)).congr
    rfl rfl rfl rfl rfl rfl rfl rfl rfl

theorem withPath_inv (len : Nat) (word : Word) : (withPath len word).Inv :=
  (small_inv.writeWord (a := pathBase) word (by decide)
    (fun k hk => .inl ⟨by omega, by show pathBase + k < pathBase + 4; omega⟩)).congr
    rfl rfl rfl rfl rfl rfl rfl rfl rfl

theorem running_inv (word : Word) : (running word).Inv :=
  small_inv.congr rfl rfl rfl rfl rfl rfl rfl rfl rfl

/-! ### Trees (95_test_vectors.md §4.1) -/

-- T-B2, T-B4, T-B5, T-B7, T-B8, T-B10: the internal nodes.
theorem test_tree_two : ((buildTree [5#32, 1#32]).drop 2) =
    [{ kind := .internal 1 0, weight := 6#48, depth := 1#16 }] := by decide
theorem test_tree_depth_tie : ((buildTree [0#32, 0#32, 0#32, 1#32]).drop 4) =
    [{ kind := .internal 0 1, weight := 0#48, depth := 1#16 }, { kind := .internal 2 4, weight := 0#48, depth := 2#16 },
     { kind := .internal 5 3, weight := 1#48, depth := 3#16 }] := by decide
theorem test_tree_index_tie : ((buildTree [1#32, 0#32, 0#32, 1#32]).drop 4) =
    [{ kind := .internal 1 2, weight := 0#48, depth := 1#16 }, { kind := .internal 4 0, weight := 1#48, depth := 2#16 },
     { kind := .internal 3 5, weight := 2#48, depth := 3#16 }] := by decide
theorem test_tree_counterexample : ((buildTree [3#32, 2#32, 2#32, 1#32]).drop 4) =
    [{ kind := .internal 3 1, weight := 3#48, depth := 1#16 }, { kind := .internal 2 0, weight := 5#48, depth := 1#16 },
     { kind := .internal 4 5, weight := 8#48, depth := 2#16 }] := by decide
theorem test_tree_five : ((buildTree [3#32, 2#32, 2#32, 2#32, 1#32]).drop 5) =
    [{ kind := .internal 4 1, weight := 3#48, depth := 1#16 }, { kind := .internal 2 3, weight := 4#48, depth := 1#16 },
     { kind := .internal 0 5, weight := 6#48, depth := 2#16 }, { kind := .internal 6 7, weight := 10#48, depth := 3#16 }] := by
  decide
-- T-B8: the codewords.
theorem test_codewords : (List.range 4).map (pathTo small.params (buildTree [2#32, 3#32, 0#32, 1#32])) =
    [some [true, true], some [false], some [true, false, false], some [true, false, true]] := by decide

/-! ### One step per command -/

-- T-F2, T-E12: NOP clears ERR, and is Faulted while FATAL = 1.
theorem test_nop : nextIs (exec .nop { small with err := .illegalCommand }) (· == small) = true := by decide +kernel
theorem test_nop_faulted : nextIs (exec .nop latched) (· == { latched with err := .faulted }) = true := by decide +kernel

-- T-F14, T-E15: INIT puts FREQ and NODE back and clears FATAL.
theorem test_init : nextIs (exec .init { full with fatal := true, err := .faulted }) (· == small) = true := by decide +kernel

-- T-B5 (from T-B4 by OBSERVE 0), T-F12.
theorem test_observe : nextIs (exec (.observe 0) small) (fun t =>
    t.freq == [1#32, 0#32, 0#32, 1#32] && t.codeOf 0 == some [true, true] && t.codeOf 3 == some [false] && t.err == .ok) =
      true := by decide +kernel
theorem test_observe_overflow : nextIs (exec (.observe 0) full) (· == { full with err := .countOverflow }) = true := by
  decide +kernel

-- T-F5, T-F7.
theorem test_getcount : nextIs (exec (.getcount 3) small) (fun t => t.countOut == 1#32 && t.err == .ok) = true := by
  decide +kernel
theorem test_getcount_range : nextIs (exec (.getcount 4) { small with countOut := 1#32 }) (fun t =>
    t.countOut == 1#32 && t.err == .invalidSymbol) = true := by decide +kernel

-- T-C4 at A = 257, and T-C9's clearing of the buffer at T-B4.
theorem test_encode : nextIs (exec (.encode 0x63) State.reset) (fun t =>
    t.codeLen == 9#16 && t.codeBits.getD 0 0#32 == 0x0000018C#32 && t.err == .ok) = true := by decide +kernel
theorem test_encode_out_of_range : nextIs (exec (.encode 4) { small with codeLen := 7#16 }) (fun t =>
    t.codeLen == 7#16 && t.err == .invalidSymbol) = true := by decide +kernel
theorem test_eofcode : nextIs (exec .eofcode { small with codeLen := 3#16, codeBits := [6#32] }) (fun t =>
    t.codeLen == 1#16 && t.codeBits == [1#32] && t.err == .ok) = true := by decide +kernel

-- The forms of T-D10 and T-D4 on the tree of T-B4: `010` then a bit left unread; `1` then trailing bits.
theorem test_decode_symbol : nextIs (exec .decode (withInput 4 0 0b1010#32)) (fun t =>
    t.resultKind == .symbol && t.resultSym == 0#16 && t.inPos == 3#32 && t.err == .ok) = true := by decide +kernel
theorem test_decode_eof : nextIs (exec .decode (withInput 5 0 0b01101#32)) (fun t =>
    t.resultKind == .endOfStream && t.resultSym == 3#16 && t.inPos == 5#32) = true := by decide +kernel

-- T-V1 at A = 257, and the form of T-V13 on the tree of T-B4.
theorem test_valueat_root : nextIs (exec .valueat State.reset) (fun t =>
    t.valKey == 512#32 && t.valKind == .internal && t.valDepth == 9#16 && t.valWeightLo == 1#32 && t.err == .ok) =
      true := by decide +kernel
theorem test_valueat_below_leaf : nextIs (exec .valueat (withPath 2 0b01#32)) (fun t =>
    t.err == .invalidPath && !t.fatal && t.valKind == .none) = true := by decide +kernel

/-! ### Witnesses: a state and operands that meet each obligation's hypotheses -/

theorem witness_DecodeOfEncodeIsIdentity : (Instr.getcount 65535).wellFormed ∧ Instr.valueat.wellFormed := by decide
theorem witness_EncodeOfDecodeIsIdentity : decodeCmd 0x6000FFFF#32 = .ok (.getcount 65535) := by decide
theorem witness_IllegalWordsRaiseIllegalCommand :
    (running 0x80000000#32).hostWaits ∧ illegalWord 0x80000000#32 ∧ illegalWord 0x00010000#32 ∧
      illegalWord 0x08000000#32 ∧ illegalWord 0x00000001#32 ∧ illegalWord 0x70008000#32 := by decide
theorem witness_StepRunsDecodedCommand :
    (running 0x10000000#32).engine = .command ∧ (running 0x10000000#32).hostWaits ∧
      decodeCmd (running 0x10000000#32).cmd = .ok .init ∧ (Instr.observe 65535).wellFormed := by decide
theorem witness_CommandLineTakesTwoSteps :
    ∃ s : State, s.engine = .idle ∧ s.host = commandLine (.observe 1) :: [rdReg .status] ∧
      (∀ h ∈ [rdReg .status].head?, h.whileBusy = false) ∧ (Instr.observe 1).wellFormed :=
  ⟨{ small with host := [commandLine (.observe 1), rdReg .status] }, rfl, rfl, by decide, by decide⟩
theorem witness_IdleKeepsStateUntilWoken :
    (small.busy = false ∧ small.host = []) ∧
    (∃ t, step { small with host := [commandLine .nop] } = .next t ∧ t.busy = true) ∧
    (∃ t, step { small with host := [{ access := .reset, whileBusy := false }] } = .next t ∧ t.busy = true) :=
  ⟨⟨rfl, rfl⟩, ⟨_, rfl, rfl⟩, ⟨_, rfl, rfl⟩⟩

theorem witness_ChecksInOrder :
    (latched.fatal = true ∧ Instr.nop ≠ .init) ∧
    (small.fatal = false ∧ small.params.alphabet ≤ 4 ∧ 0 < small.params.alphabet) ∧
    (full.fatal = false ∧ 0 < full.params.alphabet ∧ 0 ≠ full.params.eofSym ∧ full.countOf 0 = 0xFFFFFFFF#32) ∧
    (small.params.maxLen < (withPath 4 0#32).pathLen.toNat) ∧
    ((withPath 2 0b01#32).pathHas [true, false] ∧ walk small.params (withPath 2 0b01#32).node [true, false] = none) ∧
    (small.params.inCap < (withInput 65 0 0#32).inLen.toNat ∧
      (withInput 3 4 0#32).inLen.toNat < (withInput 3 4 0#32).inPos.toNat) := by decide
theorem witness_truncated :
    (withInput 1 0 0#32).Inv ∧ (withInput 1 0 0#32).inputHas 0 [false] ∧
      walk small.params (withInput 1 0 0#32).node [false] = some 5 ∧ small.params.alphabet ≤ 5 ∧
      (withInput 1 1 0#32).inputHas 1 [] ∧ walk small.params small.node [] = some 6 :=
  ⟨withInput_inv _ _ _, by decide, by decide, by decide, by decide, by decide⟩

theorem witness_ErrorsArePrecise :
    (∃ t, exec (.observe 4) small = .next t ∧ t.err = .invalidSymbol) ∧
    (∃ t, exec .eofcode { small with node := [] } = .next t ∧ t.err = .notFound) ∧
    (∃ t, exec .decode { withInput 1 0 0#32 with node := [] } = .next t ∧ t.err = .invalidPath) ∧
    (∃ t, exec .valueat (withPath 4 0#32) = .next t ∧ t.err = .invalidPath) ∧
    (∃ t, exec .decode (withInput 1 0 0#32) = .next t ∧ t.err = .truncatedStream) ∧
    (running 0x2FFF0000#32).hostWaits ∧ illegalWord (running 0x2FFF0000#32).cmd :=
  ⟨⟨_, rfl, rfl⟩, ⟨_, rfl, rfl⟩,
    by simpa using of_nextIs (check := fun t => t.err == .invalidPath) (by decide +kernel),
    by simpa using of_nextIs (check := fun t => t.err == .invalidPath) (by decide +kernel),
    by simpa using of_nextIs (check := fun t => t.err == .truncatedStream) (by decide +kernel), by decide, by decide⟩
theorem witness_FatalSetAndCleared :
    (∃ t, step { running 0x40000000#32 with node := [] } = .next t ∧ t.fatal = true) ∧
    (∃ t, step { withInput 1 0 0#32 with node := [], cmd := 0x50000000#32, engine := .command } = .next t ∧
      t.fatal = true) ∧
    (({ small with node := [] } : State).codeOf 0 = none ∧ ({ small with node := [] } : State).codeOf 3 = none) ∧
    (decodeLoop { withInput 1 0 0#32 with node := [] } 1 0 small.params.root = .broken) ∧
    (∃ t, step { running 0x10000000#32 with fatal := true } = .next t ∧ t.fatal = false) ∧
    (∃ t, step { latched with engine := .resetBuild } = .next t ∧ t.fatal = false) ∧
    (∃ t, step { latched with host := [{ access := .reset, whileBusy := false }] } = .next t ∧ t.fatal = false) :=
  ⟨by simpa using of_nextIs (check := fun t => t.fatal) (by decide +kernel),
    by simpa using of_nextIs (check := fun t => t.fatal) (by decide +kernel), by decide, by decide,
    by simpa using of_nextIs (check := fun t => !t.fatal) (by decide +kernel), ⟨_, rfl, rfl⟩, ⟨_, rfl, rfl⟩⟩
theorem witness_OutcomesOfEachCommand :
    (∃ t, exec .decode small = .next t ∧ t.err = .truncatedStream) ∧ small.Inv ∧
    (running 0x9000FFFF#32).hostWaits ∧ illegalWord (running 0x9000FFFF#32).cmd ∧
    (latched.fatal = true ∧ Instr.valueat ≠ .init) :=
  ⟨⟨_, rfl, rfl⟩, small_inv, by decide, by decide, by decide⟩
theorem witness_NopClearsErr :
    small.fatal = false ∧ latched.fatal = true ∧ (running 0x0000FFFF#32).hostWaits ∧
      (running 0x0000FFFF#32).cmd.toNat / 2 ^ 28 = 0 ∧ (running 0x0000FFFF#32).cmd.toNat % 2 ^ 16 ≠ 0 := by decide
theorem witness_InitRecreatesEngine :
    (running 0x10008000#32).hostWaits ∧ (running 0x10008000#32).cmd.toNat / 2 ^ 28 = 1 ∧
      (running 0x10008000#32).cmd.toNat % 2 ^ 16 ≠ 0 := by decide
theorem witness_ObserveCountsAndRebuilds :
    small.fatal = false ∧ 0 < small.params.eofSym ∧ small.countOf 0 ≠ 0xFFFFFFFF#32 ∧ small.params.alphabet ≤ 4 ∧
      0 < full.params.eofSym ∧ full.countOf 0 = 0xFFFFFFFF#32 := by decide
theorem witness_GetcountReadsEntry :
    small.fatal = false ∧ 3 < small.params.alphabet ∧ small.params.alphabet ≤ 4 ∧ small.Inv ∧
      small.freq = initialFreq small.params ∧ 2 < small.params.eofSym ∧
      (∃ t, step (running 0x20000001#32) = .next t ∧ t.countOf 0 = 0#32 ∧ t.countOf 1 = 1#32) :=
  ⟨rfl, by decide, by decide, small_inv, rfl, by decide,
    by simpa using of_nextIs (check := fun t => t.countOf 0 == 0#32 && t.countOf 1 == 1#32) (by decide +kernel)⟩
theorem witness_CountsNeverDecrease :
    (∃ t, (running 0x20000000#32).Inv ∧ step (running 0x20000000#32) = .next t ∧ t.countOf 0 = 1#32) ∧
    (∃ t, (running 0x10000000#32).Inv ∧ step (running 0x10000000#32) = .next t ∧ t.freq = initialFreq t.params) := by
  refine ⟨?_, ?_⟩
  · obtain ⟨t, h1, h2⟩ := of_nextIs (r := step (running 0x20000000#32)) (check := fun t => t.countOf 0 == 1#32)
      (by decide +kernel)
    exact ⟨t, running_inv _, h1, by simpa using h2⟩
  · obtain ⟨t, h1, h2⟩ := of_nextIs (r := step (running 0x10000000#32))
      (check := fun t => t.freq == initialFreq t.params) (by decide +kernel)
    exact ⟨t, running_inv _, h1, by simpa using h2⟩
theorem witness_ObserveOrderDoesNotMatter :
    ∃ a b, exec (.observe 0) small = .next a ∧ a.err = .ok ∧ exec (.observe 2) a = .next b ∧ b.err = .ok :=
  ⟨_, _, rfl, rfl, rfl, rfl⟩

theorem witness_ComparatorIsStrictTotalOrder :
    ∃ a b c : Member, precedes a b = true ∧ precedes b c = true ∧ a.index ≠ b.index :=
  ⟨⟨1, leafNode 0#32⟩, ⟨2, leafNode 0#32⟩, ⟨0, leafNode 1#32⟩, by decide, by decide, by decide⟩
theorem witness_LeastMemberIsTaken :
    [(⟨0, leafNode 1#32⟩ : Member), ⟨1, leafNode 0#32⟩] ≠ [] ∧
      ([(⟨0, leafNode 1#32⟩ : Member), ⟨1, leafNode 0#32⟩].map Member.index).Nodup := by decide
theorem witness_BuildTreeStructure :
    2 ≤ ([5#32, 1#32] : List Count).length ∧ (buildTree [5#32, 1#32])[2]?.isSome ∧
      2 ≤ (List.replicate 65536 (0#32 : Count)).length ∧ (List.replicate 65536 (0#32 : Count)).length ≤ 65536 :=
  ⟨by decide, by decide, by rw [List.length_replicate]; omega, by rw [List.length_replicate]⟩
theorem witness_InternalNodesAreExactMerges :
    (buildTree [5#32, 1#32])[2]? = some { kind := .internal 1 0, weight := 6#48, depth := 1#16 } := by decide
theorem witness_CodewordIsTheUniquePath :
    small.params.legal ∧ small.freq.length = small.params.alphabet ∧ 3 < small.params.alphabet := by decide
theorem witness_PrefixFreeWithKraftEquality :
    ({ alphabet := 2, eofWeight := 1, inCap := 32 } : Params).legal ∧ ([0#32, 1#32] : List Count).length = 2 := by decide
theorem witness_MajorityLaw :
    pathTo small.params (buildTree [2#32, 0#32, 0#32, 1#32]) 0 = some [true] ∧
      (((List.range 4).filter (· ≠ 0)).map (countIn [2#32, 0#32, 0#32, 1#32])).sum <
        countIn [2#32, 0#32, 0#32, 1#32] 0 := by decide
theorem witness_InitialTreeIsBalanced :
    Params.hcc.legal ∧ Params.hcc.alphabet = 257 ∧
      ({ alphabet := 257, eofWeight := 2 ^ 32 - 1, inCap := 2 ^ 20 } : Params).legal := by decide
-- The two differ in IN_CAP and COUNT_OUT.
theorem witness_EqualCountsGiveEqualResults :
    ∃ s u : State, s.params.inCap ≠ u.params.inCap ∧ s.Inv ∧ u.Inv ∧ s.params.alphabet = u.params.alphabet ∧
      s.params.eofWeight = u.params.eofWeight ∧ s.freq = u.freq ∧ s.inLen = u.inLen ∧ s.inPos = u.inPos ∧
      (s.inLen.toNat ≤ s.params.inCap ↔ u.inLen.toNat ≤ u.params.inCap) ∧
      (∀ i < s.inLen.toNat, s.inBit i = u.inBit i) ∧ s.resultKind = u.resultKind ∧ s.resultSym = u.resultSym ∧
      s.pathLen = u.pathLen ∧ (∀ i < s.pathLen.toNat, s.pathBit i = u.pathBit i) ∧ 3 < s.params.alphabet ∧
      (∃ t, exec .decode s = .next t) ∧ (∃ t, exec .valueat s = .next t ∧ t.err = .ok) := by
  have inv := withInput_inv 3 0 2#32
  refine ⟨withInput 3 0 2#32,
    { withInput 3 0 2#32 with countOut := 5#32, params := { alphabet := 4, eofWeight := 1, inCap := 96 } }, by decide, inv,
    { inv with legal := by decide, memPlaces := by decide }, rfl, rfl, rfl, rfl, rfl, by decide, by decide, rfl, rfl, rfl,
    by decide, by decide, ?_, ?_⟩
  · obtain ⟨t, h, -⟩ := of_nextIs (r := exec .decode (withInput 3 0 2#32)) (check := fun _ => true) (by decide +kernel)
    exact ⟨t, h⟩
  · obtain ⟨t, h, h'⟩ := of_nextIs (r := exec .valueat (withInput 3 0 2#32)) (check := fun t => t.err == .ok)
      (by decide +kernel)
    exact ⟨t, h, by simpa using h'⟩
theorem witness_ValueatReportsTheNode :
    ((withPath 3 2#32).fatal = false ∧ (withPath 3 2#32).pathHas [false, true, false] ∧ 3 ≤ small.params.maxLen ∧
      walk small.params (withPath 3 2#32).node [false, true, false] = some 0 ∧
      (withPath 3 2#32).node[0]? = some (leafNode 0#32)) ∧
    (small.Inv ∧ small.pathLen = 0#32) ∧
    (small.params.maxLen < (withPath 4 0#32).pathLen.toNat) ∧
    ((withPath 2 1#32).pathHas [true, false] ∧ walk small.params (withPath 2 1#32).node [true, false] = none) ∧
    (walk small.params small.node [true] = some 3 ∧ 3 < small.params.alphabet) ∧
    (0 < ({ small with pathLen := 1#32 } : State).pathLen.toNat ∧ small.pathHas [] ∧ small.pathBit 0 = none) :=
  ⟨by decide, ⟨small_inv, rfl⟩, by decide, by decide, by decide, by decide⟩
theorem witness_EmitWritesTheWholeBuffer :
    small.params.legal ∧ [false, true, false].length ≤ small.params.maxLen ∧ [true, true, true].length = small.params.maxLen ∧
      ([] : List Bool).length ≤ small.params.maxLen := by decide
theorem witness_EncodeEmitsTheCodeword :
    small.Inv ∧ 3 < small.params.alphabet ∧ small.params.alphabet ≤ 4 ∧ small.fatal = false :=
  ⟨small_inv, by decide, by decide, rfl⟩
theorem witness_EofcodeEmitsTheSentinel :
    small.Inv ∧ (2 < small.params.eofSym ∧ walk small.params small.node [false, false] = some 2) ∧
      (running 0x40000001#32).hostWaits ∧ (running 0x40000001#32).cmd.toNat / 2 ^ 28 = 4 ∧
      (running 0x40000001#32).cmd.toNat % 2 ^ 16 ≠ 0 :=
  ⟨small_inv, by decide, by decide, by decide, by decide⟩
theorem witness_DecodeOutcomes :
    (small.params.inCap < (withInput 65 0 0#32).inLen.toNat ∧
      (withInput 3 4 0#32).inLen.toNat < (withInput 3 4 0#32).inPos.toNat) ∧
    (small.inLen.toNat ≤ small.params.inCap ∧ small.inPos = small.inLen) ∧
    ((withInput 64 0 2#32).inLen.toNat ≤ small.params.inCap ∧ (withInput 64 0 2#32).inputHas 0 [false, true, false] ∧
      walk small.params (withInput 64 0 2#32).node [false, true, false] = some 0 ∧ 0 < small.params.eofSym) ∧
    ((withInput 1 0 1#32).inputHas 0 [true] ∧ walk small.params (withInput 1 0 1#32).node [true] = some small.params.eofSym) ∧
    ((withInput 33 31 0#32).inputHas 31 [false] ∧ walk small.params (withInput 33 31 0#32).node [false] = some 5 ∧
      (withInput 33 31 0#32).inBit 32 = none) := by decide
theorem witness_DecodeConsumesOneCodeword :
    ∃ t, (withInput 4 0 0b1010#32).Inv ∧ exec .decode (withInput 4 0 0b1010#32) = .next t ∧
      (t.err == .ok && t.resultKind == .symbol) = true ∧
      decodeLoop (withInput 4 0 0b1010#32) 4 0 small.params.root = .leaf 0 3 ∧
      decodeLoop (withInput 2 0 0b1010#32) 2 0 small.params.root = .truncated := by
  obtain ⟨t, h1, h2⟩ := of_nextIs (r := exec .decode (withInput 4 0 0b1010#32))
    (check := fun t => t.err == .ok && t.resultKind == .symbol) (by decide +kernel)
  exact ⟨t, withInput_inv _ _ _, h1, h2, by decide, by decide⟩
theorem witness_TruncatedKeepsNoPartialPath :
    ∃ t v, exec .decode (withInput 2 0 2#32) = .next t ∧ (t.err == .truncatedStream) = true ∧
      exec .decode { withInput 2 0 2#32 with inLen := 3#32, mem := (withInput 2 0 2#32).mem } = .next v ∧
      (v.err == .ok) = true := by
  obtain ⟨t, h1, h2⟩ := of_nextIs (r := exec .decode (withInput 2 0 2#32)) (check := fun t => t.err == .truncatedStream)
    (by decide +kernel)
  obtain ⟨v, h3, h4⟩ := of_nextIs
    (r := exec .decode { withInput 2 0 2#32 with inLen := 3#32, mem := (withInput 2 0 2#32).mem })
    (check := fun t => t.err == .ok) (by decide +kernel)
  exact ⟨t, v, h1, h2, h3, h4⟩
-- The stream [0, 0] on T-B4 and then T-B5: `010`, `11`, and EOF of T-B6, `01`.
theorem witness_RoundTripRestoresTheStream :
    (small.Inv ∧ small.busy = false ∧ small.freq = initialFreq small.params ∧ (∀ x ∈ [0, 0], x < small.params.eofSym)) ∧
    ((encodeStream [0, 0] small).map Prod.fst = some [false, true, false, true, true, false, true]) ∧
    ((withInput 7 0 0b1011010#32).Inv ∧ (withInput 7 0 0b1011010#32).inLen.toNat = 7 ∧
      (withInput 7 0 0b1011010#32).inputHas 0 [false, true, false, true, true, false, true]) :=
  ⟨⟨small_inv, rfl, rfl, by decide⟩, by decide +kernel, withInput_inv _ _ _, by decide, by decide⟩
theorem witness_MacrosEncodeAndDecodeThenObserve :
    (withInput 3 0 2#32).Inv ∧ (withInput 3 0 2#32).busy = false ∧ 0 < small.params.eofSym ∧
      (withInput 3 0 2#32).countOf 0 ≠ 0xFFFFFFFF#32 ∧ (withInput 3 0 2#32).codeOf 0 = some [false, true, false] ∧
      (withInput 3 0 2#32).inputHas 0 [false, true, false] :=
  ⟨withInput_inv _ _ _, rfl, by decide, by decide, by decide, by decide⟩
theorem witness_CommandFrames :
    (∃ t, exec .valueat small = .next t) ∧ (∃ t, exec (.observe 1) small = .next t) :=
  ⟨⟨_, (of_nextIs (check := fun _ => true) (by decide +kernel)).choose_spec.1⟩, ⟨_, rfl⟩⟩

theorem witness_WindowAccessEffects :
    small.params.legal ∧ small.busy = false ∧ inBuffers small.params 0x3000 ∧ inBuffers small.params 0x10004 ∧
      ¬ inBuffers small.params 0x3004 ∧ ¬ inBuffers small.params 0x10008 ∧ ¬ inBuffers small.params 0x004 ∧
      ¬ inBuffers small.params 0x048 ∧ ¬ (codeBase ≤ 0x048 ∧ 0x048 < codeBase + 4 * small.params.codeWords) ∧
      ¬ inBuffers small.params 0x3FFFC := by decide
theorem witness_RegisterReadsReturnTheFields : small.busy = false := rfl
theorem witness_StreamBitOrder :
    inBase % 4 = 0 ∧ pathBase % 4 = 0 ∧ 32 / 32 ≠ 0 ∧ 31 < 32 * 1 ∧ 31 < (List.replicate 32 true).length := by decide
theorem witness_ReadReturnsTheLatestWrite :
    small.params.legal ∧ small.busy = false ∧ (0x018#18).toNat ∈ [0x018, 0x01C, 0x020] ∧
      0 < small.params.codeWords ∧ small.codeBits.length = small.params.codeWords ∧ small.hostWaits ∧
      illegalWord 0x00000001#32 ∧
      (∃ t u, hostAccess (.write 4 0x000#18 0x00000000#32) small = .next t ∧ step t = .next u) :=
  ⟨by decide, rfl, by decide, by decide, by decide, by decide, by decide, ⟨_, _, rfl, rfl⟩⟩
theorem witness_UnalignedAccessIsRefused : (2 ≠ 4 ∨ (0#18).toNat % 4 ≠ 0) ∧ (4 ≠ 4 ∨ (3#18).toNat % 4 ≠ 0) := by decide
theorem witness_BusyHazard : (running 0#32).busy = true ∧ (0x3FFFC#18).toNat % 4 = 0 := by decide
theorem witness_UnwrittenWordReadsAreFree :
    small.params.legal ∧ small.busy = false ∧ inBuffers small.params 0x10000 ∧ Memory.readWord small.mem 0x10000 = none ∧
      Memory.readWord (withInput 1 0 7#32).mem 0x10000 = some 7#32 := by decide
theorem witness_ResetBuildReachesTheResetState :
    ∃ t, hostAccess .reset (running 0x20000000#32) = .next t ∧ t.hostWaits := ⟨_, rfl, by decide⟩
theorem witness_ResetMeetsTheInvariant :
    ({ alphabet := 2, eofWeight := 1, inCap := 32 } : Params).legal ∧ Params.hcc.legal ∧
      ({ alphabet := 65536, eofWeight := 2 ^ 32 - 1, inCap := 2 ^ 20 } : Params).legal := by decide
-- Two instances side by side: the second is busy.
theorem witness_InstancesShareNothing :
    let sys : Platform := [{ base := 0, state := small }, { base := 2 ^ 18, state := running 0x20000000#32 }]
    sys.apart ∧ (∃ x, sys[1]? = some x ∧ x.state.busy = true ∧ ∃ t, step x.state = .next t) ∧
      (∃ t, hostAccess (.read 4 0x3FFFC#18) small = .next t) ∧ (∃ t, hostAccess (.write 4 0x000#18 0#32) small = .next t) ∧
      (∀ x ∈ sys, 2 ^ 19 < x.base ∨ x.base + 2 ^ 18 ≤ 2 ^ 19) ∧
      (∃ sys', platformRun [.write 4 0x018 7#32, .step 1, .reset 0] sys = .next sys') :=
  ⟨by decide, ⟨_, rfl, rfl, _, rfl⟩, ⟨_, rfl⟩, ⟨_, rfl⟩, by decide, ⟨_, rfl⟩⟩
theorem witness_StepKeepsTheInvariant : ∃ t, (running 0x00000000#32).Inv ∧ step (running 0x00000000#32) = .next t :=
  ⟨_, running_inv _, rfl⟩

end Sys2Proof.Tests
end

section
/-! PROOFS. What the step does with a command word in flight (00_scope.md R13, 20_memory.md R55, 30_encoding.md R79). -/

namespace Sys2Proof

/-- A command without operand is accepted where its operand field is zero (30_encoding.md R74 (c)). -/
@[simp] theorem operandFree_zero (i : Instr) : operandFree 0#16 i = .ok i := if_pos rfl

/-- Of an assembled word only the opcode and the operand are left to decode: its reserved field is zero. -/
theorem decodeCmd_encode {i : Instr} (wf : i.wellFormed) : decodeCmd (encode i) = .ok i := by
  have operand {sym : Nat} (fits : operandFits sym) : (BitVec.ofNat 16 sym).toNat = sym :=
    Nat.mod_eq_of_lt fits
  cases i with
  | nop | init | eofcode | decode | valueat => simp [encode, decodeCmd]
  | observe sym | encode sym | getcount sym => simp [encode, decodeCmd, operand wf]

namespace Machine

/-- A legal command word runs as the command it decodes to. -/
theorem runCommand_eq_exec {s : State} {i : Instr} (legal : decodeCmd s.cmd = .ok i) : runCommand s = exec i s := by
  rw [runCommand, legal]

/-- A command in flight that no host step comes before is what the step runs. -/
theorem step_command {s : State} (command : s.engine = .command) (waits : s.hostWaits) : step s = runCommand s := by
  have busy : s.busy = true := by rw [State.busy, command]
  have moves : engineStep s = runCommand s := by rw [engineStep, command]
  exact (agentStep_busy busy waits).trans moves

/-- Step clause of a legal command in flight (20_memory.md R55). -/
theorem step_eq_exec {s : State} {i : Instr} (command : s.engine = .command) (waits : s.hostWaits)
    (legal : decodeCmd s.cmd = .ok i) : step s = exec i s :=
  (step_command command waits).trans (runCommand_eq_exec legal)

/-- Placing a word in flight leaves no host step to come before the command ends (log 11). -/
theorem issueWord_hostWaits (s : State) (w : Word) : (issueWord s w).hostWaits := by
  intro h oldest
  rw [issueWord_host] at oldest
  cases pending : s.host with
  | nil => simp [pending, deferOldest] at oldest
  | cons first later =>
    have deferred : { first with whileBusy := false } = h := by simpa [pending, deferOldest] using oldest
    rw [← deferred]

/-- Fetching the 32-bit number of a word places that word. -/
theorem withFetchWord_toNat (s : State) (w : Word) : s.withFetchWord 32 w.toNat = issueWord s w := by
  rw [State.withFetchWord, Nat.mod_eq_of_lt w.isLt, BitVec.ofNat_toNat, BitVec.setWidth_eq]

end Machine

open Machine

/-- Settles O6: the engine's turn is the decoded command, and a placed word has the engine's turn next. -/
theorem stepRunsDecodedCommand : Obligations.StepRunsDecodedCommand := by
  unfold Obligations.StepRunsDecodedCommand
  refine ⟨fun s i command waits legal => step_eq_exec command waits legal, fun s i wf => ?_⟩
  rw [withFetchWord_toNat]
  exact ⟨step_eq_exec (issueWord_engine s _) (issueWord_hostWaits s _) (decodeCmd_encode wf), issueWord_cmd s _⟩

end Sys2Proof
end

section
/-! PROOFS. What a host access does to the register window, and which step takes it (20_memory.md R53–R55; 10_state.md
R21, R22; 93_implementation_defined.md U3). -/

namespace Sys2Proof.Machine

/-- With BUSY = 0 the oldest pending host step is the one taken. -/
theorem step_idle_host {s : State} {h : HostStep} {later : List HostStep} (idle : s.busy = false)
    (pending : s.host = h :: later) : step s = hostAccess h.access { s with host := later } := by
  rw [step, agentStep, pending]
  exact if_neg (by simp [idle])

/-- With BUSY = 0 a read of a location that has a value returns it. -/
theorem answerRead_of_some {s : State} {l : Location} {w : Word} (idle : s.busy = false)
    (value : s.readIdle l = some w) : s.answerRead l = { s with reply := some w } := by
  simp [State.answerRead, idle, value]

/-- With BUSY = 0 a read of a location that has no value draws a free one. -/
theorem answerRead_of_none {s : State} {l : Location} (idle : s.busy = false) (free : s.readIdle l = none) :
    s.answerRead l = { s with reply := some (Config.freeWord s.fresh), fresh := s.fresh + 1 } := by
  simp [State.answerRead, idle, free]

/-- Every register's offset is a multiple of 4. -/
theorem Register.offset_aligned (r : Register) : r.offset.toNat % 4 = 0 := by cases r <;> rfl

/-- No two registers share an offset: what stands there is one register. -/
theorem Register.offset_injective {r r' : Register} (same : r.offset = r'.offset) : r = r' := by
  have here := locate_offset Params.hcc r
  rw [same, locate_offset] at here
  exact (Location.register.inj here).symm

/-- With BUSY = 0 a read of a register's offset returns the register. -/
theorem hostAccess_readRegister {s : State} (idle : s.busy = false) (r : Register) :
    hostAccess (.read 4 r.offset) s = .next { s with reply := some (s.readRegister r) } := by
  rw [hostAccess_read s r.offset_aligned, locate_offset, answerRead_of_some idle rfl]

/-- With BUSY = 0 a write of CMD stores the word and sets it running. -/
theorem hostAccess_writeCmd {s : State} (idle : s.busy = false) (w : Word) :
    hostAccess (.write 4 Register.cmd.offset w) s = .next { s with cmd := w, engine := .command } := by
  rw [hostAccess_write idle Register.cmd.offset_aligned, locate_offset, State.acceptWrite]

end Sys2Proof.Machine
end

section
/-! PROOFS. The registers' values as numbers (10_state.md R22–R32; 60_exceptions.md R200). -/

namespace Sys2Proof.Machine

/-- Bit strings put side by side, as a number. -/
theorem toNat_append_eq_add {m n : Nat} (x : BitVec m) (y : BitVec n) :
    (x ++ y).toNat = x.toNat * 2 ^ n + y.toNat := by
  rw [BitVec.toNat_append, ← Nat.shiftLeft_add_eq_or_of_lt y.isLt, Nat.shiftLeft_eq]

/-- The STATUS word as a number: each field at its place (10_state.md R23). -/
theorem statusWord_toNat (err : BitVec 4) (busy fatal : Bool) :
    (statusWord err busy fatal).toNat = err.toNat + 256 * busy.toNat + 512 * fatal.toNat := by
  have fields : (statusWord err busy fatal).toNat =
      (0#22 ++ BitVec.ofBool fatal ++ BitVec.ofBool busy ++ 0#4 ++ err).toNat := rfl
  simp only [fields, toNat_append_eq_add, BitVec.toNat_ofBool, BitVec.toNat_ofNat]
  omega

/-- With BUSY = 0 the STATUS register is ERR and FATAL. -/
theorem readRegister_status_toNat {s : State} (idle : s.busy = false) :
    (s.readRegister .status).toNat = s.err.code.toNat + 512 * s.fatal.toNat := by
  simp [State.readRegister, statusWord_toNat, idle]

end Sys2Proof.Machine
end

section
/-! PROOFS. Every command and every host access keeps the invariant. -/

namespace Sys2Proof.Machine

/-- The codeword found for a symbol fits the codeword buffer. -/
theorem State.Inv.codeOf_length {s : State} (inv : s.Inv) {sym : Nat} {code : List Bool}
    (inRange : sym < s.params.alphabet) (found : s.codeOf sym = some code) : code.length ≤ s.params.maxLen := by
  obtain ⟨_, found', -, fits⟩ := inv.codeOf_total inRange
  rwa [Option.some.inj (found.symm.trans found')]

/-- NotFound does not occur (60_exceptions.md R203). -/
theorem State.Inv.codeOf_ne_none {s : State} (inv : s.Inv) {sym : Nat} (inRange : sym < s.params.alphabet) :
    s.codeOf sym ≠ none := by
  obtain ⟨_, found, -, -⟩ := inv.codeOf_total inRange
  simp [found]

/-- The leaf the decode loop ends at is a symbol. -/
theorem State.Inv.decodeLoop_leaf_lt {s : State} (inv : s.Inv) {remaining pos n p : Nat}
    (found : decodeLoop s remaining pos s.params.root = .leaf n p) : n < s.params.alphabet := by
  have ends := inv.decodeLoop_cases remaining pos
  rw [found] at ends
  obtain ⟨inRange, -⟩ := ends
  exact inRange

/-- The internal InvalidPath does not occur (60_exceptions.md R203). -/
theorem State.Inv.decodeLoop_ne_broken {s : State} (inv : s.Inv) (remaining pos : Nat) :
    decodeLoop s remaining pos s.params.root ≠ .broken := by
  intro broken
  have ends := inv.decodeLoop_cases remaining pos
  rwa [broken] at ends

/-- A walk ends at a node index. -/
theorem State.Inv.walk_lt {s : State} (inv : s.Inv) {path : List Bool} {n : Nat}
    (found : walk s.params s.node path = some n) : n < s.params.nodes :=
  Machine.walk_lt inv.freqLength inv.legal.1 (inv.tree ▸ found)

/-- No effect of a command breaks the invariant: the two fatal errors cannot occur under it (60_exceptions.md R203), and
each write is one of the operations that keep it. -/
theorem State.Inv.effect {s t : State} {i : Instr} (inv : s.Inv) (e : Effect s i t) : t.Inv := by
  cases e with
  | raised _ e _ => exact inv.raise e
  | nop _ => exact inv.done
  | init => exact inv.initEngine.congr rfl rfl rfl rfl rfl rfl rfl rfl rfl
  | observe sym _ _ data _ => exact (inv.count data).done
  | getcount sym _ _ => exact inv.congr rfl inv.noFatal rfl rfl rfl rfl rfl rfl rfl
  | encode sym code _ inRange found => exact (inv.emit (inv.codeOf_length inRange found)).done
  | encodeLost sym _ inRange lost => exact absurd lost (inv.codeOf_ne_none inRange)
  | eofcode code _ found => exact (inv.emit (inv.codeOf_length inv.eofSym_lt found)).done
  | eofcodeLost _ lost => exact absurd lost (inv.codeOf_ne_none inv.eofSym_lt)
  | decodeSymbol n p _ _ _ found _ => exact (inv.decodedSymbol (inv.decodeLoop_leaf_lt found)).done
  | decodeEof p _ _ _ _ => exact inv.decodedEof.done
  | decodeTruncated _ _ _ _ => exact inv.congr rfl inv.noFatal rfl rfl rfl rfl rfl rfl rfl
  | decodeBroken _ _ _ broken => exact absurd broken (inv.decodeLoop_ne_broken _ _)
  | valueat path n r _ _ _ found _ => exact (inv.reportNode (inv.walk_lt found)).done

/-- A command word, legal or not, keeps the invariant. -/
theorem State.Inv.runCommand {s t : State} (inv : s.Inv) (ran : Machine.runCommand s = .next t) : t.Inv := by
  rcases runCommand_next ran with ⟨_, -, rfl⟩ | ⟨i, -, executed⟩
  · exact inv.raise _
  · exact inv.effect (exec_effect executed)

/-- A host access that has a meaning keeps the invariant. -/
theorem State.Inv.hostAccess {a : HostAccess} {s t : State} (inv : s.Inv) (taken : Machine.hostAccess a s = .next t) :
    t.Inv := by
  rcases hostAccess_next taken with ⟨-, rfl⟩ | ⟨offset, -, -, rfl⟩ | ⟨offset, w, -, -, -, rfl⟩
  · exact inv.assertReset
  · exact inv.answerRead _
  · exact inv.acceptWrite offset w

/-- The list of pending host steps is not part of the invariant. -/
theorem State.Inv.withHost {s : State} (inv : s.Inv) (later : List HostStep) : ({ s with host := later } : State).Inv :=
  inv.congr rfl inv.noFatal rfl rfl rfl rfl rfl rfl rfl

/-- Every step keeps the invariant, whichever of the engine and the host moves. -/
theorem State.Inv.step {s t : State} (inv : s.Inv) (stepped : Machine.step s = .next t) : t.Inv := by
  rcases step_next stepped with ⟨-, -, rfl⟩ | ⟨-, ran⟩ | ⟨-, rfl⟩ | ⟨a, later, -, taken⟩
  · exact inv
  · exact inv.runCommand ran
  · exact inv.finishResetBuild
  · exact (inv.withHost later).hostAccess taken

end Sys2Proof.Machine
end

section
/-! PROOFS. The statements of 10_state.md. -/

namespace Sys2Proof

open Machine

/-- Settles O50: a step is a command, the end of the reset build, a host access or nothing, and each keeps the
invariant. -/
theorem stepKeepsTheInvariant : Obligations.StepKeepsTheInvariant := by
  unfold Obligations.StepKeepsTheInvariant
  exact fun s t inv stepped => inv.step stepped

/-- Settles O40: a read at a register's offset answers the register, whose word is the field as a number. -/
theorem registerReadsReturnTheFields : Obligations.RegisterReadsReturnTheFields := by
  unfold Obligations.RegisterReadsReturnTheFields
  intro s idle
  refine ⟨fun r => ⟨_, _, hostAccess_readRegister idle r, rfl, ?_⟩, fun _ _ => Register.offset_injective,
    fun r => ?_⟩
  · cases r with
    | cmd | countOut | pathLen | inLen | inPos | valKey | valWeightLo | paramCw => rfl
    | resultSym | codeLen | valDepth | valWeightHi => exact BitVec.toNat_setWidth_of_le (by omega)
    | paramA | paramEofWeight | paramInCap => exact BitVec.toNat_ofNat ..
    | status =>
      rw [readRegister_status_toNat idle]
      cases s.err <;> rfl
    | resultKind =>
      rw [State.readRegister]
      cases s.resultKind <;> rfl
    | valKind =>
      rw [State.readRegister]
      cases s.valKind <;> rfl
  · cases r <;> rfl

/-- Settles O45: a buffer word read while BUSY = 0 is its value where written, and a free one elsewhere. -/
theorem unwrittenWordReadsAreFree : Obligations.UnwrittenWordReadsAreFree := by
  unfold Obligations.UnwrittenWordReadsAreFree
  intro s a legal idle aligned inside
  rw [hostAccess_read s aligned, ← readIdle_buffer legal aligned inside]
  exact ⟨fun unwritten => by rw [answerRead_of_none idle unwritten],
    fun w written => by rw [answerRead_of_some idle written]⟩

/-- Settles O7: the idle machine takes the write of CMD, and the engine then has the turn. -/
theorem commandLineTakesTwoSteps : Obligations.CommandLineTakesTwoSteps := by
  unfold Obligations.CommandLineTakesTwoSteps
  intro s i later wf idle pending waits
  have notBusy : s.busy = false := by rw [State.busy, idle]
  refine ⟨{ s with cmd := encode i, engine := .command, host := later }, ?_, rfl, rfl, ?_⟩
  · rw [step_idle_host notBusy pending]
    exact hostAccess_writeCmd (s := { s with host := later }) notBusy (encode i)
  · exact step_eq_exec rfl waits (decodeCmd_encode wf)

end Sys2Proof
end

section
/-! PROOFS. Words, bytes and bits of the bit buffers (20_memory.md R51). -/

namespace Sys2Proof.Machine

/-- Bit `k` of a word is bit `k mod 8` of its byte `k div 8`. -/
theorem byteOfWord_getLsbD (w : Word) (k : Nat) : (byteOfWord w (k / 8)).getLsbD (k % 8) = w.getLsbD k := by
  rw [byteOfWord, BitVec.getLsbD_extractLsb', Nat.div_add_mod]
  simp [Nat.mod_lt k (by decide : 8 > 0)]

/-- A stream bit of a buffer word that is written. -/
theorem bufferBit_of_readWord {m : Memory} {base i : Nat} {w : Word}
    (written : Memory.readWord m (base + 4 * (i / 32)) = some w) : bufferBit m base i = some (w.getLsbD (i % 32)) := by
  rw [bufferBit, written]

/-- Storing word `j` sets its 32 stream bits to the word's. -/
theorem bufferBit_writeWord_same (m : Memory) (base j : Nat) (v : Word) {k : Nat} (hk : k < 32) :
    bufferBit (Memory.writeWord m (base + 4 * j) v) base (32 * j + k) = some (v.getLsbD k) := by
  have word : (32 * j + k) / 32 = j := by omega
  have bit : (32 * j + k) % 32 = k := by omega
  rw [bufferBit_of_readWord (w := v) (by rw [word, Memory.readWord_writeWord_same]), bit]

/-- Storing word `j` leaves every stream bit of another word. -/
theorem bufferBit_writeWord_other (m : Memory) (base : Nat) {i j : Nat} (v : Word) (other : i / 32 ≠ j) :
    bufferBit (Memory.writeWord m (base + 4 * j) v) base i = bufferBit m base i := by
  rw [bufferBit, Memory.readWord_writeWord_other m v (by omega), bufferBit]

/-- Storing word `j` puts its bit `k` into the byte of stream bit `32j + k`. -/
theorem readByte_writeWord_streamByte (m : Memory) (base j : Nat) (v : Word) {k : Nat} (hk : k < 32) :
    Memory.readByte (Memory.writeWord m (base + 4 * j) v) (base + (32 * j + k) / 8) =
      some (byteOfWord v (k / 8)) := by
  have byte : base + (32 * j + k) / 8 - (base + 4 * j) = k / 8 := by omega
  rw [Memory.readByte_writeWord, if_pos (by omega), byte]

/-- Word `j` of a packed buffer (42_encoder.md R153). -/
theorem packWords_getElem? {words j : Nat} (code : List Bool) (inside : j < words) :
    (packWords words code)[j]? = some (packWord code j) := by
  rw [packWords, List.getElem?_map, List.getElem?_range inside, Option.map_some]

end Sys2Proof.Machine
end

section
/-! PROOFS. What the host's reads and writes of each place of the window do while BUSY = 0 (20_memory.md R52–R54), and
that an access of another shape is refused. -/

namespace Sys2Proof.Machine

/-- A read that is not one aligned word is refused. -/
theorem hostAccess_read_unaligned {bytes : Nat} {a : Offset} (unaligned : ¬ alignedWord bytes a) (s : State) :
    hostAccess (.read bytes a) s = .refused .accessNotAlignedWord := if_neg unaligned

/-- A write that is not one aligned word is refused. -/
theorem hostAccess_write_unaligned {bytes : Nat} {a : Offset} (unaligned : ¬ alignedWord bytes a) (v : Word)
    (s : State) : hostAccess (.write bytes a v) s = .refused .accessNotAlignedWord := if_neg unaligned

/-- With BUSY = 0 an aligned read of a place that has a value returns it. -/
theorem hostAccess_read_of_some {s : State} {a : Offset} {w : Word} (idle : s.busy = false)
    (aligned : a.toNat % 4 = 0) (value : s.readIdle (locate s.params a) = some w) :
    hostAccess (.read 4 a) s = .next { s with reply := some w } := by
  rw [hostAccess_read s aligned, answerRead_of_some idle value]

/-- With BUSY = 0 a write of a register's offset is the register's write. -/
theorem hostAccess_writeRegister {s : State} (idle : s.busy = false) (r : Register) (v : Word) :
    hostAccess (.write 4 r.offset v) s = .next (s.acceptWrite (.register r) v) := by
  rw [hostAccess_write idle r.offset_aligned, locate_offset]

/-- With BUSY = 0 a write inside a buffer stores the word there and does nothing else. -/
theorem hostAccess_writeBuffer {s : State} (legal : s.params.legal) (idle : s.busy = false) {a : Offset}
    (aligned : a.toNat % 4 = 0) (inside : inBuffers s.params a.toNat) (v : Word) :
    hostAccess (.write 4 a v) s = .next { s with mem := Memory.writeWord s.mem a.toNat v } := by
  rw [hostAccess_write idle aligned, acceptWrite_buffer legal aligned inside]

/-- With BUSY = 0 a read of a written word of a buffer returns it. -/
theorem hostAccess_readBuffer {s : State} (legal : s.params.legal) (idle : s.busy = false) {a : Offset}
    (aligned : a.toNat % 4 = 0) (inside : inBuffers s.params a.toNat) {w : Word}
    (written : Memory.readWord s.mem a.toNat = some w) :
    hostAccess (.read 4 a) s = .next { s with reply := some w } :=
  hostAccess_read_of_some idle aligned ((readIdle_buffer legal aligned inside).trans written)

/-- The offset of word `j` of `CODE_BITS` (20_memory.md R53). -/
theorem codeWord_offset {p : Params} (legal : p.legal) {j : Nat} (inside : j < p.codeWords) :
    (BitVec.ofNat 18 (codeBase + 4 * j)).toNat = codeBase + 4 * j := by
  have base : codeBase = 0x1000 := rfl
  have room := codeWords_le legal
  exact (BitVec.toNat_ofNat ..).trans (Nat.mod_eq_of_lt (by omega))

/-- With BUSY = 0 a read of word `j` of `CODE_BITS` returns it. -/
theorem hostAccess_readCodeWord {s : State} (legal : s.params.legal) (idle : s.busy = false) {j : Nat}
    (inside : j < s.params.codeWords) :
    hostAccess (.read 4 (BitVec.ofNat 18 (codeBase + 4 * j))) s =
      .next { s with reply := some (s.codeBits.getD j 0#32) } := by
  have base : codeBase = 0x1000 := rfl
  have offset := codeWord_offset legal inside
  have word : (codeBase + 4 * j - codeBase) / 4 = j := by omega
  refine hostAccess_read_of_some idle (by omega) ?_
  rw [locate_codeWord (by omega), offset, word, State.readIdle]

/-- Bit `k` of word `j` of `CODE_BITS` is bit `32j + k` of the codeword buffer (10_state.md R37). -/
theorem codeBits_getLsbD (s : State) (j : Nat) {k : Nat} (hk : k < 32) :
    (s.codeBits.getD j 0#32).getLsbD k = s.codeBit (32 * j + k) := by
  have word : (32 * j + k) / 32 = j := by omega
  have bit : (32 * j + k) % 32 = k := by omega
  rw [State.codeBit, word, bit]

/-- A write of a register that is not `CMD`, `PATH_LEN`, `IN_LEN` or `IN_POS` does nothing (10_state.md R21). -/
theorem acceptWrite_readOnly (s : State) {r : Register} (v : Word)
    (readOnly : r.offset.toNat ∉ [0x000, 0x018, 0x01C, 0x020]) : s.acceptWrite (.register r) v = s := by
  cases r with
  | cmd | pathLen | inLen | inPos => exact absurd (by decide) readOnly
  | _ => rfl

/-- A write of an aligned word at a place that is not writable does nothing. -/
theorem acceptWrite_ignored {s : State} {a : Offset} (aligned : a.toNat % 4 = 0)
    (notRegister : a.toNat ∉ [0x000, 0x018, 0x01C, 0x020]) (outside : ¬ inBuffers s.params a.toNat) (v : Word) :
    s.acceptWrite (locate s.params a) v = s := by
  by_cases low : a.toNat < 0x48
  · obtain ⟨r, rfl, here⟩ := locate_register s.params low aligned
    rw [here, acceptWrite_readOnly s v notRegister]
  · by_cases code : codeBase ≤ a.toNat ∧ a.toNat < codeBase + 4 * s.params.codeWords
    · rw [locate_codeWord code]; rfl
    · rw [locate_reserved (by omega) outside code]; rfl

/-- A register that keeps what the host writes to it while BUSY stays 0: `PATH_LEN`, `IN_LEN` or `IN_POS`. -/
theorem acceptWrite_kept {r : Register} (kept : r.offset.toNat ∈ [0x018, 0x01C, 0x020]) (s : State) (v : Word) :
    (s.acceptWrite (.register r) v).busy = s.busy ∧ (s.acceptWrite (.register r) v).readRegister r = v := by
  cases r with
  | pathLen | inLen | inPos => exact ⟨rfl, rfl⟩
  | _ => exact absurd kept (by decide)

end Sys2Proof.Machine
end

section
/-! PROOFS. A command that ends leaves CMD and clears BUSY, and every illegal word ends (10_state.md R22, R23;
30_encoding.md R74; 60_exceptions.md R201). -/

namespace Sys2Proof

/-- An operand-free command is illegal exactly where its operand field is not zero (30_encoding.md R74 (c)). -/
theorem operandFree_error_iff {operand : BitVec 16} {i : Instr} :
    (∃ e, operandFree operand i = .error e) ↔ operand.toNat ≠ 0 := by
  unfold operandFree
  split
  case isTrue zero => simp [zero]
  case isFalse notZero => exact ⟨fun _ zero => notZero (BitVec.eq_of_toNat_eq zero), fun _ => ⟨_, rfl⟩⟩

namespace Machine

/-- The decoder rejects exactly the illegal words. -/
theorem decodeCmd_error_iff (w : Word) : (∃ e, decodeCmd w = .error e) ↔ illegalWord w := by
  rw [illegalWord, ← opcOf_toNat, ← rsvOf_toNat, ← operandOf_toNat, decodeCmd]
  split
  case isTrue reserved =>
    have nonzero : (rsvOf w).toNat ≠ 0 := fun zero => reserved (BitVec.eq_of_toNat_eq zero)
    exact ⟨fun _ => .inr (.inl nonzero), fun _ => ⟨_, rfl⟩⟩
  case isFalse unreserved =>
    have zero : rsvOf w = 0#12 := not_not.mp unreserved
    split
    case h_1 opc | h_2 opc | h_5 opc | h_6 opc | h_8 opc => simp [opc, zero, operandFree_error_iff]
    case h_3 opc | h_4 opc | h_7 opc => simp [opc, zero]
    case h_9 =>
      have reserved : 8 ≤ (opcOf w).toNat := by simp only [imp_false] at *; omega
      exact ⟨fun _ => .inl reserved, fun _ => ⟨_, rfl⟩⟩

/-- No command writes CMD, and each ends with BUSY = 0. -/
theorem Effect.cmd_busy {s t : State} {i : Instr} (e : Effect s i t) : t.cmd = s.cmd ∧ t.busy = false := by
  cases e <;> exact ⟨rfl, rfl⟩

/-- The same of every word run, legal or not. -/
theorem runCommand_cmd_busy {s t : State} (ran : runCommand s = .next t) : t.cmd = s.cmd ∧ t.busy = false := by
  rcases runCommand_next ran with ⟨_, -, rfl⟩ | ⟨i, -, executed⟩
  · exact ⟨rfl, rfl⟩
  · exact (exec_effect executed).cmd_busy

/-- Once the command in flight has ended, CMD is as it was and BUSY = 0. -/
theorem step_command_cmd_busy {s t : State} (stepped : step s = .next t) (command : s.engine = .command)
    (waits : s.hostWaits) : t.cmd = s.cmd ∧ t.busy = false :=
  runCommand_cmd_busy ((step_command command waits).symm.trans stepped)

/-- An illegal word in flight ends with IllegalCommand, whatever FATAL is (60_exceptions.md R204). -/
theorem step_illegal {s : State} (command : s.engine = .command) (waits : s.hostWaits) (illegal : illegalWord s.cmd) :
    step s = .next (s.raise .illegalCommand) := by
  obtain ⟨e, rejected⟩ := (decodeCmd_error_iff s.cmd).mpr illegal
  rw [step_command command waits, runCommand, rejected]

end Machine
end Sys2Proof
end

section
/-! PROOFS. The statements of 20_memory.md. -/

namespace Sys2Proof

open Machine

/-- Settles O43: an access of another width or at another offset is not an aligned word. -/
theorem unalignedAccessIsRefused : Obligations.UnalignedAccessIsRefused := by
  unfold Obligations.UnalignedAccessIsRefused
  intro s bytes a v wrong
  have unaligned : ¬ alignedWord bytes a := by
    rintro ⟨width, offset⟩
    exact wrong.elim (· width) (· offset)
  exact ⟨hostAccess_read_unaligned unaligned s, hostAccess_write_unaligned unaligned v s⟩

/-- Settles O42: a stored word is its four bytes, and a packed one holds its 32 bits of the codeword. -/
theorem streamBitOrder : Obligations.StreamBitOrder := by
  unfold Obligations.StreamBitOrder
  refine ⟨fun m base j v _ => ⟨fun k hk => bufferBit_writeWord_same m base j v hk, fun k hk => ?_,
    fun i other => bufferBit_writeWord_other m base v other⟩, fun words code i inside short => ?_⟩
  · have bit : (32 * j + k) % 8 = k % 8 := by omega
    refine ⟨_, readByte_writeWord_streamByte m base j v hk, ?_⟩
    rw [bit, byteOfWord_getLsbD]
  · refine ⟨_, packWords_getElem? code (by omega), ?_⟩
    rw [packWord_getLsbD code _ (Nat.mod_lt i (by omega)), Nat.div_add_mod]
    simp [short]

/-- Settles O39: each place of the window, by what stands there. -/
theorem windowAccessEffects : Obligations.WindowAccessEffects := by
  unfold Obligations.WindowAccessEffects
  refine ⟨fun s a v legal idle aligned => ?_, fun s a legal idle aligned high outside notCode => ?_,
    fun s a aligned => ⟨_, hostAccess_read s aligned, answerRead_sameHcc s _⟩⟩
  · have register (r : Register) (here : a.toNat = r.offset.toNat) :
        hostAccess (.write 4 a v) s = .next (s.acceptWrite (.register r) v) := by
      obtain rfl : a = r.offset := BitVec.eq_of_toNat_eq here
      exact hostAccess_writeRegister idle r v
    refine ⟨register .cmd, register .pathLen, register .inLen, register .inPos, fun inside => ?_,
      fun notRegister outside => ?_⟩
    · refine ⟨_, hostAccess_writeBuffer legal idle aligned inside v, rfl, Memory.readWord_writeWord_same .., ?_⟩
      intro offset apart
      rw [Memory.readByte_writeWord, if_neg (by omega)]
    · rw [hostAccess_write idle aligned, acceptWrite_ignored aligned notRegister outside]
  · exact hostAccess_read_of_some idle aligned (by rw [locate_reserved high outside notCode]; rfl)

/-- Settles O41: what a write stored is the value the next read of that place finds. -/
theorem readReturnsTheLatestWrite : Obligations.ReadReturnsTheLatestWrite := by
  unfold Obligations.ReadReturnsTheLatestWrite
  refine ⟨fun s a v legal idle aligned place => ?_, fun s j legal idle inside _ => ?_, fun s w idle waits => ?_⟩
  · rcases place with low | inside
    · have small : a.toNat < 0x48 := (by decide : ∀ n ∈ [0x018, 0x01C, 0x020], n < 0x48) _ low
      obtain ⟨r, rfl, -⟩ := locate_register s.params small aligned
      obtain ⟨busy, value⟩ := acceptWrite_kept low s v
      exact ⟨_, _, hostAccess_writeRegister idle r v, hostAccess_readRegister (busy.trans idle) r,
        congrArg some value⟩
    · exact ⟨_, _, hostAccess_writeBuffer legal idle aligned inside v,
        hostAccess_readBuffer (s := { s with mem := Memory.writeWord s.mem a.toNat v }) legal idle aligned inside
          (Memory.readWord_writeWord_same ..), rfl⟩
  · exact ⟨_, _, hostAccess_readCodeWord legal idle inside, rfl, fun k hk => codeBits_getLsbD s j hk⟩
  · refine ⟨_, hostAccess_writeCmd idle w, fun illegal => ⟨_, step_illegal rfl waits illegal⟩, fun u stepped => ?_⟩
    obtain ⟨cmd, ended⟩ := step_command_cmd_busy stepped rfl waits
    exact ⟨ended, _, hostAccess_readRegister ended .cmd, congrArg some cmd⟩

end Sys2Proof
end

section
/-! PROOFS. A word and the command it decodes to determine each other (30_encoding.md R73, R74, R77, R79), and how many
commands have a word. -/

namespace Sys2Proof

/-- What an accepted operand-free command is, and where its operand field is (30_encoding.md R74 (c)). -/
theorem operandFree_ok_iff {operand : BitVec 16} {i j : Instr} :
    operandFree operand i = .ok j ↔ operand = 0#16 ∧ i = j := by
  unfold operandFree
  split
  case isTrue zero => simp [zero]
  case isFalse notZero => simp [notZero]

/-- A word with a zero reserved field is assembled from the numbers of its other two fields (30_encoding.md R71). -/
theorem commandWord_eq {w : Word} {opc : BitVec 4} {sym : Nat} (rsv : rsvOf w = 0#12)
    (hopc : (opcOf w).toNat = opc.toNat) (hsym : (operandOf w).toNat = sym) : commandWord opc sym = w := by
  rw [← BitVec.eq_of_toNat_eq hopc, ← hsym]
  exact commandWord_of_fields rsv

/-- The decoder reads every field of a legal word: what it answers has that word. -/
theorem encode_of_decodeCmd {w : Word} {i : Instr} (legal : decodeCmd w = .ok i) : i.wellFormed ∧ encode i = w := by
  unfold decodeCmd at legal
  split at legal
  case isTrue reserved => cases legal
  case isFalse unreserved =>
    have rsv : rsvOf w = 0#12 := not_not.mp unreserved
    split at legal
    case h_1 opc | h_2 opc | h_5 opc | h_6 opc | h_8 opc =>
      obtain ⟨zero, rfl⟩ := operandFree_ok_iff.mp legal
      exact ⟨trivial, commandWord_eq rsv opc (congrArg BitVec.toNat zero)⟩
    case h_3 opc | h_4 opc | h_7 opc =>
      cases legal
      exact ⟨(operandOf w).isLt, commandWord_eq rsv opc rfl⟩
    case h_9 => cases legal

/-- A word decodes to a command exactly if it is the word of that command and the command has one. -/
theorem decodeCmd_ok_iff {w : Word} {i : Instr} : decodeCmd w = .ok i ↔ i.wellFormed ∧ encode i = w :=
  ⟨encode_of_decodeCmd, fun ⟨wf, word⟩ => word ▸ decodeCmd_encode wf⟩

/-- NOP is the zero word alone (30_encoding.md R74). -/
theorem decodeCmd_nop_iff {w : Word} : decodeCmd w = .ok .nop ↔ w = 0x00000000#32 := by
  have word : encode .nop = 0x00000000#32 := by decide
  rw [decodeCmd_ok_iff, word]
  exact ⟨fun ⟨_, zero⟩ => zero.symm, fun zero => ⟨trivial, zero.symm⟩⟩

/-- The five commands without operand (30_encoding.md R73). -/
def operandFreeInstrs : Finset Instr := {.nop, .init, .eofcode, .decode, .valueat}

/-- The commands of one opcode that has a symbol operand: one for each value of the OPERAND field. -/
def symbolInstrs (make : Nat → Instr) : Finset Instr := (Finset.range 65536).image make

/-- The commands that have an encoding, by opcode. -/
def encodableInstrs : Finset Instr :=
  operandFreeInstrs ∪ (symbolInstrs .observe ∪ (symbolInstrs .encode ∪ symbolInstrs .getcount))

theorem mem_symbolInstrs {make : Nat → Instr} {i : Instr} :
    i ∈ symbolInstrs make ↔ ∃ sym, operandFits sym ∧ make sym = i := by
  simp only [symbolInstrs, Finset.mem_image, Finset.mem_range]

theorem mem_encodableInstrs {i : Instr} : i ∈ encodableInstrs ↔ i.wellFormed := by
  simp only [encodableInstrs, Finset.mem_union, mem_symbolInstrs]
  cases i <;> simp [operandFreeInstrs]

theorem card_symbolInstrs {make : Nat → Instr} (inj : Function.Injective make) :
    (symbolInstrs make).card = 65536 := by
  rw [symbolInstrs, Finset.card_image_of_injective _ inj, Finset.card_range]

/-- Five commands without operand, and three opcodes with 65536 operands each (30_encoding.md R79). -/
theorem card_encodableInstrs : encodableInstrs.card = 196613 := by
  have observe : (symbolInstrs .observe).card = 65536 := card_symbolInstrs fun _ _ => Instr.observe.inj
  have encode : (symbolInstrs .encode).card = 65536 := card_symbolInstrs fun _ _ => Instr.encode.inj
  have getcount : (symbolInstrs .getcount).card = 65536 := card_symbolInstrs fun _ _ => Instr.getcount.inj
  have operandFree : operandFreeInstrs.card = 5 := rfl
  rw [encodableInstrs, Finset.card_union_of_disjoint, Finset.card_union_of_disjoint, Finset.card_union_of_disjoint,
    operandFree, observe, encode, getcount]
  all_goals
    rw [Finset.disjoint_left]
    intro i
    cases i <;> simp [operandFreeInstrs, mem_symbolInstrs]

/-- Two commands that have an encoding have two words. -/
theorem encode_injOn : Set.InjOn encode encodableInstrs := by
  intro i hi j hj same
  have back := decodeCmd_encode (mem_encodableInstrs.mp hi)
  rw [same, decodeCmd_encode (mem_encodableInstrs.mp hj)] at back
  exact (Except.ok.inj back).symm

/-- The legal words are the words of the commands that have an encoding. -/
theorem legalWords_eq_image :
    (Finset.univ.filter fun w => (decodeCmd w).toBool = true) = encodableInstrs.image encode := by
  ext w
  have legal : (decodeCmd w).toBool = true ↔ ∃ i, decodeCmd w = .ok i := by
    cases decodeCmd w <;> simp [Except.toBool]
  simp only [Finset.mem_filter_univ, Finset.mem_image, legal, decodeCmd_ok_iff, mem_encodableInstrs]

end Sys2Proof
end

section
/-! PROOFS. What a command line of the host does from an idle state, and the ends of ENCODE, OBSERVE and DECODE that the
macros ENCOBS and DECOBS go through (30_encoding.md R77, R78; 40_frequency.md R102; 42_encoder.md R150; 43_decoder.md
R170). -/

namespace Sys2Proof.Machine

/-- The state in which a command line's word has been accepted: it is in CMD and in flight. -/
def State.accepted (s : State) (i : Instr) : State := { s with cmd := encode i, engine := .command }

theorem State.Inv.accepted {s : State} (inv : s.Inv) (i : Instr) : (s.accepted i).Inv :=
  inv.congr rfl inv.noFatal rfl rfl rfl rfl rfl rfl rfl

/-- `WR CMD, word; WAIT` from an idle state is the whole command on the accepted word (30_encoding.md R77). -/
theorem issue_eq_exec {s : State} {i : Instr} (wf : i.wellFormed) (idle : s.busy = false) :
    issue i s = exec i (s.accepted i) := by
  have written : hostAccess (commandLine i).access s = .next (s.accepted i) := hostAccess_writeCmd idle (encode i)
  have running : engineStep (s.accepted i) = runCommand (s.accepted i) := rfl
  rw [issue, written, andThen, running]
  exact runCommand_eq_exec (decodeCmd_encode wf)

/-- With FATAL = 0 the fatal check does nothing. -/
theorem unlessFaulted_up {s : State} (up : s.fatal = false) (run : State → Result) : unlessFaulted s run = run s := by
  rw [unlessFaulted, up]; rfl

/-- ENCODE of a symbol that has a codeword emits it. -/
theorem exec_encode_found {s : State} {sym : Nat} {code : List Bool} (up : s.fatal = false)
    (inRange : sym < s.params.alphabet) (found : s.codeOf sym = some code) :
    exec (.encode sym) s = .next (s.emit code).done := by
  rw [exec, execEncode, unlessFaulted_up up, if_neg (Nat.not_le.mpr inRange), emitCode, found]

/-- OBSERVE of a data symbol whose count has room counts it. -/
theorem exec_observe_counts {s : State} {sym : Nat} (up : s.fatal = false) (inRange : sym < s.params.alphabet)
    (data : sym ≠ s.params.eofSym) (room : s.countOf sym ≠ 0xFFFFFFFF#32) :
    exec (.observe sym) s = .next (s.count sym).done := by
  rw [exec, execObserve, unlessFaulted_up up, if_neg (Nat.not_le.mpr inRange), if_neg data, if_neg room]

/-- DECODE of input that begins with a data symbol's codeword gives the symbol, with the cursor past the codeword. -/
theorem State.Inv.exec_decode_symbol {s : State} (inv : s.Inv) {sym : Nat} {code : List Bool}
    (data : sym < s.params.eofSym) (found : s.codeOf sym = some code) (cap : s.inLen.toNat ≤ s.params.inCap)
    (fits : s.inPos.toNat + code.length ≤ s.inLen.toNat) (bits : s.inputHas s.inPos.toNat code) :
    exec .decode s = .next (s.decodedSymbol sym (s.inPos.toNat + code.length)).done := by
  have inRange : sym < s.params.alphabet := data.trans inv.eofSym_lt
  have leaf := inv.decodeLoop_symbol (remaining := s.inLen.toNat - s.inPos.toNat) inRange
    ((inv.codeOf_iff_walk inRange code).mp found) bits (by omega)
  rw [exec, execDecode, unlessFaulted_up inv.noFatal, if_neg (by omega), leaf]
  exact if_neg data.ne

/-- The state after a command line `ENCODE sym` whose codeword is `code`. -/
def State.afterEncode (s : State) (sym : Nat) (code : List Bool) : State :=
  ((s.accepted (.encode sym)).emit code).done

/-- The state after a command line `OBSERVE sym` that counted. -/
def State.afterObserve (s : State) (sym : Nat) : State := ((s.accepted (.observe sym)).count sym).done

/-- The state after a command line `DECODE` that gave `sym` and left the cursor at `p`. -/
def State.afterDecode (s : State) (sym p : Nat) : State := ((s.accepted .decode).decodedSymbol sym p).done

theorem State.Inv.afterEncode {s : State} (inv : s.Inv) {sym : Nat} {code : List Bool}
    (fits : code.length ≤ s.params.maxLen) : (s.afterEncode sym code).Inv :=
  ((inv.accepted (.encode sym)).emit fits).done

theorem State.Inv.afterDecode {s : State} (inv : s.Inv) {sym p : Nat} (inRange : sym < s.params.alphabet) :
    (s.afterDecode sym p).Inv :=
  ((inv.accepted .decode).decodedSymbol inRange).done

/-- The codeword buffer has room for every codeword (10_state.md R36). -/
theorem State.Inv.afterEncode_codeword {s : State} (inv : s.Inv) {sym : Nat} {code : List Bool}
    (fits : code.length ≤ s.params.maxLen) : (s.afterEncode sym code).codeword = code :=
  (s.accepted (.encode sym)).codeword_emit fits inv.legal.2.1

/-- RESULT_SYM holds every symbol: 16 bits are wide enough (10_state.md R25). -/
theorem State.afterDecode_resultSym (s : State) {sym p : Nat} (fits : operandFits sym) :
    (s.afterDecode sym p).resultSym.toNat = sym := Nat.mod_eq_of_lt fits

/-- A command line `ENCODE sym` emits the symbol's codeword. -/
theorem State.Inv.issue_encode {s : State} (inv : s.Inv) (idle : s.busy = false) {sym : Nat} {code : List Bool}
    (inRange : sym < s.params.alphabet) (found : s.codeOf sym = some code) :
    issue (.encode sym) s = .next (s.afterEncode sym code) := by
  have fits : operandFits sym := inRange.trans_le inv.legal.2.1
  exact (issue_eq_exec fits idle).trans (exec_encode_found inv.noFatal inRange found)

/-- A command line `OBSERVE sym` of a data symbol whose count has room counts it. -/
theorem State.Inv.issue_observe {s : State} (inv : s.Inv) (idle : s.busy = false) {sym : Nat}
    (data : sym < s.params.eofSym) (room : s.countOf sym ≠ 0xFFFFFFFF#32) :
    issue (.observe sym) s = .next (s.afterObserve sym) := by
  have inRange : sym < s.params.alphabet := data.trans inv.eofSym_lt
  have fits : operandFits sym := inRange.trans_le inv.legal.2.1
  exact (issue_eq_exec fits idle).trans (exec_observe_counts inv.noFatal inRange data.ne room)

/-- A command line `DECODE` on input that begins with a data symbol's codeword gives the symbol. -/
theorem State.Inv.issue_decode {s : State} (inv : s.Inv) (idle : s.busy = false) {sym : Nat} {code : List Bool}
    (data : sym < s.params.eofSym) (found : s.codeOf sym = some code) (cap : s.inLen.toNat ≤ s.params.inCap)
    (fits : s.inPos.toNat + code.length ≤ s.inLen.toNat) (bits : s.inputHas s.inPos.toNat code) :
    issue .decode s = .next (s.afterDecode sym (s.inPos.toNat + code.length)) :=
  (issue_eq_exec trivial idle).trans ((inv.accepted .decode).exec_decode_symbol data found cap fits bits)

/-- `ENCOBS sym` leaves the symbol's codeword in the buffer and counts the symbol (30_encoding.md R78). -/
theorem State.Inv.encobs_eq {s : State} (inv : s.Inv) (idle : s.busy = false) {sym : Nat} {code : List Bool}
    (data : sym < s.params.eofSym) (room : s.countOf sym ≠ 0xFFFFFFFF#32) (found : s.codeOf sym = some code) :
    encobs sym s = .next ((s.afterEncode sym code).afterObserve sym) := by
  have inRange : sym < s.params.alphabet := data.trans inv.eofSym_lt
  have encoded : (s.afterEncode sym code).Inv := inv.afterEncode (inv.codeOf_length inRange found)
  rw [encobs, inv.issue_encode idle inRange found, andThen]
  exact encoded.issue_observe rfl data room

/-- `DECOBS` on input that begins with a data symbol's codeword decodes the symbol and counts it (R78). -/
theorem State.Inv.decobs_eq {s : State} (inv : s.Inv) (idle : s.busy = false) {sym : Nat} {code : List Bool}
    (data : sym < s.params.eofSym) (room : s.countOf sym ≠ 0xFFFFFFFF#32) (found : s.codeOf sym = some code)
    (cap : s.inLen.toNat ≤ s.params.inCap) (fits : s.inPos.toNat + code.length ≤ s.inLen.toNat)
    (bits : s.inputHas s.inPos.toNat code) :
    decobs s = .next ((s.afterDecode sym (s.inPos.toNat + code.length)).afterObserve sym) := by
  have inRange : sym < s.params.alphabet := data.trans inv.eofSym_lt
  have kind : (s.afterDecode sym (s.inPos.toNat + code.length)).resultKind = .symbol := rfl
  have result := s.afterDecode_resultSym (p := s.inPos.toNat + code.length) (inRange.trans_le inv.legal.2.1)
  rw [decobs, inv.issue_decode idle data found cap fits bits, andThen, if_pos kind, result]
  exact (inv.afterDecode inRange).issue_observe rfl data room

end Sys2Proof.Machine
end

section
/-! PROOFS. The statements of 30_encoding.md. -/

namespace Sys2Proof

open Machine

/-- Settles O1: each word is the assembled word of its command, bit for bit, and so decodes to it. -/
theorem knownWordsDecode : Obligations.KnownWordsDecode := by
  unfold Obligations.KnownWordsDecode
  simp only [decodeCmd_ok_iff]
  decide

/-- Settles O2: the three fields of an assembled word are what the decoder reads. -/
theorem decodeOfEncodeIsIdentity : Obligations.DecodeOfEncodeIsIdentity := by
  unfold Obligations.DecodeOfEncodeIsIdentity
  exact fun _ wf => decodeCmd_encode wf

/-- Settles O3: a legal word is put together again from its opcode and operand, its reserved field being zero. -/
theorem encodeOfDecodeIsIdentity : Obligations.EncodeOfDecodeIsIdentity := by
  unfold Obligations.EncodeOfDecodeIsIdentity
  exact fun _ _ legal => encode_of_decodeCmd legal

/-- Settles O4: the decoder rejects by the three clauses of R74, and a rejected word's step is one raise. -/
theorem illegalWordsRaiseIllegalCommand : Obligations.IllegalWordsRaiseIllegalCommand := by
  unfold Obligations.IllegalWordsRaiseIllegalCommand
  exact ⟨decodeCmd_error_iff, fun _ command waits illegal => step_illegal command waits illegal, rfl,
    fun _ => decodeCmd_nop_iff⟩

/-- Settles O5: the legal words are as many as the commands that have an encoding, for no two share a word. -/
theorem legalWordCount : Obligations.LegalWordCount := by
  unfold Obligations.LegalWordCount
  rw [legalWords_eq_image, Finset.card_image_of_injOn encode_injOn, card_encodableInstrs]

/-- Settles O37: ENCOBS and DECOBS are two commands each, from an idle state; the OBSERVE at the end of both adds to
the same table, because neither ENCODE nor DECODE changes it. -/
theorem macrosEncodeAndDecodeThenObserve : Obligations.MacrosEncodeAndDecodeThenObserve := by
  unfold Obligations.MacrosEncodeAndDecodeThenObserve
  intro s sym inv idle data room
  have inRange : sym < s.params.alphabet := data.trans inv.eofSym_lt
  obtain ⟨code, found, -, short⟩ := inv.codeOf_total inRange
  have buffer := inv.afterEncode_codeword (sym := sym) short
  refine ⟨code, _, found, inv.encobs_eq idle data room found, rfl, buffer, rfl, fun cap fits bits => ?_⟩
  have result := s.afterDecode_resultSym (p := s.inPos.toNat + code.length) (inRange.trans_le inv.legal.2.1)
  have cursor : (BitVec.ofNat 32 (s.inPos.toNat + code.length)).toNat = s.inPos.toNat + code.length :=
    Nat.mod_eq_of_lt (fits.trans_lt s.inLen.isLt)
  exact ⟨_, inv.decobs_eq idle data room found cap fits bits, rfl, rfl, result, cursor, rfl, rfl⟩

end Sys2Proof
end

section
/-! PROOFS. The words of the commands of 40_frequency.md (30_encoding.md R73, R77), and what each of these commands does
by the check it stops at (60_exceptions.md R204). -/

namespace Sys2Proof

/-- A command without operand has one word. -/
theorem decodeCmd_ok_iff_word {i : Instr} {v w : Word} (wf : i.wellFormed) (word : encode i = v) :
    decodeCmd w = .ok i ↔ w = v := by
  rw [decodeCmd_ok_iff, word]
  exact ⟨fun ⟨_, here⟩ => here.symm, fun here => ⟨wf, here.symm⟩⟩

/-- An assembled word as a number: the opcode at bit 28, the operand at bit 0. -/
theorem commandWord_eq_ofNat (opc : BitVec 4) {sym : Nat} (fits : operandFits sym) :
    commandWord opc sym = BitVec.ofNat 32 (opc.toNat * 2 ^ 28 + sym) := by
  have fields : (commandWord opc sym).toNat = (opc ++ 0#12 ++ BitVec.ofNat 16 sym).toNat := rfl
  have opcode := opc.isLt
  apply BitVec.eq_of_toNat_eq
  simp only [fields, Machine.toNat_append_eq_add, BitVec.toNat_ofNat]
  omega

/-- A command with a symbol operand has one word for each symbol that fits the operand field. -/
theorem decodeCmd_ok_iff_symbolWord {i : Instr} {opc : BitVec 4} {sym : Nat} {w : Word}
    (wf : i.wellFormed ↔ operandFits sym) (word : encode i = commandWord opc sym) :
    decodeCmd w = .ok i ↔ operandFits sym ∧ w = BitVec.ofNat 32 (opc.toNat * 2 ^ 28 + sym) := by
  rw [decodeCmd_ok_iff, wf, word]
  exact and_congr_right fun fits => by rw [commandWord_eq_ofNat opc fits, eq_comm]

namespace Machine

/-- With FATAL = 1 every command but INIT is Faulted (60_exceptions.md R204). -/
theorem exec_faulted {s : State} {i : Instr} (down : s.fatal = true) (other : i ≠ .init) :
    exec i s = .next (s.raise .faulted) := by
  cases i with
  | init => exact absurd rfl other
  | _ => exact if_pos down

/-- With FATAL = 0 NOP ends at once. -/
theorem exec_nop {s : State} (up : s.fatal = false) : exec .nop s = .next s.done := by
  rw [exec, execNop, unlessFaulted_up up]

/-- An operand-free command with a nonzero operand ends with IllegalCommand (30_encoding.md R74 (c)). -/
theorem step_operandNotZero {s : State} {opc : Nat} (command : s.engine = .command) (waits : s.hostWaits)
    (here : s.cmd.toNat / 2 ^ 28 = opc) (free : opc ∈ [0, 1, 4, 5, 7]) (operand : s.cmd.toNat % 2 ^ 16 ≠ 0) :
    step s = .next (s.raise .illegalCommand) :=
  step_illegal command waits (.inr (.inr ⟨here ▸ free, operand⟩))

/-- The data symbols are symbols: they lie below the sentinel (00_scope.md R7). -/
theorem lt_alphabet_of_lt_eofSym {p : Params} {sym : Nat} (data : sym < p.eofSym) : sym < p.alphabet :=
  data.trans_le (Nat.sub_le ..)

/-- The sentinel is a symbol of every alphabet that is not empty. -/
theorem eofSym_lt_alphabet {p : Params} (nonempty : 0 < p.alphabet) : p.eofSym < p.alphabet :=
  Nat.sub_lt nonempty Nat.one_pos

/-- OBSERVE of a number that is no symbol. -/
theorem exec_observe_noSymbol {s : State} {sym : Nat} (up : s.fatal = false) (high : s.params.alphabet ≤ sym) :
    exec (.observe sym) s = .next (s.raise .invalidSymbol) := by
  rw [exec, execObserve, unlessFaulted_up up, if_pos high]

/-- OBSERVE of the sentinel. -/
theorem exec_observe_eof {s : State} (up : s.fatal = false) (inRange : s.params.eofSym < s.params.alphabet) :
    exec (.observe s.params.eofSym) s = .next (s.raise .eofNotObservable) := by
  rw [exec, execObserve, unlessFaulted_up up, if_neg (Nat.not_le.mpr inRange), if_pos rfl]

/-- OBSERVE of a data symbol whose count has no room. -/
theorem exec_observe_full {s : State} {sym : Nat} (up : s.fatal = false) (inRange : sym < s.params.alphabet)
    (data : sym ≠ s.params.eofSym) (full : s.countOf sym = 0xFFFFFFFF#32) :
    exec (.observe sym) s = .next (s.raise .countOverflow) := by
  rw [exec, execObserve, unlessFaulted_up up, if_neg (Nat.not_le.mpr inRange), if_neg data, if_pos full]

/-- GETCOUNT of a number that is no symbol. -/
theorem exec_getcount_noSymbol {s : State} {sym : Nat} (up : s.fatal = false) (high : s.params.alphabet ≤ sym) :
    exec (.getcount sym) s = .next (s.raise .invalidSymbol) := by
  rw [exec, execGetcount, unlessFaulted_up up, if_pos high]

/-- GETCOUNT of a symbol. -/
theorem exec_getcount_reads {s : State} {sym : Nat} (up : s.fatal = false) (inRange : sym < s.params.alphabet) :
    exec (.getcount sym) s = .next { s with countOut := s.countOf sym }.done := by
  rw [exec, execGetcount, unlessFaulted_up up, if_neg (Nat.not_le.mpr inRange)]

end Machine
end Sys2Proof
end

section
/-! PROOFS. What the commands and the steps do to the frequency table (40_frequency.md R101–R105, 10_state.md R33). -/

namespace Sys2Proof.Machine

/-- A symbol's count depends on the frequency table alone. -/
theorem countOf_congr {s t : State} (same : t.freq = s.freq) (sym : Nat) : t.countOf sym = s.countOf sym := by
  rw [State.countOf, same, State.countOf]

/-- Counting a symbol adds one to its entry. -/
theorem countOf_count_same (s : State) {sym : Nat} (entry : sym < s.freq.length) :
    (s.count sym).countOf sym = s.countOf sym + 1#32 := by
  simp [State.countOf, List.getD, entry]

/-- Counting a symbol leaves every other entry. -/
theorem countOf_count_other (s : State) {sym x : Nat} (other : x ≠ sym) : (s.count sym).countOf x = s.countOf x := by
  simp [State.countOf, List.getD, List.getElem?_set_ne other.symm]

/-- Counting a symbol whose count has room raises no count by more than one, and lowers none. -/
theorem countOf_count_bounds {s : State} {sym : Nat} (entry : sym < s.freq.length)
    (room : s.countOf sym ≠ 0xFFFFFFFF#32) (x : Nat) :
    (s.countOf x).toNat ≤ ((s.count sym).countOf x).toNat ∧
      ((s.count sym).countOf x).toNat ≤ (s.countOf x).toNat + 1 := by
  by_cases here : x = sym
  · subst here
    rw [countOf_count_same s entry]
    bv_omega
  · rw [countOf_count_other s here]
    omega

/-- The initial count of a data symbol is 0 (40_frequency.md R101). -/
theorem initialFreq_data {p : Params} {sym : Nat} (data : sym < p.eofSym) : (initialFreq p).getD sym 0#32 = 0#32 := by
  rw [initialFreq, List.getD_append _ _ _ _ (by simpa using data), List.getD_replicate _ data]

/-- The commands that write FREQ are INIT and an OBSERVE that counts (40_frequency.md R101, R102). -/
theorem Effect.freq_cases {s t : State} {i : Instr} (e : Effect s i t) :
    t.freq = s.freq ∨
    (∃ sym, i = .observe sym ∧ sym < s.params.alphabet ∧ sym ≠ s.params.eofSym ∧ s.countOf sym ≠ 0xFFFFFFFF#32 ∧
      t.freq = (s.count sym).freq) ∨
    (i = .init ∧ t.freq = initialFreq s.params) := by
  cases e with
  | init => exact .inr (.inr ⟨rfl, rfl⟩)
  | observe sym _ inRange data room => exact .inr (.inl ⟨sym, rfl, inRange, data, room, rfl⟩)
  | _ => exact .inl rfl

/-- No host access writes FREQ: a reset leaves it to the reset build (log 9). -/
theorem hostAccess_freq {a : HostAccess} {s t : State} (taken : hostAccess a s = .next t) : t.freq = s.freq := by
  rcases hostAccess_next taken with ⟨-, rfl⟩ | ⟨_, -, -, rfl⟩ | ⟨_, _, -, -, -, rfl⟩
  · exact s.assertReset_freq
  · exact s.answerRead_freq _
  · exact s.acceptWrite_freq _ _

/-- A step leaves FREQ, or runs an OBSERVE that counts, or sets the table back by INIT or the reset build. -/
theorem step_freq_cases {s t : State} (stepped : step s = .next t) :
    t.freq = s.freq ∨
    (∃ sym, s.engine = .command ∧ decodeCmd s.cmd = .ok (.observe sym) ∧ sym < s.params.alphabet ∧
      sym ≠ s.params.eofSym ∧ s.countOf sym ≠ 0xFFFFFFFF#32 ∧ t.freq = (s.count sym).freq) ∨
    (t.freq = initialFreq s.params ∧
      (s.engine = .resetBuild ∨ (s.engine = .command ∧ decodeCmd s.cmd = .ok .init))) := by
  rcases step_next stepped with ⟨-, -, rfl⟩ | ⟨command, ran⟩ | ⟨build, rfl⟩ | ⟨a, later, -, taken⟩
  · exact .inl rfl
  · rcases runCommand_next ran with ⟨_, -, rfl⟩ | ⟨i, decoded, executed⟩
    · exact .inl rfl
    · rcases (exec_effect executed).freq_cases with same | ⟨sym, rfl, counts⟩ | ⟨rfl, initial⟩
      · exact .inl same
      · exact .inr (.inl ⟨sym, command, decoded, counts⟩)
      · exact .inr (.inr ⟨initial, .inr ⟨command, decoded⟩⟩)
  · exact .inr (.inr ⟨rfl, .inl build⟩)
  · exact .inl (hostAccess_freq (s := { s with host := later }) taken)

end Sys2Proof.Machine
end

section
/-! PROOFS. The statements of 40_frequency.md. -/

namespace Sys2Proof

open Machine

/-- Settles O18: a step leaves the table, adds one to one data symbol's entry, or makes it the initial one, whose
sentinel's entry is the invariant's. -/
theorem countsNeverDecrease : Obligations.CountsNeverDecrease := by
  unfold Obligations.CountsNeverDecrease
  intro s t inv stepped
  rcases step_freq_cases stepped with same | ⟨sym, -, -, inRange, data, room, counted⟩ | ⟨initial, cause⟩
  · refine ⟨.inl fun x => ?_, countOf_congr same _⟩
    rw [countOf_congr same]
    omega
  · refine ⟨.inl fun x => ?_, ?_⟩
    · rw [countOf_congr counted]
      exact countOf_count_bounds (by rwa [inv.freqLength]) room x
    · rw [countOf_congr counted, countOf_count_other s data.symm]
  · refine ⟨.inr ⟨initial, cause⟩, ?_⟩
    rw [inv.eofCount, State.countOf, initial, initialFreq_eof]

/-- Settles O14: NOP's word is the zero word, and NOP does nothing but end. -/
theorem nopClearsErr : Obligations.NopClearsErr := by
  unfold Obligations.NopClearsErr
  exact ⟨fun _ => decodeCmd_nop_iff, fun _ up => exec_nop up, fun _ down => exec_faulted down (by decide),
    fun _ command waits here operand => step_operandNotZero command waits here (by decide) operand⟩

/-- Settles O15: INIT has no check to pass, and what it writes is `initEngine`, FATAL and the end of the command. -/
theorem initRecreatesEngine : Obligations.InitRecreatesEngine := by
  unfold Obligations.InitRecreatesEngine
  exact ⟨fun _ => decodeCmd_ok_iff_word trivial (by decide), fun _ => rfl,
    fun _ command waits here operand => step_operandNotZero command waits here (by decide) operand⟩

/-- Settles O16: OBSERVE passes its checks or stops at one of them. -/
theorem observeCountsAndRebuilds : Obligations.ObserveCountsAndRebuilds := by
  unfold Obligations.ObserveCountsAndRebuilds
  exact ⟨fun _ _ => decodeCmd_ok_iff_symbolWord (opc := 0x2#4) Iff.rfl rfl,
    fun _ _ up data room => exec_observe_counts up (lt_alphabet_of_lt_eofSym data) data.ne room,
    fun _ _ up high => exec_observe_noSymbol up high,
    fun _ up nonempty => exec_observe_eof up (eofSym_lt_alphabet nonempty),
    fun _ _ up data full => exec_observe_full up (lt_alphabet_of_lt_eofSym data) data.ne full⟩

/-- Settles O17: GETCOUNT reads an entry; the sentinel's is the invariant's, a data symbol's is 0 in the initial table,
and a step changes a count only where it writes the table. -/
theorem getcountReadsEntry : Obligations.GetcountReadsEntry := by
  unfold Obligations.GetcountReadsEntry
  refine ⟨fun _ _ => decodeCmd_ok_iff_symbolWord (opc := 0x6#4) Iff.rfl rfl,
    fun _ _ up inRange => exec_getcount_reads up inRange, fun _ _ up high => exec_getcount_noSymbol up high,
    fun s inv => ⟨_, exec_getcount_reads inv.noFatal inv.eofSym_lt, ?_⟩,
    fun s sym up initial data => ⟨_, exec_getcount_reads up (lt_alphabet_of_lt_eofSym data), ?_⟩,
    fun s t sym stepped => ?_⟩
  · obtain ⟨-, -, -, weight, -⟩ := inv.legal
    rw [State.done_countOut, inv.eofCount, BitVec.toNat_ofNat]
    exact Nat.mod_eq_of_lt (by omega)
  · rw [State.done_countOut, State.countOf, initial, initialFreq_data data]
  · rcases step_freq_cases stepped with
      same | ⟨x, command, decoded, -, -, -, counted⟩ | ⟨-, build | ⟨command, decoded⟩⟩
    · exact .inl (countOf_congr same sym)
    · by_cases here : sym = x
      · exact .inr (.inl ⟨command, .inl (here ▸ decoded)⟩)
      · exact .inl ((countOf_congr counted sym).trans (countOf_count_other s here))
    · exact .inr (.inr (.inl build))
    · exact .inr (.inl ⟨command, .inr decoded⟩)

end Sys2Proof
end

section
/-! PROOFS. Paths in a code tree: to every node there is one, to every leaf a codeword, and the codewords' lengths
satisfy the Kraft equality (41_tree.md R125, R131). -/

namespace Sys2Proof.Machine.CodeTree

/-- A step along a path goes into the subtree of its bit. -/
theorem sub_cons (n : Nat) (l r : CodeTree) (bit : Bool) (path : List Bool) :
    (node n l r).sub (bit :: path) = if bit then r.sub path else l.sub path := rfl

/-- The empty path stays at the root. -/
theorem sub_nil (t : CodeTree) : t.sub [] = some t := by cases t <;> rfl

/-- One step down from an internal node. -/
theorem sub_singleton (n : Nat) (l r : CodeTree) (bit : Bool) :
    (node n l r).sub [bit] = some (if bit then r else l) := by
  rw [sub_cons, sub_nil, sub_nil]
  cases bit <;> rfl

/-- Some path leads to each node. -/
theorem exists_sub_of_mem_indices {t : CodeTree} {n : Nat} (member : n ∈ t.indices) :
    ∃ path u, t.sub path = some u ∧ u.root = n := by
  induction t with
  | leaf m => exact ⟨[], leaf m, rfl, (List.mem_singleton.mp member).symm⟩
  | node m l r ihl ihr =>
    simp only [indices, List.mem_cons, List.mem_append] at member
    rcases member with rfl | left | right
    · exact ⟨[], _, rfl, rfl⟩
    · obtain ⟨path, found⟩ := ihl left
      exact ⟨false :: path, found⟩
    · obtain ⟨path, found⟩ := ihr right
      exact ⟨true :: path, found⟩

/-- The leaves are the symbols that paths lead to. -/
theorem mem_leaves_iff {t : CodeTree} {sym : Nat} : sym ∈ t.leaves ↔ ∃ path, t.sub path = some (leaf sym) := by
  refine ⟨fun member => ?_, fun ⟨_, found⟩ => mem_leaves_of_sub found⟩
  cases found : t.find sym with
  | none => exact absurd member (find_none found)
  | some path => exact ⟨path, sub_of_find found⟩

/-- Where each child's list is a part of its parent's, the list of every subtree is a part of the whole tree's. -/
theorem sub_sublist (f : CodeTree → List Nat) (left : ∀ n l r, (f l).Sublist (f (node n l r)))
    (right : ∀ n l r, (f r).Sublist (f (node n l r))) {t u : CodeTree} {path : List Bool}
    (found : t.sub path = some u) : (f u).Sublist (f t) := by
  induction path generalizing t with
  | nil => rw [sub_nil] at found; rw [Option.some.inj found]
  | cons bit path ih =>
    cases t with
    | leaf n => cases found
    | node n l r =>
      rw [sub_cons] at found
      split at found
      · exact (ih found).trans (right n l r)
      · exact (ih found).trans (left n l r)

/-- A subtree's nodes are nodes of the tree, in the same order. -/
theorem sub_indices_sublist {t u : CodeTree} {path : List Bool} (found : t.sub path = some u) :
    u.indices.Sublist t.indices :=
  sub_sublist indices (fun _ _ _ => .cons _ (List.sublist_append_left ..))
    (fun _ _ _ => .cons _ (List.sublist_append_right ..)) found

/-- A subtree's leaves are leaves of the tree, in the same order. -/
theorem sub_leaves_sublist {t u : CodeTree} {path : List Bool} (found : t.sub path = some u) :
    u.leaves.Sublist t.leaves :=
  sub_sublist leaves (fun _ _ _ => List.sublist_append_left ..) (fun _ _ _ => List.sublist_append_right ..) found

/-- With no node twice, the path to a node is unique (41_tree.md R125). -/
theorem path_unique {t u v : CodeTree} {p q : List Bool} (nodup : t.indices.Nodup) (hp : t.sub p = some u)
    (hq : t.sub q = some v) (same : u.root = v.root) : p = q := by
  induction t generalizing p q with
  | leaf n =>
    cases p with
    | cons b p => cases hp
    | nil => cases q with
      | cons c q => cases hq
      | nil => rfl
  | node n l r ihl ihr =>
    simp only [indices, List.nodup_cons, List.mem_append, not_or, List.nodup_append] at nodup
    obtain ⟨⟨notLeft, notRight⟩, nodupLeft, nodupRight, apart⟩ := nodup
    have below {w : CodeTree} {b : Bool} {path : List Bool} (h : (node n l r).sub (b :: path) = some w) :
        w.root ≠ n := by
      rintro rfl
      cases b with
      | false => exact notLeft (sub_root_mem (t := l) h)
      | true => exact notRight (sub_root_mem (t := r) h)
    cases p with
    | nil =>
      cases q with
      | nil => rfl
      | cons c q => cases hp; exact absurd same.symm (below hq)
    | cons b p =>
      cases q with
      | nil => cases hq; exact absurd same (below hp)
      | cons c q =>
        cases b with
        | false =>
          cases c with
          | false => rw [ihl nodupLeft hp hq]
          | true => exact absurd same (apart _ (sub_root_mem (t := l) hp) _ (sub_root_mem (t := r) hq))
        | true =>
          cases c with
          | false => exact absurd same.symm (apart _ (sub_root_mem (t := l) hq) _ (sub_root_mem (t := r) hp))
          | true => rw [ihr nodupRight hp hq]

/-- A path that ends below the root passes through the parent of its end. -/
theorem exists_parent_of_sub {t u : CodeTree} {path : List Bool} (found : t.sub path = some u)
    (below : u.root ≠ t.root) : ∃ p m l r, ∃ bit : Bool, t.sub p = some (node m l r) ∧ u = if bit then r else l := by
  rcases path.eq_nil_or_concat with rfl | ⟨p, bit, rfl⟩
  · rw [sub_nil] at found
    exact absurd (congrArg root (Option.some.inj found).symm) below
  · rw [List.concat_eq_append, sub_append, Option.bind_eq_some_iff] at found
    obtain ⟨w, hw, last⟩ := found
    cases w with
    | leaf n => cases last
    | node m l r =>
      rw [sub_singleton] at last
      exact ⟨p, m, l, r, bit, hw, (Option.some.inj last).symm⟩

/-- A child of the node at the end of a path is at the end of a path one bit longer. -/
theorem sub_child {t : CodeTree} {p : List Bool} {m : Nat} {l r : CodeTree} (bit : Bool)
    (found : t.sub p = some (node m l r)) : t.sub (p ++ [bit]) = some (if bit then r else l) := by
  rw [sub_append, found, Option.bind_some, sub_singleton]

/-- A tree's total is the sum of its leaves' counts. -/
theorem total_eq_sum (freq : List Count) (t : CodeTree) : t.total freq = (t.leaves.map (countIn freq)).sum := by
  induction t with
  | leaf n => exact (Nat.add_zero _).symm
  | node n l r ihl ihr => rw [total, ihl, ihr, leaves, List.map_append, List.sum_append]

/-- Some leaf is as deep as the tree is high. -/
theorem exists_path_length_eq_height (t : CodeTree) :
    ∃ path sym, t.sub path = some (leaf sym) ∧ path.length = t.height := by
  induction t with
  | leaf n => exact ⟨[], n, rfl, rfl⟩
  | node n l r ihl ihr =>
    rcases Nat.le_total l.height r.height with right | left
    · obtain ⟨path, sym, found, deepest⟩ := ihr
      exact ⟨true :: path, sym, found, by rw [List.length_cons, deepest, height, Nat.max_eq_right right]⟩
    · obtain ⟨path, sym, found, deepest⟩ := ihl
      exact ⟨false :: path, sym, found, by rw [List.length_cons, deepest, height, Nat.max_eq_left left]⟩

/-- The length of a symbol's codeword in a tree. -/
def codeLength (t : CodeTree) (sym : Nat) : Nat := ((t.find sym).getD []).length

/-- A path to a leaf is as long as the leaf's codeword. -/
theorem codeLength_eq {t : CodeTree} {sym : Nat} {path : List Bool} (nodup : t.leaves.Nodup)
    (found : t.sub path = some (leaf sym)) : t.codeLength sym = path.length := by
  rw [codeLength, find_of_sub nodup found, Option.getD_some]

/-- In a tree with no symbol twice, the codewords of a child's symbols have one bit more than in the child. -/
theorem codeLength_child {n : Nat} {l r : CodeTree} (nodup : (node n l r).leaves.Nodup) (bit : Bool) {sym : Nat}
    (member : sym ∈ (if bit then r else l).leaves) :
    (node n l r).codeLength sym = (if bit then r else l).codeLength sym + 1 := by
  have child : (node n l r).sub [bit] = some (if bit then r else l) := sub_singleton n l r bit
  obtain ⟨path, found⟩ := mem_leaves_iff.mp member
  have longer : (node n l r).sub ([bit] ++ path) = some (leaf sym) := by
    rw [sub_append, child, Option.bind_some, found]
  rw [codeLength_eq nodup longer, codeLength_eq ((sub_leaves_sublist child).nodup nodup) found, List.length_append,
    List.length_singleton, Nat.add_comm]

/-- The Kraft equality, multiplied by `2^m` for any `m` from the height on (41_tree.md R131): each level halves what is
left for a subtree. -/
theorem kraft_eq {t : CodeTree} {m : Nat} (nodup : t.leaves.Nodup) (high : t.height ≤ m) :
    (t.leaves.map fun sym => 2 ^ (m - t.codeLength sym)).sum = 2 ^ m := by
  induction t generalizing m with
  | leaf n => simp [leaves, codeLength, find]
  | node n l r ihl ihr =>
    obtain ⟨m, rfl⟩ : ∃ k, m = k + 1 := ⟨m - 1, by simp only [height] at high; omega⟩
    have half (bit : Bool) : ((if bit then r else l).leaves.map fun sym =>
        2 ^ (m + 1 - (node n l r).codeLength sym)) =
        (if bit then r else l).leaves.map fun sym => 2 ^ (m - (if bit then r else l).codeLength sym) := by
      refine List.map_congr_left fun sym member => ?_
      rw [codeLength_child nodup bit member, Nat.add_sub_add_right]
    obtain ⟨nodupLeft, nodupRight, -⟩ := List.nodup_append.mp nodup
    simp only [height] at high
    calc ((node n l r).leaves.map fun sym => 2 ^ (m + 1 - (node n l r).codeLength sym)).sum
      _ = 2 ^ m + 2 ^ m := by
        rw [leaves, List.map_append, List.sum_append]
        exact congrArg₂ _ ((congrArg List.sum (half false)).trans (ihl nodupLeft (by omega)))
          ((congrArg List.sum (half true)).trans (ihr nodupRight (by omega)))
      _ = 2 ^ (m + 1) := by rw [pow_succ, Nat.mul_two]

end Sys2Proof.Machine.CodeTree
end

section
/-! PROOFS. The records of the tree memory that `BuildTree` makes and how they hang together (41_tree.md R121, R122,
R124, R125, R134, R135). -/

namespace Sys2Proof.Machine

/-- What is stored at an internal record's index is a tree over that record's two children. -/
theorem CodeTree.Stored.eq_node {freq : List Count} {nodes : List Node} {t : CodeTree} (stored : t.Stored freq nodes)
    {a b : Nat} {w : Weight} {d : Depth}
    (record : nodes[t.root]? = some { kind := .internal a b, weight := w, depth := d }) :
    ∃ l r, t = .node t.root l r ∧ l.root = a ∧ r.root = b := by
  cases t with
  | leaf n =>
    obtain ⟨-, here⟩ := stored
    cases here.symm.trans record
  | node n l r =>
    obtain ⟨⟨-, -, -, nl, nr, nd, -, -, here, rfl, -⟩, -, -⟩ := stored
    cases here.symm.trans record
    exact ⟨l, r, rfl, rfl, rfl⟩

/-- The record of a stored internal node is the exact merge of its children's records, the lesser one on the left
(41_tree.md R124, R134, R135). -/
theorem CodeTree.Stored.exact_merge {freq : List Count} {nodes : List Node} {n : Nat} {l r : CodeTree}
    (stored : (CodeTree.node n l r).Stored freq nodes) (small : (CodeTree.node n l r).leaves.length ≤ 65536) :
    ∃ nl nr nd, nodes[l.root]? = some nl ∧ nodes[r.root]? = some nr ∧ nodes[n]? = some nd ∧
      nd.weight.toNat = nl.weight.toNat + nr.weight.toNat ∧
      nd.depth.toNat = max nl.depth.toNat nr.depth.toNat + 1 ∧
      precedes { index := l.root, node := nl } { index := r.root, node := nr } = true := by
  obtain ⟨nd, here, weight, depth⟩ := stored.record small
  obtain ⟨⟨-, -, -, nl, nr, -, hl, hr, -, -, ordered⟩, storedLeft, storedRight⟩ := stored
  rw [CodeTree.leaves, List.length_append] at small
  obtain ⟨_, hl', weightLeft, depthLeft⟩ := storedLeft.record (by omega)
  obtain ⟨_, hr', weightRight, depthRight⟩ := storedRight.record (by omega)
  cases hl.symm.trans hl'
  cases hr.symm.trans hr'
  refine ⟨nl, nr, nd, hl, hr, here, ?_, ?_, ordered⟩
  · rw [weight, weightLeft, weightRight, CodeTree.total]
  · rw [depth, depthLeft, depthRight, CodeTree.height]

/-- `BuildTree`'s memory stores one full tree with every node and every symbol once, rooted at `2A-2`. -/
theorem buildTree_nodup {freq : List Count} (two : 2 ≤ freq.length) :
    ∃ t : CodeTree, t.Stored freq (buildTree freq) ∧ t.root = 2 * freq.length - 2 ∧ t.indices.Nodup ∧
      t.leaves.Nodup ∧ (∀ sym, sym ∈ t.leaves ↔ sym < freq.length) ∧
      (∀ n, n ∈ t.indices ↔ n < 2 * freq.length - 1) := by
  obtain ⟨-, t, stored, root, leaves, indices⟩ := buildTree_spec freq two
  exact ⟨t, stored, root, indices.nodup_iff.mpr List.nodup_range, leaves.nodup_iff.mpr List.nodup_range,
    fun _ => leaves.mem_iff.trans List.mem_range, fun _ => indices.mem_iff.trans List.mem_range⟩

/-- Below each node of the memory stands a tree with no node and no symbol twice. -/
theorem buildTree_subtree {freq : List Count} (two : 2 ≤ freq.length) {n : Nat} (node : n < 2 * freq.length - 1) :
    ∃ u : CodeTree, u.Stored freq (buildTree freq) ∧ u.root = n ∧ u.indices.Nodup ∧ u.leaves.Nodup ∧
      (∀ sym ∈ u.leaves, sym < freq.length) ∧ u.leaves.length ≤ freq.length := by
  obtain ⟨t, stored, -, nodup, nodupLeaves, symbols, nodes⟩ := buildTree_nodup two
  obtain ⟨path, u, found, rfl⟩ := CodeTree.exists_sub_of_mem_indices ((nodes n).mpr node)
  have sublist := CodeTree.sub_leaves_sublist found
  have inRange : ∀ sym ∈ u.leaves, sym < freq.length := fun sym member => (symbols sym).mp (sublist.subset member)
  refine ⟨u, stored.sub found, rfl, (CodeTree.sub_indices_sublist found).nodup nodup, sublist.nodup nodupLeaves,
    inRange, ?_⟩
  have fits : u.leaves ⊆ List.range freq.length := fun sym member => List.mem_range.mpr (inRange sym member)
  simpa using ((sublist.nodup nodupLeaves).subperm fits).length_le

/-- A record of the memory stands at a node index. -/
theorem lt_of_buildTree_record {freq : List Count} (two : 2 ≤ freq.length) {n : Nat} {r : Node}
    (record : (buildTree freq)[n]? = some r) : n < 2 * freq.length - 1 := by
  obtain ⟨length, -⟩ := buildTree_spec freq two
  exact length ▸ (List.getElem?_eq_some_iff.mp record).1

/-- The first `A` records are the symbols' leaves (41_tree.md R121). -/
theorem buildTree_leaf {freq : List Count} {sym : Nat} (inRange : sym < freq.length) :
    (buildTree freq)[sym]? = some (leafNode (freq.getD sym 0#32)) := by
  rw [buildTree, List.getElem?_append_left (by simpa using inRange), List.getElem?_map,
    List.getElem?_eq_getElem inRange, List.getD_eq_getElem _ _ inRange, Option.map_some]

/-- Every later record is an internal node with two children of smaller index (41_tree.md R125). -/
theorem buildTree_internal {freq : List Count} (two : 2 ≤ freq.length) {n : Nat} (high : freq.length ≤ n)
    (node : n < 2 * freq.length - 1) : ∃ l r w d,
      (buildTree freq)[n]? = some { kind := .internal l r, weight := w, depth := d } ∧ l ≠ r ∧ l < n ∧ r < n := by
  obtain ⟨u, stored, rfl, nodup, -⟩ := buildTree_subtree two node
  cases u with
  | leaf n => exact absurd stored.1 (Nat.not_lt.mpr high)
  | node n l r =>
    obtain ⟨⟨-, left, right, nl, nr, nd, -, -, here, rfl, -⟩, -, -⟩ := stored
    refine ⟨l.root, r.root, _, _, here, ?_, left, right⟩
    simp only [CodeTree.indices, List.nodup_cons, List.nodup_append] at nodup
    obtain ⟨-, -, -, apart⟩ := nodup
    exact apart _ l.root_mem_indices _ r.root_mem_indices

/-- The parents in the memory are the parents in the tree: one step of some path leads from `m` to `n`. -/
theorem parentOf_iff {freq : List Count} (two : 2 ≤ freq.length) {t : CodeTree}
    (stored : t.Stored freq (buildTree freq)) (nodes : ∀ n, n ∈ t.indices ↔ n < 2 * freq.length - 1) {m n : Nat} :
    parentOf (buildTree freq) m n ↔
      ∃ path l r, ∃ bit : Bool, t.sub path = some (.node m l r) ∧ n = (if bit then r else l).root := by
  constructor
  · rintro ⟨a, b, w, d, record, child⟩
    obtain ⟨path, u, found, rfl⟩ :=
      CodeTree.exists_sub_of_mem_indices ((nodes m).mpr (lt_of_buildTree_record two record))
    obtain ⟨l, r, shape, rfl, rfl⟩ := (stored.sub found).eq_node record
    rw [shape] at found
    rcases child with rfl | rfl
    · exact ⟨path, l, r, false, found, rfl⟩
    · exact ⟨path, l, r, true, found, rfl⟩
  · rintro ⟨path, l, r, bit, found, rfl⟩
    obtain ⟨⟨-, -, -, nl, nr, nd, -, -, here, rfl, -⟩, -, -⟩ := stored.sub found
    refine ⟨l.root, r.root, _, _, here, ?_⟩
    cases bit with
    | false => exact .inl rfl
    | true => exact .inr rfl

/-- Every node but the root has exactly one parent (41_tree.md R125). -/
theorem existsUnique_parentOf {freq : List Count} (two : 2 ≤ freq.length) {n : Nat} (node : n < 2 * freq.length - 2) :
    ∃! m, parentOf (buildTree freq) m n := by
  obtain ⟨t, stored, root, nodup, -, -, nodes⟩ := buildTree_nodup two
  obtain ⟨path, u, found, rfl⟩ := CodeTree.exists_sub_of_mem_indices ((nodes n).mpr (by omega))
  obtain ⟨p, m, l, r, bit, parent, rfl⟩ := CodeTree.exists_parent_of_sub found (by omega)
  refine ⟨m, (parentOf_iff two stored nodes).mpr ⟨p, l, r, bit, parent, rfl⟩, fun m' other => ?_⟩
  obtain ⟨p', l', r', bit', parent', same⟩ := (parentOf_iff two stored nodes).mp other
  have paths := CodeTree.path_unique nodup (CodeTree.sub_child bit parent) (CodeTree.sub_child bit' parent') same
  obtain ⟨rfl, -⟩ := List.append_inj' paths rfl
  cases parent.symm.trans parent'
  rfl

/-- The root has no parent (41_tree.md R125). -/
theorem not_parentOf_root {freq : List Count} (two : 2 ≤ freq.length) (m : Nat) :
    ¬ parentOf (buildTree freq) m (2 * freq.length - 2) := by
  obtain ⟨t, stored, root, nodup, -, -, nodes⟩ := buildTree_nodup two
  intro parent
  obtain ⟨path, l, r, bit, found, same⟩ := (parentOf_iff two stored nodes).mp parent
  have paths := CodeTree.path_unique nodup t.sub_nil (CodeTree.sub_child bit found) (root.trans same)
  simp at paths

/-- A walk from a node ends at a symbol exactly where the path in its tree ends at the symbol's leaf. -/
theorem CodeTree.Stored.walkFrom_eq_symbol_iff {freq : List Count} {nodes : List Node} {t : CodeTree}
    (stored : t.Stored freq nodes) {sym : Nat} (inRange : sym < freq.length) (path : List Bool) :
    Machine.walkFrom nodes t.root path = some sym ↔ t.sub path = some (.leaf sym) := by
  rw [stored.walkFrom, Option.map_eq_some_iff]
  constructor
  · rintro ⟨u, found, rfl⟩
    rw [found, ← (stored.sub found).eq_leaf inRange]
  · exact fun found => ⟨_, found, rfl⟩

/-- A node's weight is the sum of the counts of the leaves below it (41_tree.md R125). -/
theorem buildTree_weight {freq : List Count} (two : 2 ≤ freq.length) (small : freq.length ≤ 65536) {n : Nat} {r : Node}
    (record : (buildTree freq)[n]? = some r) : ∃ leaves : List Nat, leaves.Nodup ∧
      (∀ sym, sym ∈ leaves ↔ sym < freq.length ∧ ∃ path, walkFrom (buildTree freq) n path = some sym) ∧
      r.weight.toNat = (leaves.map (countIn freq)).sum := by
  obtain ⟨u, stored, rfl, -, nodup, symbols, few⟩ := buildTree_subtree two (lt_of_buildTree_record two record)
  obtain ⟨_, record', weight, -⟩ := stored.record (few.trans small)
  cases record.symm.trans record'
  refine ⟨u.leaves, nodup, fun sym => ⟨fun member => ?_, fun ⟨inRange, path, walked⟩ => ?_⟩, ?_⟩
  · obtain ⟨path, found⟩ := CodeTree.mem_leaves_iff.mp member
    exact ⟨symbols sym member, path, (stored.walkFrom_eq_symbol_iff (symbols sym member) path).mpr found⟩
  · exact CodeTree.mem_leaves_of_sub ((stored.walkFrom_eq_symbol_iff inRange path).mp walked)
  · rw [weight, CodeTree.total_eq_sum]

/-- A node's depth is the length of the longest path down to a leaf (41_tree.md R125). -/
theorem buildTree_depth {freq : List Count} (two : 2 ≤ freq.length) (small : freq.length ≤ 65536) {n : Nat} {r : Node}
    (record : (buildTree freq)[n]? = some r) :
    (∃ path sym, sym < freq.length ∧ walkFrom (buildTree freq) n path = some sym ∧ path.length = r.depth.toNat) ∧
    (∀ path sym, sym < freq.length → walkFrom (buildTree freq) n path = some sym → path.length ≤ r.depth.toNat) := by
  obtain ⟨u, stored, rfl, -, -, symbols, few⟩ := buildTree_subtree two (lt_of_buildTree_record two record)
  obtain ⟨_, record', -, depth⟩ := stored.record (few.trans small)
  cases record.symm.trans record'
  rw [depth]
  constructor
  · obtain ⟨path, sym, found, deepest⟩ := u.exists_path_length_eq_height
    have inRange := symbols sym (CodeTree.mem_leaves_of_sub found)
    exact ⟨path, sym, inRange, (stored.walkFrom_eq_symbol_iff inRange path).mpr found, deepest⟩
  · intro path sym inRange walked
    exact CodeTree.sub_length_le ((stored.walkFrom_eq_symbol_iff inRange path).mp walked)

/-- A symbol's codeword in the tree of a frequency table, which every symbol has. -/
def codewordOf (p : Params) (freq : List Count) (sym : Nat) : List Bool := (pathTo p (buildTree freq) sym).getD []

/-- `pathTo` answers each symbol's codeword (41_tree.md R128). -/
theorem pathTo_eq_codewordOf {p : Params} {freq : List Count} (len : freq.length = p.alphabet) (two : 2 ≤ p.alphabet)
    {sym : Nat} (inRange : sym < p.alphabet) : pathTo p (buildTree freq) sym = some (codewordOf p freq sym) := by
  obtain ⟨code, found, -⟩ := pathTo_total len two inRange
  rw [codewordOf, found, Option.getD_some]

/-- A codeword has 1 to `MAXLEN` bits (41_tree.md R128). -/
theorem codewordOf_length {p : Params} {freq : List Count} (len : freq.length = p.alphabet) (two : 2 ≤ p.alphabet)
    {sym : Nat} (inRange : sym < p.alphabet) :
    1 ≤ (codewordOf p freq sym).length ∧ (codewordOf p freq sym).length ≤ p.maxLen := by
  obtain ⟨code, found, bounds⟩ := pathTo_total len two inRange
  rwa [codewordOf, found, Option.getD_some]

/-- The codewords of distinct symbols are no prefixes of each other (41_tree.md R131). -/
theorem not_codewordOf_prefix {p : Params} {freq : List Count} (len : freq.length = p.alphabet) (two : 2 ≤ p.alphabet)
    {x y : Nat} (hx : x < p.alphabet) (hy : y < p.alphabet) (distinct : x ≠ y) :
    ¬ codewordOf p freq x <+: codewordOf p freq y := fun pre =>
  distinct (code_prefix_free len two hx hy (pathTo_eq_codewordOf len two hx) (pathTo_eq_codewordOf len two hy) pre)

/-- The codewords' lengths satisfy the Kraft equality (41_tree.md R131). -/
theorem codewordOf_kraft {p : Params} {freq : List Count} (len : freq.length = p.alphabet) (two : 2 ≤ p.alphabet) :
    ((List.range p.alphabet).map fun sym => 2 ^ (p.maxLen - (codewordOf p freq sym).length)).sum = 2 ^ p.maxLen := by
  obtain ⟨t, -, -, leaves, -, find, -⟩ := codeTree_spec len two
  have high : t.height ≤ p.maxLen := by
    have lt := t.height_lt_leaves
    rw [leaves.length_eq, List.length_range] at lt
    exact Nat.le_sub_one_of_lt lt
  simp only [codewordOf, find]
  rw [← (leaves.map _).sum_eq]
  exact CodeTree.kraft_eq (leaves.nodup_iff.mpr List.nodup_range) high

end Sys2Proof.Machine
end

section
/-! PROOFS. Which members a merge takes from a forest: the least one under a strict order of distinct indices, and never
one that outweighs all others together while three are left (41_tree.md R122, R123, R132). -/

namespace Sys2Proof.Machine

/-- No member precedes itself (41_tree.md R123). -/
theorem precedes_irrefl (a : Member) : precedes a a = false := by
  rw [precedes_false_iff]
  omega

/-- The comparator is transitive (41_tree.md R123). -/
theorem precedes_trans {a b c : Member} (ab : precedes a b = true) (bc : precedes b c = true) :
    precedes a c = true := by
  rw [precedes_iff] at *
  omega

/-- Of two members of distinct indices one precedes the other (41_tree.md R123). -/
theorem precedes_total {a b : Member} (distinct : a.index ≠ b.index) : precedes a b = true ∨ precedes b a = true := by
  rw [precedes_iff, precedes_iff]
  omega

/-- From a forest that is not empty a member is taken. -/
theorem exists_takeLeast {forest : List Member} (nonempty : forest ≠ []) :
    ∃ least rest, takeLeast forest = some (least, rest) := by
  cases taken : takeLeast forest with
  | none => exact absurd (takeLeast_eq_none.mp taken) nonempty
  | some pair => exact ⟨pair.1, pair.2, rfl⟩

/-- With distinct indices the member taken precedes every other (41_tree.md R122, R123). -/
theorem takeLeast_precedes {forest rest : List Member} {least : Member}
    (distinct : (forest.map Member.index).Nodup) (taken : takeLeast forest = some (least, rest)) :
    ∀ m ∈ rest, precedes least m = true := by
  intro m member
  have parts := ((takeLeast_perm taken).map Member.index).nodup_iff.mp distinct
  rw [List.map_cons, List.nodup_cons] at parts
  have apart : least.index ≠ m.index := fun same => parts.1 (List.mem_map.mpr ⟨m, member, same.symm⟩)
  refine (precedes_total apart).resolve_right ?_
  rw [takeLeast_least taken m member]
  exact Bool.false_ne_true

/-- A member that precedes all the others is the one taken, in whatever order the forest lists them. -/
theorem takeLeast_of_perm {forest others : List Member} {m : Member} (perm : forest.Perm (m :: others))
    (least : ∀ x ∈ others, precedes m x = true) : ∃ rest, takeLeast forest = some (m, rest) ∧ rest.Perm others := by
  obtain ⟨m', rest, taken⟩ := exists_takeLeast (forest := forest) (by rintro rfl; simpa using perm.length_eq)
  have parts := (takeLeast_perm taken).symm.trans perm
  obtain rfl : m' = m := by
    by_contra other
    have taken' : m' ∈ others := (List.mem_cons.mp (parts.subset (List.mem_cons_self ..))).resolve_left other
    have left : m ∈ rest := (List.mem_cons.mp (parts.symm.subset (List.mem_cons_self ..))).resolve_left (Ne.symm other)
    exact absurd (least m' taken') (by rw [takeLeast_least taken m left]; exact Bool.false_ne_true)
  exact ⟨rest, taken, parts.cons_inv⟩

/-- One merge of a forest whose two least members are known. -/
theorem mergeForest_succ {forest rest1 rest2 : List Member} {t1 t2 : Member} (merges next : Nat)
    (first : takeLeast forest = some (t1, rest1)) (second : takeLeast rest1 = some (t2, rest2)) :
    mergeForest (merges + 1) next forest =
      mergeNode t1 t2 :: mergeForest merges (next + 1) ({ index := next, node := mergeNode t1 t2 } :: rest2) := by
  rw [mergeForest, first]
  simp only [second]

/-- One merge of a forest of which two members, `t1` before `t2`, precede all the others. -/
theorem mergeForest_of_perm {forest others : List Member} {t1 t2 : Member} (merges next : Nat)
    (perm : forest.Perm (t1 :: t2 :: others)) (least1 : ∀ x ∈ t2 :: others, precedes t1 x = true)
    (least2 : ∀ x ∈ others, precedes t2 x = true) :
    ∃ rest, rest.Perm others ∧ mergeForest (merges + 1) next forest =
      mergeNode t1 t2 :: mergeForest merges (next + 1) ({ index := next, node := mergeNode t1 t2 } :: rest) := by
  obtain ⟨rest1, first, perm1⟩ := takeLeast_of_perm perm least1
  obtain ⟨rest2, second, perm2⟩ := takeLeast_of_perm perm1 least2
  exact ⟨rest2, perm2, mergeForest_succ merges next first second⟩

/-- From a forest of two or more members two are taken, one after the other. -/
theorem exists_takeLeast_two {forest : List Member} {k : Nat} (length : forest.length = k + 2) :
    ∃ t1 rest1 t2 rest2, takeLeast forest = some (t1, rest1) ∧ takeLeast rest1 = some (t2, rest2) ∧
      rest1.length = k + 1 ∧ rest2.length = k := by
  obtain ⟨t1, rest1, first⟩ := exists_takeLeast (forest := forest) (by rintro rfl; cases length)
  have length1 : rest1.length = k + 1 := Nat.succ.inj ((takeLeast_length first).symm.trans length)
  obtain ⟨t2, rest2, second⟩ := exists_takeLeast (forest := rest1) (by rintro rfl; cases length1)
  exact ⟨t1, rest1, t2, rest2, first, second, length1, Nat.succ.inj ((takeLeast_length second).symm.trans length1)⟩

/-! ### Majority -/

/-- The sum of a forest's weights. -/
def forestWeight (forest : List Member) : Nat := (forest.map fun m => m.node.weight.toNat).sum

@[simp] theorem forestWeight_cons (m : Member) (forest : List Member) :
    forestWeight (m :: forest) = m.node.weight.toNat + forestWeight forest := List.sum_cons

theorem forestWeight_perm {forest forest' : List Member} (perm : forest.Perm forest') :
    forestWeight forest = forestWeight forest' := (perm.map _).sum_eq

theorem weight_le_forestWeight {forest : List Member} {m : Member} (member : m ∈ forest) :
    m.node.weight.toNat ≤ forestWeight forest :=
  List.le_sum_of_mem (List.mem_map.mpr ⟨m, member, rfl⟩)

/-- A member outweighs the rest of its forest: its weight is more than half of the whole. -/
abbrev outweighs (m : Member) (forest : List Member) : Prop := forestWeight forest < 2 * m.node.weight.toNat

/-- While another member is left, the one that outweighs the rest is not taken, and it outweighs what is left too. -/
theorem rest_of_outweighs {forest rest : List Member} {m least : Member} (member : m ∈ forest)
    (heavy : outweighs m forest) (taken : takeLeast forest = some (least, rest)) (more : 0 < rest.length) :
    m ∈ rest ∧ outweighs m rest := by
  have perm := takeLeast_perm taken
  rw [outweighs, forestWeight_perm perm, forestWeight_cons] at heavy
  refine ⟨(List.mem_cons.mp (perm.subset member)).resolve_left ?_, by rw [outweighs]; omega⟩
  rintro rfl
  obtain ⟨x, other⟩ := List.exists_mem_of_length_pos more
  have notLess := (precedes_false_iff _ _).mp (takeLeast_least taken x other)
  have light := weight_le_forestWeight other
  omega

/-- A merge keeps the sum of the weights, as long as it fits the weight field (41_tree.md R134). -/
theorem forestWeight_merge (t1 t2 : Member) (next : Nat) (rest : List Member)
    (fits : forestWeight (t1 :: t2 :: rest) < 2 ^ 48) :
    forestWeight ({ index := next, node := mergeNode t1 t2 } :: rest) = forestWeight (t1 :: t2 :: rest) := by
  simp only [forestWeight_cons, mergeNode, BitVec.toNat_add] at *
  omega

/-- The member that outweighs all others together is a child of the last node made (41_tree.md R132): every merge before
takes two others. -/
theorem mergeForest_majority {m : Member} (merges : Nat) :
    ∀ (next : Nat) (forest : List Member), forest.length = merges + 2 → m ∈ forest → outweighs m forest →
      forestWeight forest < 2 ^ 48 → ∃ nodes l r w d, mergeForest (merges + 1) next forest =
        nodes ++ [{ kind := .internal l r, weight := w, depth := d }] ∧ (l = m.index ∨ r = m.index) := by
  induction merges with
  | zero =>
    intro next forest length member heavy fits
    obtain ⟨t1, rest1, t2, rest2, first, second, -, length2⟩ := exists_takeLeast_two length
    refine ⟨[], t1.index, t2.index, _, _, mergeForest_succ 0 next first second, ?_⟩
    rcases List.mem_cons.mp ((takeLeast_perm first).subset member) with rfl | member1
    · exact .inl rfl
    · obtain rfl := List.length_eq_zero_iff.mp length2
      exact .inr (congrArg _ (List.mem_singleton.mp ((takeLeast_perm second).subset member1)).symm)
  | succ k ih =>
    intro next forest length member heavy fits
    obtain ⟨t1, rest1, t2, rest2, first, second, length1, length2⟩ := exists_takeLeast_two length
    obtain ⟨member1, heavy1⟩ := rest_of_outweighs member heavy first (by omega)
    obtain ⟨member2, -⟩ := rest_of_outweighs member1 heavy1 second (by omega)
    have perm : forest.Perm (t1 :: t2 :: rest2) := (takeLeast_perm first).trans ((takeLeast_perm second).cons _)
    rw [outweighs, forestWeight_perm perm] at heavy
    rw [forestWeight_perm perm] at fits
    have same := forestWeight_merge t1 t2 next rest2 fits
    obtain ⟨nodes, l, r, w, d, made, child⟩ := ih (next + 1) ({ index := next, node := mergeNode t1 t2 } :: rest2)
      (by rw [List.length_cons, length2]) (List.mem_cons_of_mem _ member2) (by rwa [outweighs, same]) (by rwa [same])
    exact ⟨mergeNode t1 t2 :: nodes, l, r, w, d,
      by rw [mergeForest_succ _ _ first second, made, List.cons_append], child⟩

/-- The leaves as the first forest of `BuildTree`. -/
theorem membersFrom_eq_mapIdx (first : Nat) (nodes : List Node) :
    membersFrom first nodes = nodes.mapIdx fun i n => { index := first + i, node := n } := by
  induction nodes generalizing first with
  | nil => rfl
  | cons n nodes ih => simp [membersFrom, ih, List.mapIdx_cons, Nat.add_assoc, Nat.add_comm 1]

/-- The first forest weighs as much as all counts together. -/
theorem forestWeight_leaves (first : Nat) (freq : List Count) :
    forestWeight (membersFrom first (freq.map leafNode)) = (freq.map BitVec.toNat).sum := by
  induction freq generalizing first with
  | nil => rfl
  | cons c freq ih =>
    have weight : (leafNode c).weight.toNat = c.toNat := BitVec.toNat_setWidth_of_le (by omega)
    simp only [List.map_cons, membersFrom, forestWeight_cons, ih, weight, List.sum_cons]

/-- The sum of all counts, entry by entry. -/
theorem sum_countIn (freq : List Count) :
    ((List.range freq.length).map (countIn freq)).sum = (freq.map BitVec.toNat).sum := by
  congr 1
  refine List.ext_getElem (by simp) fun i _ inRange => ?_
  rw [List.length_map] at inRange
  rw [List.getElem_map, List.getElem_range, List.getElem_map, countIn, List.getD_eq_getElem _ _ inRange]

/-- Counts of 32 bits over at most `2^16` symbols sum to less than `2^48` (00_scope.md R8). -/
theorem sum_counts_lt {freq : List Count} (nonempty : 0 < freq.length) (small : freq.length ≤ 65536) :
    (freq.map BitVec.toNat).sum < 2 ^ 48 := by
  have bound : ∀ c ∈ freq.map BitVec.toNat, c ≤ 2 ^ 32 - 1 := by
    intro c member
    obtain ⟨x, -, rfl⟩ := List.mem_map.mp member
    omega
  have sum := List.sum_le_card_nsmul _ _ bound
  rw [List.length_map, smul_eq_mul] at sum
  omega

/-- The count of one symbol and those of the others make up the sum of all. -/
theorem countIn_add_others {freq : List Count} {sym : Nat} (inRange : sym < freq.length) :
    countIn freq sym + (((List.range freq.length).filter (· ≠ sym)).map (countIn freq)).sum =
      (freq.map BitVec.toNat).sum := by
  have others : (List.range freq.length).filter (· ≠ sym) = (List.range freq.length).erase sym := by
    rw [List.nodup_range.erase_eq_filter]
    exact List.filter_congr fun x _ => by simp [bne, beq_eq_decide]
  rw [← sum_countIn, others, ← List.sum_cons, ← List.map_cons]
  exact ((List.perm_cons_erase (List.mem_range.mpr inRange)).map _).sum_eq.symm

/-- The last node made is the root (41_tree.md R121): a symbol that outweighs all others together is one of its
children (R132). -/
theorem root_over_majority {freq : List Count} (two : 2 ≤ freq.length) (small : freq.length ≤ 65536) {sym : Nat}
    (inRange : sym < freq.length)
    (majority : (((List.range freq.length).filter (· ≠ sym)).map (countIn freq)).sum < countIn freq sym) :
    parentOf (buildTree freq) (2 * freq.length - 2) sym := by
  have total := countIn_add_others inRange
  have leaves := forestWeight_leaves 0 freq
  have fits := sum_counts_lt (by omega) small
  have entry : freq.getD sym 0#32 = freq[sym] := List.getD_eq_getElem _ _ inRange
  have weight : (leafNode freq[sym]).weight.toNat = countIn freq sym := by
    rw [countIn, entry]
    exact BitVec.toNat_setWidth_of_le (by omega)
  have member : ({ index := sym, node := leafNode freq[sym] } : Member) ∈ membersFrom 0 (freq.map leafNode) := by
    rw [membersFrom_eq_mapIdx]
    exact List.mem_mapIdx.mpr ⟨sym, by simpa using inRange, by simp⟩
  obtain ⟨merges, length⟩ : ∃ k, freq.length = k + 2 := ⟨freq.length - 2, by omega⟩
  obtain ⟨nodes, l, r, w, d, made, child⟩ := mergeForest_majority merges freq.length (membersFrom 0 (freq.map leafNode))
    (by simp [membersFrom_eq_mapIdx, length]) member (by rw [outweighs, leaves, weight]; omega) (by rwa [leaves])
  have all : buildTree freq =
      freq.map leafNode ++ nodes ++ [{ kind := .internal l r, weight := w, depth := d }] := by
    rw [buildTree, List.append_assoc, ← made]
    congr 2
    omega
  obtain ⟨count, -⟩ := buildTree_spec freq two
  have before : (freq.map leafNode ++ nodes).length = 2 * freq.length - 2 := by
    rw [all, List.length_append, List.length_singleton] at count
    omega
  exact ⟨l, r, w, d, by rw [all, ← before, List.getElem?_concat_length], child.imp Eq.symm Eq.symm⟩

/-- A child of the root is one step away. -/
theorem walk_of_parentOf_root {p : Params} {nodes : List Node} {n : Nat} (parent : parentOf nodes p.root n) :
    ∃ bit, walk p nodes [bit] = some n := by
  obtain ⟨l, r, w, d, record, rfl | rfl⟩ := parent
  · exact ⟨false, by simp [walk, walkFrom, childOf, record]⟩
  · exact ⟨true, by simp [walk, walkFrom, childOf, record]⟩

end Sys2Proof.Machine
end

section
/-! PROOFS. An OBSERVE that succeeds has counted, and two symbols may be counted in either order (40_frequency.md R102,
41_tree.md R126, R127). -/

namespace Sys2Proof.Machine

/-- An OBSERVE that ends with OK passed every check and counted its symbol. -/
theorem observe_ok {s t : State} {sym : Nat} (executed : exec (.observe sym) s = .next t) (ok : t.err = .ok) :
    s.fatal = false ∧ sym < s.params.alphabet ∧ sym ≠ s.params.eofSym ∧ s.countOf sym ≠ 0xFFFFFFFF#32 ∧
      t = (s.count sym).done := by
  cases exec_effect executed with
  | raised _ e listed =>
    obtain rfl : e = .ok := ok
    exact absurd listed (ok_not_plain _)
  | observe _ up inRange data room => exact ⟨up, inRange, data, room, rfl⟩

/-- Counting two symbols ends in the same state in either order: the table is the same, and the tree is built
from it. -/
theorem State.count_done_comm (s : State) {x y : Nat} (distinct : x ≠ y) :
    ((s.count x).done.count y).done = ((s.count y).done.count x).done := by
  have tables : (s.freq.set x (s.countOf x + 1#32)).set y ((s.count x).countOf y + 1#32) =
      (s.freq.set y (s.countOf y + 1#32)).set x ((s.count y).countOf x + 1#32) := by
    rw [countOf_count_other s distinct.symm, countOf_count_other s distinct, List.set_comm _ _ distinct]
  exact congrArg (fun freq => (s.rebuild freq).done) tables

end Sys2Proof.Machine
end

section
/-! PROOFS. What VALUEAT ends with (41_tree.md R129), and that the results of ENCODE, EOFCODE, DECODE and VALUEAT depend
on the tree, `A` and the bits they read alone (R126). -/

namespace Sys2Proof.Machine

/-! ### VALUEAT -/

/-- VALUEAT of a path that ends at a node reports the node. -/
theorem exec_valueat_reports {s : State} {path : List Bool} {n : Nat} {r : Node} (up : s.fatal = false)
    (short : s.pathLen.toNat ≤ s.params.maxLen) (operand : pathOperand s s.pathLen.toNat 0 = .ok path)
    (found : walk s.params s.node path = some n) (record : s.node[n]? = some r) :
    exec .valueat s = .next (s.reportNode n r).done := by
  rw [exec, execValueat, unlessFaulted_up up, if_neg (Nat.not_lt.mpr short)]
  simp only [operand, found, record]

/-- VALUEAT of a path above MAXLEN is InvalidPath. -/
theorem exec_valueat_long {s : State} (up : s.fatal = false) (long : s.params.maxLen < s.pathLen.toNat) :
    exec .valueat s = .next (s.raise .invalidPath) := by
  rw [exec, execValueat, unlessFaulted_up up, if_pos long]

/-- VALUEAT of a path that leaves the tree is InvalidPath. -/
theorem exec_valueat_lost {s : State} {path : List Bool} (up : s.fatal = false)
    (short : s.pathLen.toNat ≤ s.params.maxLen) (operand : pathOperand s s.pathLen.toNat 0 = .ok path)
    (lost : walk s.params s.node path = none) : exec .valueat s = .next (s.raise .invalidPath) := by
  rw [exec, execValueat, unlessFaulted_up up, if_neg (Nat.not_lt.mpr short)]
  simp only [operand, lost]

/-- VALUEAT that needs a bit of an unwritten word faults (93_implementation_defined.md U3). -/
theorem exec_valueat_unwritten {s : State} {j : Nat} (up : s.fatal = false)
    (short : s.pathLen.toNat ≤ s.params.maxLen) (operand : pathOperand s s.pathLen.toNat 0 = .error j) :
    exec .valueat s = .fault (.unwrittenPathBits j) := by
  rw [exec, execValueat, unlessFaulted_up up, if_neg (Nat.not_lt.mpr short)]
  simp only [operand]

/-- The path operand is the bits the host wrote. -/
theorem pathOperand_of_pathHas {s : State} {path : List Bool} (length : s.pathLen.toNat = path.length)
    (bits : s.pathHas path) : pathOperand s s.pathLen.toNat 0 = .ok path := by
  rw [length]
  exact pathOperand_written fun i inside => by rw [Nat.zero_add]; exact bits i inside

/-- The two weight registers hold the weight (10_state.md R32). -/
theorem weight_halves (w : Weight) :
    (w.extractLsb' 32 16).toNat * 2 ^ 32 + (w.extractLsb' 0 32).toNat = w.toNat := by
  simp only [BitVec.extractLsb'_toNat, Nat.shiftRight_eq_div_pow]
  omega

/-- The root's record is internal, and its weight is the sum of all counts (41_tree.md R129). -/
theorem State.Inv.root_record {s : State} (inv : s.Inv) : ∃ r, s.node[s.params.root]? = some r ∧
    valKindOf r.kind = .internal ∧ r.weight.toNat = (s.freq.map BitVec.toNat).sum := by
  obtain ⟨l, r, stored, leaves, -, -⟩ := inv.codeTree
  obtain ⟨-, small, -⟩ := inv.legal
  obtain ⟨nd, record, weight, -⟩ := stored.record (by rwa [leaves.length_eq, List.length_range])
  obtain ⟨⟨-, -, -, nl, nr, _, -, -, here, rfl, -⟩, -, -⟩ := stored
  cases here.symm.trans record
  refine ⟨_, record, rfl, ?_⟩
  rw [weight, CodeTree.total_eq_sum, (leaves.map _).sum_eq, ← inv.freqLength, sum_countIn]

/-! ### What the results depend on -/

/-- The codewords depend on the tree and `A` alone. -/
theorem pathTo_congr {p q : Params} (same : p.alphabet = q.alphabet) (nodes : List Node) (sym : Nat) :
    pathTo p nodes sym = pathTo q nodes sym := by
  rw [pathTo, pathTo, Params.root, Params.root, same]

/-- Walks depend on the tree and `A` alone. -/
theorem walk_congr {p q : Params} (same : p.alphabet = q.alphabet) (nodes : List Node) (path : List Bool) :
    walk p nodes path = walk q nodes path := by
  rw [walk, walk, Params.root, Params.root, same]

/-- What `emit` writes depends on the codeword and `A` alone (42_encoder.md R153). -/
theorem emit_congr {s u : State} (same : s.params.alphabet = u.params.alphabet) (code : List Bool) :
    (s.emit code).codeLen = (u.emit code).codeLen ∧ (s.emit code).codeBits = (u.emit code).codeBits := by
  rw [State.emit_codeBits, State.emit_codeBits, Params.codeWords, Params.codeWords, Params.maxLen, Params.maxLen, same]
  exact ⟨rfl, rfl⟩

/-- EOFCODE emits the sentinel's codeword. -/
theorem exec_eofcode_found {s : State} {code : List Bool} (up : s.fatal = false)
    (found : s.codeOf s.params.eofSym = some code) : exec .eofcode s = .next (s.emit code).done := by
  rw [exec, execEofcode, unlessFaulted_up up, emitCode, found]

/-- The decode loop depends on the tree and the input bits it may read alone. -/
theorem decodeLoop_congr {s u : State} (tree : s.node = u.node) (remaining : Nat) :
    ∀ pos n, (∀ i, pos ≤ i → i < pos + remaining → s.inBit i = u.inBit i) →
      decodeLoop s remaining pos n = decodeLoop u remaining pos n := by
  induction remaining with
  | zero => exact fun _ _ _ => rfl
  | succ remaining ih =>
    intro pos n bits
    have next (m : Nat) : decodeLoop s remaining (pos + 1) m = decodeLoop u remaining (pos + 1) m :=
      ih (pos + 1) m fun i above below => bits i (by omega) (by omega)
    simp only [decodeLoop, bits pos le_rfl (by omega), tree, next]

/-- The path operand depends on the path bits alone. -/
theorem pathOperand_congr {s u : State} (count : Nat) :
    ∀ start, (∀ i, start ≤ i → i < start + count → s.pathBit i = u.pathBit i) →
      pathOperand s count start = pathOperand u count start := by
  induction count with
  | zero => exact fun _ _ => rfl
  | succ count ih =>
    intro start bits
    have next := ih (start + 1) fun i above below => bits i (by omega) (by omega)
    simp only [pathOperand, bits start le_rfl (by omega), next]

/-- What DECODE reports, and where the cursor stands. -/
abbrev sameDecoded (t v : State) : Prop :=
  t.resultKind = v.resultKind ∧ t.resultSym = v.resultSym ∧ t.inPos = v.inPos ∧ t.err = v.err

/-- Two DECODEs that start with equal input registers and whose loops end alike report alike. -/
theorem exec_decode_congr {s u t : State} (upS : s.fatal = false) (upU : u.fatal = false)
    (eof : s.params.eofSym = u.params.eofSym) (len : s.inLen = u.inLen) (cursor : s.inPos = u.inPos)
    (cap : s.inLen.toNat ≤ s.params.inCap ↔ u.inLen.toNat ≤ u.params.inCap) (kind : s.resultKind = u.resultKind)
    (sym : s.resultSym = u.resultSym)
    (loop : decodeLoop s (s.inLen.toNat - s.inPos.toNat) s.inPos.toNat s.params.root =
      decodeLoop u (u.inLen.toNat - u.inPos.toNat) u.inPos.toNat u.params.root)
    (executed : exec .decode s = .next t) : ∃ v, exec .decode u = .next v ∧ sameDecoded t v := by
  rw [exec, execDecode, unlessFaulted_up upS] at executed
  rw [exec, execDecode, unlessFaulted_up upU]
  have range : (u.params.inCap < u.inLen.toNat ∨ u.inLen.toNat < u.inPos.toNat) ↔
      (s.params.inCap < s.inLen.toNat ∨ s.inLen.toNat < s.inPos.toNat) := by
    rw [len] at cap
    rw [len, cursor]
    omega
  by_cases outside : s.params.inCap < s.inLen.toNat ∨ s.inLen.toNat < s.inPos.toNat
  · rw [if_pos outside] at executed
    cases executed
    exact ⟨_, if_pos (range.mpr outside), kind, sym, cursor, rfl⟩
  · rw [if_neg outside] at executed
    rw [if_neg (range.not.mpr outside), ← loop]
    generalize decodeLoop s (s.inLen.toNat - s.inPos.toNat) s.inPos.toNat s.params.root = ended at executed ⊢
    cases ended with
    | truncated => cases executed; exact ⟨_, rfl, rfl, sym, len, rfl⟩
    | unwritten j => cases executed
    | broken => cases executed; exact ⟨_, rfl, kind, sym, cursor, rfl⟩
    | leaf n p =>
      by_cases sentinel : n = s.params.eofSym
      · cases (if_pos sentinel).symm.trans executed
        exact ⟨_, if_pos (sentinel.trans eof), rfl, congrArg (BitVec.ofNat 16) eof, len, rfl⟩
      · cases (if_neg sentinel).symm.trans executed
        exact ⟨_, if_neg (eof ▸ sentinel), rfl, rfl, rfl, rfl⟩

/-- What VALUEAT reports: ERR, and the registers `VAL_*` where it is OK. -/
abbrev sameReport (t v : State) : Prop :=
  t.err = v.err ∧ (t.err = .ok → t.valKey = v.valKey ∧ t.valKind = v.valKind ∧ t.valDepth = v.valDepth ∧
    t.valWeightLo = v.valWeightLo ∧ t.valWeightHi = v.valWeightHi)

/-- A walk ends at a node that has a record. -/
theorem State.Inv.walk_record {s : State} (inv : s.Inv) {path : List Bool} {n : Nat}
    (found : walk s.params s.node path = some n) : ∃ r, s.node[n]? = some r := by
  rw [inv.tree] at found ⊢
  obtain ⟨r, record, -⟩ := Machine.walk_record inv.freqLength inv.legal.1 found
  exact ⟨r, record⟩

/-- Two VALUEATs of equal path operands in equal trees report alike. -/
theorem exec_valueat_congr {s u t : State} (invS : s.Inv) (invU : u.Inv)
    (alphabet : s.params.alphabet = u.params.alphabet) (tree : s.node = u.node) (len : s.pathLen = u.pathLen)
    (operand : pathOperand s s.pathLen.toNat 0 = pathOperand u u.pathLen.toNat 0)
    (executed : exec .valueat s = .next t) : ∃ v, exec .valueat u = .next v ∧ sameReport t v := by
  have maxLen : s.params.maxLen = u.params.maxLen := by rw [Params.maxLen, Params.maxLen, alphabet]
  by_cases long : s.params.maxLen < s.pathLen.toNat
  · cases (exec_valueat_long invS.noFatal long).symm.trans executed
    exact ⟨_, exec_valueat_long invU.noFatal (by rwa [← maxLen, ← len]), rfl, nofun⟩
  · have short := Nat.not_lt.mp long
    have short' : u.pathLen.toNat ≤ u.params.maxLen := by rwa [← maxLen, ← len]
    cases read : pathOperand s s.pathLen.toNat 0 with
    | error j => cases (exec_valueat_unwritten invS.noFatal short read).symm.trans executed
    | ok path =>
      have read' := operand.symm.trans read
      have walked : walk u.params u.node path = walk s.params s.node path := by rw [tree, walk_congr alphabet]
      cases found : walk s.params s.node path with
      | none =>
        cases (exec_valueat_lost invS.noFatal short read found).symm.trans executed
        exact ⟨_, exec_valueat_lost invU.noFatal short' read' (walked.trans found), rfl, nofun⟩
      | some n =>
        obtain ⟨r, record⟩ := invS.walk_record found
        cases (exec_valueat_reports invS.noFatal short read found record).symm.trans executed
        exact ⟨_, exec_valueat_reports invU.noFatal short' read' (walked.trans found) (tree ▸ record), rfl,
          fun _ => ⟨rfl, rfl, rfl, rfl, rfl⟩⟩

end Sys2Proof.Machine
end

section
/-! PROOFS. The initial tree of HCC (41_tree.md R133). The zero-weight nodes form a queue: the 256 data leaves, then the
nodes merged from them. Each merge takes the two at the front and puts their node at the back, and the sentinel, the
only member with a weight, stays to the last. -/

namespace Sys2Proof.Machine

/-- The node index of position `i` of the queue: the sentinel's leaf 256 is not in it. -/
def zeroIndex (i : Nat) : Nat := if i < 256 then i else i + 1

/-- The depth of the node at position `i` of the queue. -/
def zeroDepth (i : Nat) : Nat := 8 - Nat.log 2 (511 - i)

/-- The record of the node at position `i` of the queue: a leaf, or the merge of two consecutive positions. -/
def zeroNode (i : Nat) : Node where
  kind := if i < 256 then .leaf else .internal (zeroIndex (2 * (i - 256))) (zeroIndex (2 * (i - 256) + 1))
  weight := 0#48
  depth := BitVec.ofNat 16 (zeroDepth i)

/-- The forest member at position `i` of the queue. -/
def zeroMember (i : Nat) : Member := { index := zeroIndex i, node := zeroNode i }

/-- The sentinel's leaf of count `c` as a forest member of HCC. -/
def sentinelMember (c : Count) : Member := { index := 256, node := leafNode c }

theorem zeroIndex_data {i : Nat} (data : i < 256) : zeroIndex i = i := if_pos data

theorem zeroIndex_merged {i : Nat} (merged : 256 ≤ i) : zeroIndex i = i + 1 := if_neg (Nat.not_lt.mpr merged)

theorem zeroNode_depth_toNat (i : Nat) : (zeroNode i).depth.toNat = zeroDepth i := by
  rw [zeroNode, BitVec.toNat_ofNat, zeroDepth]
  omega

/-- A data symbol's leaf stands in the queue at the symbol's position. -/
theorem zeroNode_data {i : Nat} (data : i < 256) : zeroNode i = leafNode 0#32 := by
  have high : Nat.log 2 (511 - i) = 8 := Nat.log_eq_of_pow_le_of_lt_pow (by omega) (by omega)
  rw [zeroNode, if_pos data, zeroDepth, high]
  rfl

/-- After the leaves, position `256 + j` is the merge of positions `2j` and `2j + 1`. -/
theorem zeroNode_merged (j : Nat) : zeroNode (256 + j) =
    { kind := .internal (zeroIndex (2 * j)) (zeroIndex (2 * j + 1)), weight := 0#48,
      depth := BitVec.ofNat 16 (zeroDepth (256 + j)) } := by
  rw [zeroNode, if_neg (Nat.not_lt.mpr (Nat.le_add_right ..)), Nat.add_sub_cancel_left]

/-- The depths do not fall along the queue. -/
theorem zeroDepth_mono {i j : Nat} (le : i ≤ j) : zeroDepth i ≤ zeroDepth j :=
  Nat.sub_le_sub_left (Nat.log_mono_right (Nat.sub_le_sub_left le 511)) 8

/-- Each position of the queue precedes the later ones. -/
theorem zeroMember_precedes {i j : Nat} (before : i < j) : precedes (zeroMember i) (zeroMember j) = true := by
  have depths := zeroDepth_mono before.le
  have indices : zeroIndex i < zeroIndex j := by
    unfold zeroIndex
    split <;> split <;> omega
  refine (precedes_iff _ _).mpr (.inr ⟨rfl, ?_⟩)
  simp only [zeroMember, zeroNode_depth_toNat]
  omega

/-- Every zero-weight member precedes the sentinel, whose count is at least 1 (40_frequency.md R105). -/
theorem zeroMember_precedes_sentinel (i : Nat) {c : Count} (counted : 0 < c.toNat) :
    precedes (zeroMember i) (sentinelMember c) = true := by
  have weight : (leafNode c).weight.toNat = c.toNat := BitVec.toNat_setWidth_of_le (by omega)
  exact (precedes_iff _ _).mpr (.inl (counted.trans_eq weight.symm))

/-- The front two of the queue merge into the node at its back (41_tree.md R122). -/
theorem mergeNode_zeros {j : Nat} (small : j < 255) :
    mergeNode (zeroMember (2 * j)) (zeroMember (2 * j + 1)) = zeroNode (256 + j) := by
  have half {n : Nat} (even : n / 2 = 255 - j) (two : 2 ≤ n) : Nat.log 2 n = Nat.log 2 (255 - j) + 1 := by
    rw [Nat.log_of_one_lt_of_le one_lt_two two, even]
  have left := half (n := 511 - 2 * j) (by omega) (by omega)
  have right := half (n := 511 - (2 * j + 1)) (by omega) (by omega)
  have low : Nat.log 2 (255 - j) < 8 := Nat.log_lt_of_lt_pow (by omega) (by omega)
  have merged : zeroDepth (256 + j) = max (zeroDepth (2 * j)) (zeroDepth (2 * j + 1)) + 1 := by
    rw [zeroDepth, zeroDepth, zeroDepth, left, right, show 511 - (256 + j) = 255 - j by omega]
    omega
  rw [zeroNode_merged, merged, mergeNode]
  simp only [zeroMember, zeroNode_depth_toNat]
  rfl

/-- The root of the initial tree: the last of the queue over the sentinel. -/
def initialRoot (c : Count) : Node := mergeNode (zeroMember 510) (sentinelMember c)

/-- With `j` merges made and `k + 1` left, the forest is the sentinel and the queue from position `2j` on, in some
order; what is made from there is the rest of the queue and the root. -/
theorem mergeForest_zeros {c : Count} (counted : 0 < c.toNat) (k : Nat) :
    ∀ (j : Nat) (forest : List Member), j + k = 255 →
      forest.Perm (sentinelMember c :: (List.range' (2 * j) (k + 1)).map zeroMember) →
      mergeForest (k + 1) (257 + j) forest = (List.range' (256 + j) k).map zeroNode ++ [initialRoot c] := by
  induction k with
  | zero =>
    intro j forest last perm
    obtain rfl : j = 255 := last
    obtain ⟨rest, -, made⟩ := mergeForest_of_perm 0 512 (perm.trans (List.Perm.swap ..))
      (List.forall_mem_singleton.mpr (zeroMember_precedes_sentinel 510 counted)) (List.forall_mem_nil _)
    exact made
  | succ k ih =>
    intro j forest count perm
    have queue : (List.range' (2 * j) (k + 1 + 1)).map zeroMember =
        zeroMember (2 * j) :: zeroMember (2 * j + 1) :: (List.range' (2 * j + 2) k).map zeroMember := by
      rw [List.range'_succ, List.range'_succ, List.map_cons, List.map_cons]
    have later (i : Nat) (before : i < 2 * j + 2) :
        ∀ x ∈ sentinelMember c :: (List.range' (2 * j + 2) k).map zeroMember, precedes (zeroMember i) x = true := by
      intro x member
      rcases List.mem_cons.mp member with rfl | member
      · exact zeroMember_precedes_sentinel i counted
      · obtain ⟨i', inside, rfl⟩ := List.mem_map.mp member
        exact zeroMember_precedes (before.trans_le (List.mem_range'_1.mp inside).1)
    have front : (sentinelMember c :: (List.range' (2 * j) (k + 1 + 1)).map zeroMember).Perm
        (zeroMember (2 * j) :: zeroMember (2 * j + 1) ::
          sentinelMember c :: (List.range' (2 * j + 2) k).map zeroMember) := by
      rw [queue]
      exact (List.Perm.swap ..).trans ((List.Perm.swap ..).cons _)
    obtain ⟨rest, perm', made⟩ := mergeForest_of_perm (k + 1) (257 + j) (perm.trans front)
      (List.forall_mem_cons.mpr ⟨zeroMember_precedes (Nat.lt_succ_self _), later _ (by omega)⟩)
      (later _ (Nat.lt_succ_self _))
    have back : ({ index := 257 + j, node := zeroNode (256 + j) } : Member) = zeroMember (256 + j) := by
      rw [zeroMember, zeroIndex_merged (Nat.le_add_right ..), Nat.add_right_comm]
    have next : (zeroMember (256 + j) :: rest).Perm
        (sentinelMember c :: (List.range' (2 * (j + 1)) (k + 1)).map zeroMember) := by
      have ends : 2 * (j + 1) + 1 * k = 256 + j := by omega
      rw [List.range'_concat, ends, List.map_append, List.map_singleton, ← List.cons_append]
      exact (perm'.cons _).trans (List.perm_append_singleton ..).symm
    rw [made, mergeNode_zeros (by omega), back, Nat.add_assoc, ih (j + 1) _ (by omega) next, List.range'_succ,
      List.map_cons, List.cons_append, Nat.add_assoc]

/-- Members of a forest listed in two parts. -/
theorem membersFrom_append (first : Nat) (a b : List Node) :
    membersFrom first (a ++ b) = membersFrom first a ++ membersFrom (first + a.length) b := by
  induction a generalizing first with
  | nil => rfl
  | cons n a ih => rw [List.cons_append, membersFrom, ih, List.length_cons, Nat.add_assoc, Nat.add_comm 1]; rfl

/-- Zero-weight leaves are positions of the queue. -/
theorem membersFrom_zeroLeaves {count : Nat} :
    ∀ first, first + count ≤ 256 →
      membersFrom first (List.replicate count (leafNode 0#32)) = (List.range' first count).map zeroMember := by
  induction count with
  | zero => exact fun _ _ => rfl
  | succ count ih =>
    intro first data
    have leaf : ({ index := first, node := leafNode 0#32 } : Member) = zeroMember first := by
      rw [zeroMember, zeroIndex_data (by omega), zeroNode_data (by omega)]
    rw [List.replicate_succ, membersFrom, leaf, ih (first + 1) (by omega), List.range'_succ, List.map_cons]

/-- The first forest of HCC: the data leaves of the queue, and the sentinel (40_frequency.md R101). -/
theorem membersFrom_initial {p : Params} (hcc : p.alphabet = 257) : membersFrom 0 ((initialFreq p).map leafNode) =
    (List.range' 0 256).map zeroMember ++ [sentinelMember (BitVec.ofNat 32 p.eofWeight)] := by
  rw [initialFreq, Params.eofSym, hcc, List.map_append, List.map_replicate, membersFrom_append,
    membersFrom_zeroLeaves 0 le_rfl, List.length_replicate]
  rfl

/-! ### Levels and codewords -/

/-- The sizes of the levels about level `k + 1` (41_tree.md R133). -/
theorem level_sizes {k : Nat} (level : k < 8) :
    2 ^ (8 - k) = 2 * 2 ^ (7 - k) ∧ 2 ^ (9 - k) = 2 * 2 ^ (8 - k) ∧ 2 ^ (7 - k) ≤ 2 ^ 7 :=
  ⟨by rw [← pow_succ', show 7 - k + 1 = 8 - k by omega], by rw [← pow_succ', show 8 - k + 1 = 9 - k by omega],
    Nat.pow_le_pow_right two_pos (by omega)⟩

/-- Level `k + 1` of the initial tree begins at position `512 - 2^(8-k)` of the queue, and each node there is over its
two neighbours of level `k` (41_tree.md R133). -/
theorem zeroNode_level {k j : Nat} (level : k < 8) (inside : j < 2 ^ (7 - k)) :
    zeroNode (512 - 2 ^ (8 - k) + j) =
      { kind := .internal (zeroIndex (512 - 2 ^ (9 - k)) + 2 * j) (zeroIndex (512 - 2 ^ (9 - k)) + 2 * j + 1)
        weight := 0#48, depth := BitVec.ofNat 16 (k + 1) } := by
  obtain ⟨two, four, few⟩ := level_sizes level
  have log : Nat.log 2 (511 - (512 - 2 ^ (8 - k) + j)) = 7 - k :=
    Nat.log_eq_of_pow_le_of_lt_pow (by omega) (by rw [pow_succ]; omega)
  have children : ∀ b < 2, zeroIndex (512 - 2 ^ (9 - k) + 2 * j + b) = zeroIndex (512 - 2 ^ (9 - k)) + 2 * j + b := by
    intro b bit
    rcases Nat.eq_zero_or_pos k with rfl | later
    · rw [zeroIndex_data (by omega), zeroIndex_data (by omega)]
    · have high : 2 ^ (7 - k) ≤ 2 ^ 6 := Nat.pow_le_pow_right two_pos (by omega)
      rw [zeroIndex_merged (by omega), zeroIndex_merged (by omega)]
      omega
  have depth : zeroDepth (512 - 2 ^ (8 - k) + j) = k + 1 := by
    rw [zeroDepth, log]
    omega
  obtain ⟨m, position⟩ : ∃ m, 512 - 2 ^ (8 - k) + j = 256 + m := ⟨256 - 2 ^ (8 - k) + j, by omega⟩
  rw [position] at depth ⊢
  rw [zeroNode_merged, depth, show 2 * m = 512 - 2 ^ (9 - k) + 2 * j by omega, children 1 one_lt_two]
  exact congrArg (fun left => Node.mk (.internal left _) _ _) (children 0 two_pos)

/-- The low `h` bits of a number, most significant first. -/
def lowBits (n h : Nat) : List Bool := (List.range h).map fun i => n.testBit (h - 1 - i)

/-- The low `h` bits of a number, most significant first, are bit `h - 1` and then the lower ones. -/
theorem lowBits_succ (sym h : Nat) : lowBits sym (h + 1) = sym.testBit h :: lowBits sym h := by
  rw [lowBits, List.range_succ_eq_map, List.map_cons, List.map_map, lowBits]
  congr 1
  refine List.map_congr_left fun i _ => ?_
  rw [Function.comp_apply, Nat.add_sub_cancel, Nat.sub_sub, Nat.add_comm 1]

section InitialTree

variable {p : Params} (legal : p.legal) (hcc : p.alphabet = 257)

include legal hcc

/-- The initial table of HCC has 257 entries. -/
theorem initialFreq_length_hcc : (initialFreq p).length = 257 := by
  obtain ⟨two, -⟩ := legal
  rw [initialFreq_length p two, hcc]

/-- The initial tree memory of HCC: the leaves, the rest of the queue and the root. -/
theorem buildTree_initial : buildTree (initialFreq p) = (initialFreq p).map leafNode ++
    ((List.range' 256 255).map zeroNode ++ [initialRoot (BitVec.ofNat 32 p.eofWeight)]) := by
  have length := initialFreq_length_hcc legal hcc
  have forest := membersFrom_initial hcc
  obtain ⟨-, -, positive, bound, -⟩ := legal
  have counted : 0 < (BitVec.ofNat 32 p.eofWeight).toNat := by
    rw [BitVec.toNat_ofNat]
    omega
  rw [buildTree, length, forest]
  exact congrArg _ (mergeForest_zeros counted 255 0 _ rfl (List.perm_append_singleton ..))

/-- Each later position of the queue has its record. -/
theorem initial_record {i : Nat} (merged : 256 ≤ i) (inside : i < 511) :
    (buildTree (initialFreq p))[zeroIndex i]? = some (zeroNode i) := by
  have length := initialFreq_length_hcc legal hcc
  have position : 256 + 1 * (i + 1 - 257) = i := by omega
  rw [zeroIndex_merged merged, buildTree_initial legal hcc,
    List.getElem?_append_right (by rw [List.length_map]; omega), List.length_map, length,
    List.getElem?_append_left (by rw [List.length_map, List.length_range']; omega), List.getElem?_map,
    List.getElem?_range' (by omega), position, Option.map_some]

/-- The root of the initial tree (41_tree.md R133). -/
theorem initial_root : (buildTree (initialFreq p))[512]? = some
    { kind := .internal 511 256, weight := BitVec.ofNat 48 p.eofWeight, depth := 9#16 } := by
  have length := initialFreq_length_hcc legal hcc
  have tree := buildTree_initial legal hcc
  obtain ⟨-, -, -, bound, -⟩ := legal
  have weight : 0#48 + (BitVec.ofNat 32 p.eofWeight).setWidth 48 = BitVec.ofNat 48 p.eofWeight := by
    apply BitVec.eq_of_toNat_eq
    rw [BitVec.zero_add, BitVec.toNat_setWidth, BitVec.toNat_ofNat, BitVec.toNat_ofNat]
    omega
  have depth : zeroDepth 510 = 8 := by rw [zeroDepth, Nat.log_one_right]
  have root : initialRoot (BitVec.ofNat 32 p.eofWeight) =
      { kind := .internal 511 256, weight := BitVec.ofNat 48 p.eofWeight, depth := 9#16 } := by
    rw [← weight, initialRoot, mergeNode, zeroMember, zeroNode_depth_toNat, depth]
    rfl
  have before : ((initialFreq p).map leafNode ++ (List.range' 256 255).map zeroNode).length = 512 := by
    rw [List.length_append, List.length_map, List.length_map, List.length_range', length]
  rw [tree, ← List.append_assoc, ← root, ← before, List.getElem?_concat_length]

/-- The records of level `k + 1` (41_tree.md R133). -/
theorem initial_level {k j : Nat} (level : k < 8) (inside : j < 2 ^ (7 - k)) :
    (buildTree (initialFreq p))[zeroIndex (512 - 2 ^ (8 - k)) + j]? = some
      { kind := .internal (zeroIndex (512 - 2 ^ (9 - k)) + 2 * j) (zeroIndex (512 - 2 ^ (9 - k)) + 2 * j + 1)
        weight := 0#48, depth := BitVec.ofNat 16 (k + 1) } := by
  obtain ⟨two, -, few⟩ := level_sizes level
  have index : zeroIndex (512 - 2 ^ (8 - k)) + j = zeroIndex (512 - 2 ^ (8 - k) + j) := by
    rw [zeroIndex_merged (by omega), zeroIndex_merged (by omega), Nat.add_right_comm]
  rw [index, initial_record legal hcc (by omega) (by omega), zeroNode_level level inside]

/-- A step down from a later position of the queue. -/
theorem childOf_initial {j : Nat} (inside : j < 255) (bit : Bool) :
    childOf (buildTree (initialFreq p)) (zeroIndex (256 + j)) bit = some (zeroIndex (2 * j + bit.toNat)) := by
  rw [childOf, initial_record legal hcc (Nat.le_add_right ..) (by omega), zeroNode_merged]
  cases bit <;> rfl

/-- From the node `h` levels above a data symbol's leaf, the symbol's low `h` bits lead to the leaf
(41_tree.md R133). -/
theorem walkFrom_initial {sym : Nat} (data : sym < 256) (h : Nat) (levels : h ≤ 8) :
    walkFrom (buildTree (initialFreq p)) (zeroIndex (512 - 2 ^ (9 - h) + sym / 2 ^ h)) (lowBits sym h) = some sym := by
  induction h with
  | zero =>
    rw [pow_zero, Nat.div_one, zeroIndex_data (by omega)]
    exact congrArg some (Nat.zero_add sym)
  | succ h ih =>
    have lower : 9 - (h + 1) = 8 - h := by omega
    obtain ⟨two, four, few⟩ := level_sizes levels
    have all : 2 ^ (h + 1) * 2 ^ (7 - h) = 2 ^ 8 := by rw [← pow_add, show h + 1 + (7 - h) = 8 by omega]
    have prefixBits : sym / 2 ^ (h + 1) < 2 ^ (7 - h) := Nat.div_lt_of_lt_mul (data.trans_eq all.symm)
    have bit : sym / 2 ^ h = 2 * (sym / 2 ^ (h + 1)) + (sym.testBit h).toNat := by
      rw [Nat.toNat_testBit, pow_succ, ← Nat.div_div_eq_div_mul]
      omega
    obtain ⟨j, position⟩ : ∃ j, 512 - 2 ^ (8 - h) + sym / 2 ^ (h + 1) = 256 + j :=
      ⟨256 - 2 ^ (8 - h) + sym / 2 ^ (h + 1), by omega⟩
    have child : 2 * j + (sym.testBit h).toNat = 512 - 2 ^ (9 - h) + sym / 2 ^ h := by omega
    rw [lower, position, lowBits_succ, walkFrom, childOf_initial legal hcc (by omega), child]
    exact ih (by omega)

/-- The walk of `0` and then a data symbol's eight bits ends at the symbol (41_tree.md R133). -/
theorem walk_initial_data {sym : Nat} (data : sym < 256) :
    walk p (buildTree (initialFreq p)) (false :: lowBits sym 8) = some sym := by
  have below := walkFrom_initial legal hcc data 8 le_rfl
  rw [Nat.div_eq_of_lt (show sym < 2 ^ 8 from data)] at below
  rw [walk, Params.root, hcc, walkFrom, childOf, initial_root legal hcc]
  exact below

/-- The walk of `1` ends at the sentinel (41_tree.md R133). -/
theorem walk_initial_sentinel : walk p (buildTree (initialFreq p)) [true] = some 256 := by
  rw [walk, Params.root, hcc, walkFrom, childOf, initial_root legal hcc]
  rfl

end InitialTree

end Sys2Proof.Machine
end

section
/-! PROOFS. The statements of 41_tree.md. -/

namespace Sys2Proof

open Machine

/-- Settles O19: two different symbols are counted independently of each other, and one symbol twice is one order. -/
theorem observeOrderDoesNotMatter : Obligations.ObserveOrderDoesNotMatter := by
  unfold Obligations.ObserveOrderDoesNotMatter
  intro s a b x y first okFirst second okSecond
  by_cases distinct : x = y
  · subst distinct
    exact ⟨a, first, okFirst, second⟩
  · obtain ⟨up, inRangeX, dataX, roomX, rfl⟩ := observe_ok first okFirst
    obtain ⟨-, inRangeY, dataY, roomY, rfl⟩ := observe_ok second okSecond
    have roomY' : s.countOf y ≠ 0xFFFFFFFF#32 := by rwa [← countOf_count_other s (Ne.symm distinct)]
    have roomX' : (s.count y).countOf x ≠ 0xFFFFFFFF#32 := by rwa [countOf_count_other s distinct]
    refine ⟨_, exec_observe_counts up inRangeY dataY roomY', rfl, ?_⟩
    rw [s.count_done_comm distinct]
    exact exec_observe_counts (s := (s.count y).done) up inRangeX dataX roomX'

/-- Settles O20: the comparator spells out the lexicographic order of the three numbers, whose last one tells members of
distinct indices apart. -/
theorem comparatorIsStrictTotalOrder : Obligations.ComparatorIsStrictTotalOrder := by
  unfold Obligations.ComparatorIsStrictTotalOrder
  refine ⟨fun a b => ?_, precedes_irrefl, fun _ _ _ ab bc => precedes_trans ab bc, fun _ _ => precedes_total⟩
  rw [precedes_iff, Prod.Lex.toLex_lt_toLex, Prod.Lex.toLex_lt_toLex]

/-- Settles O21: selection only moves a member to the front, and with distinct indices nothing left ties with it. -/
theorem leastMemberIsTaken : Obligations.LeastMemberIsTaken := by
  unfold Obligations.LeastMemberIsTaken
  intro forest nonempty distinct
  obtain ⟨least, rest, taken⟩ := exists_takeLeast nonempty
  exact ⟨least, rest, taken, takeLeast_perm taken, takeLeast_precedes distinct taken⟩

/-- Settles O22: the memory stores one code tree with every node once, and each clause is a fact about that tree. -/
theorem buildTreeStructure : Obligations.BuildTreeStructure := by
  unfold Obligations.BuildTreeStructure
  intro freq two small
  obtain ⟨length, -⟩ := buildTree_spec freq two
  exact ⟨length, fun _ inRange => buildTree_leaf inRange, fun _ high node => buildTree_internal two high node,
    fun _ node => existsUnique_parentOf two node, not_parentOf_root two,
    fun _ _ record => buildTree_weight two small record, fun _ _ record => buildTree_depth two small record⟩

/-- Settles O23: an internal record's tree has the two children it names, and no sum of its leaves' counts wraps. -/
theorem internalNodesAreExactMerges : Obligations.InternalNodesAreExactMerges := by
  unfold Obligations.InternalNodesAreExactMerges
  intro freq n l r w d two small record
  obtain ⟨u, stored, rfl, -, -, -, few⟩ := buildTree_subtree two (lt_of_buildTree_record two record)
  obtain ⟨left, right, shape, rfl, rfl⟩ := stored.eq_node record
  rw [shape] at stored few
  obtain ⟨nl, nr, nd, hl, hr, here, weight, depth, ordered⟩ := stored.exact_merge (few.trans small)
  cases here.symm.trans record
  exact ⟨nl, nr, hl, hr, weight, depth, ordered⟩

/-- Settles O24: the search finds each symbol, and a path that walks to the symbol's leaf is what it finds. -/
theorem codewordIsTheUniquePath : Obligations.CodewordIsTheUniquePath := by
  unfold Obligations.CodewordIsTheUniquePath
  intro p freq sym legal len inRange
  obtain ⟨two, -⟩ := legal
  obtain ⟨code, found, positive, short⟩ := pathTo_total len two inRange
  refine ⟨code, found, positive, short, fun path => ?_⟩
  rw [← pathTo_iff_walk len two inRange, found, Option.some.injEq, eq_comm]

/-- Settles O25: no walk goes on below a leaf, and each internal node halves the Kraft sum between its two subtrees. -/
theorem prefixFreeWithKraftEquality : Obligations.PrefixFreeWithKraftEquality := by
  unfold Obligations.PrefixFreeWithKraftEquality
  intro p freq legal len
  obtain ⟨two, -⟩ := legal
  refine ⟨codewordOf p freq,
    fun _ inRange => ⟨pathTo_eq_codewordOf len two inRange, codewordOf_length len two inRange⟩,
    fun x hx y hy distinct => ?_, codewordOf_kraft len two⟩
  have apart := not_codewordOf_prefix len two hx hy distinct
  exact ⟨fun same => apart (same ▸ List.prefix_refl _), apart, not_codewordOf_prefix len two hy hx distinct.symm⟩

/-- Settles O26: a symbol that outweighs all others together is merged last, right below the root; the four counts of
R132's counterexample are evaluated. -/
theorem majorityLaw : Obligations.MajorityLaw := by
  unfold Obligations.MajorityLaw
  refine ⟨fun p freq sym code legal len inRange found majority => ?_, by decide⟩
  obtain ⟨two, small, -⟩ := legal
  rw [← len] at majority
  have below := root_over_majority (by omega) (by omega) (by omega) majority
  rw [len] at below
  obtain ⟨bit, walked⟩ := walk_of_parentOf_root (p := p) below
  cases found.symm.trans ((pathTo_iff_walk len two inRange _).mpr walked)
  rfl

/-- Settles O27: the zero-weight nodes are merged as a queue, so the levels are full and the sentinel is merged last. -/
theorem initialTreeIsBalanced : Obligations.InitialTreeIsBalanced := by
  unfold Obligations.InitialTreeIsBalanced
  intro p legal hcc
  have bases : ∀ k < 8, [257, 385, 449, 481, 497, 505, 509, 511].getD k 0 = zeroIndex (512 - 2 ^ (8 - k)) := by decide
  have below : ∀ k < 8, [0, 257, 385, 449, 481, 497, 505, 509].getD k 0 = zeroIndex (512 - 2 ^ (9 - k)) := by decide
  have two : 2 ≤ p.alphabet := by omega
  have code {sym : Nat} (inRange : sym < 257) (path : List Bool) :=
    pathTo_iff_walk (initialFreq_length p two) two (hcc ▸ inRange) path
  refine ⟨fun k level j inside => ?_, initial_root legal hcc, (code (by omega) _).mpr (walk_initial_sentinel legal hcc),
    fun sym data => (code (by omega) _).mpr (walk_initial_data legal hcc data)⟩
  rw [bases k level, below k level]
  exact initial_level legal hcc level inside

/-- Settles O28: equal tables have equal trees, and each of the four commands computes its results from the tree, `A`
and the bits it reads. -/
theorem equalCountsGiveEqualResults : Obligations.EqualCountsGiveEqualResults := by
  unfold Obligations.EqualCountsGiveEqualResults
  intro s u invS invU alphabet _ freq
  have tree : s.node = u.node := by rw [invS.tree, freq, invU.tree]
  have eof : s.params.eofSym = u.params.eofSym := by rw [Params.eofSym, Params.eofSym, alphabet]
  have root : s.params.root = u.params.root := by rw [Params.root, Params.root, alphabet]
  have codes (sym : Nat) : s.codeOf sym = u.codeOf sym := by
    rw [State.codeOf, State.codeOf, tree, pathTo_congr alphabet]
  refine ⟨tree, fun sym inRange => ?_, ?_, fun len cursor cap bits kind sym t executed => ?_,
    fun len bits t executed => ?_⟩
  · obtain ⟨code, found, -⟩ := invS.codeOf_total inRange
    obtain ⟨sameLen, sameBits⟩ := emit_congr (s := s) (u := u) alphabet code
    exact ⟨_, _, exec_encode_found invS.noFatal inRange found,
      exec_encode_found invU.noFatal (alphabet ▸ inRange) ((codes sym).symm.trans found), sameLen, sameBits, rfl⟩
  · obtain ⟨code, found, -⟩ := invS.codeOf_total invS.eofSym_lt
    obtain ⟨sameLen, sameBits⟩ := emit_congr (s := s) (u := u) alphabet code
    exact ⟨_, _, exec_eofcode_found invS.noFatal found,
      exec_eofcode_found invU.noFatal (by rw [← eof, ← codes, found]), sameLen, sameBits, rfl⟩
  · refine exec_decode_congr invS.noFatal invU.noFatal eof len cursor cap kind sym ?_ executed
    rw [← len, ← cursor, ← root]
    exact decodeLoop_congr tree _ _ _ fun i above below => bits i (by omega)
  · refine exec_valueat_congr invS invU alphabet tree len ?_ executed
    rw [← len]
    exact pathOperand_congr _ _ fun i _ below => bits i (by omega)

/-- Settles O29: VALUEAT reads its operand, walks it, and reports the node it reaches. -/
theorem valueatReportsTheNode : Obligations.ValueatReportsTheNode := by
  unfold Obligations.ValueatReportsTheNode
  refine ⟨fun _ => decodeCmd_ok_iff_word trivial (by decide), fun s path n r up length short bits found record => ?_,
    fun s inv empty => ?_, fun s up long => exec_valueat_long up long, fun s path up length short bits lost => ?_,
    fun s path bit sym inv found inRange => ?_, fun s path up more short bits missing => ?_⟩
  · exact exec_valueat_reports up (length ▸ short) (pathOperand_of_pathHas length bits) found record
  · obtain ⟨r, record, kind, weight⟩ := inv.root_record
    obtain ⟨-, small, -⟩ := inv.legal
    have length : s.pathLen.toNat = 0 := by rw [empty]; rfl
    have key : (BitVec.ofNat 32 s.params.root).toNat = s.params.root := by
      rw [BitVec.toNat_ofNat, Params.root]
      omega
    have reported := exec_valueat_reports (path := []) inv.noFatal (by omega) (by rw [length]; rfl) rfl record
    exact ⟨_, reported, rfl, key, kind, (weight_halves r.weight).trans weight⟩
  · exact exec_valueat_lost up (length ▸ short) (pathOperand_of_pathHas length bits) lost
  · rw [inv.tree] at found ⊢
    exact walk_below_leaf inv.freqLength inv.legal.1 inRange found (List.cons_ne_nil bit [])
  · have first := pathOperand_unwritten (s := s) (start := 0) (path := path)
      (fun i inside => by rw [Nat.zero_add]; exact bits i inside) more (by rwa [Nat.zero_add])
    rw [Nat.zero_add] at first
    exact exec_valueat_unwritten up short first

end Sys2Proof
end

section
/-! PROOFS. What the codeword buffer holds after a codeword was emitted, and what ENCODE and EOFCODE do by the check
they stop at (42_encoder.md R150–R153). -/

namespace Sys2Proof.Machine

/-- CODE_LEN is wide enough for every codeword (10_state.md R27). -/
theorem State.emit_codeLen_toNat (s : State) {code : List Bool} (fits : code.length ≤ s.params.maxLen)
    (small : s.params.alphabet ≤ 65536) : (s.emit code).codeLen.toNat = code.length := by
  have below : s.params.maxLen ≤ 65535 := Nat.sub_le_sub_right small 1
  rw [State.emit_codeLen, BitVec.toNat_ofNat]
  exact Nat.mod_eq_of_lt (by omega)

/-- A packed buffer has as many words as asked for (42_encoder.md R153). -/
theorem packWords_length (words : Nat) (code : List Bool) : (packWords words code).length = words := by
  rw [packWords, List.length_map, List.length_range]

/-- Under the invariant every symbol has a codeword that fits the buffer, and the walk along it ends at the symbol. -/
theorem State.Inv.exists_codeword {s : State} (inv : s.Inv) {sym : Nat} (inRange : sym < s.params.alphabet) :
    ∃ code, s.codeOf sym = some code ∧ walk s.params s.node code = some sym ∧ 1 ≤ code.length ∧
      code.length ≤ s.params.maxLen := by
  obtain ⟨code, found, bounds⟩ := inv.codeOf_total inRange
  exact ⟨code, found, (inv.codeOf_iff_walk inRange code).mp found, bounds⟩

/-- A command that ends by emitting a codeword leaves the codeword and nothing else in the buffer. -/
theorem State.Inv.emit_done_buffer {s : State} (inv : s.Inv) {code : List Bool}
    (fits : code.length ≤ s.params.maxLen) : (s.emit code).done.codeLen.toNat = code.length ∧
      (s.emit code).done.codeword = code ∧
      ∀ i, code.length ≤ i → (s.emit code).done.codeBit i = false := by
  obtain ⟨-, small, -⟩ := inv.legal
  have length := s.emit_codeLen_toNat fits small
  exact ⟨length, s.codeword_emit fits small, fun _ past => (inv.emit fits).done.codeClear _ (length.trans_le past)⟩

/-- Under the invariant no walk to a symbol continues a walk to another one (41_tree.md R131). -/
theorem State.Inv.not_prefix_of_walk {s : State} (inv : s.Inv) {x y : Nat} {path other : List Bool}
    (hx : x < s.params.alphabet) (hy : y < s.params.alphabet) (distinct : x ≠ y)
    (toX : walk s.params s.node path = some x) (toY : walk s.params s.node other = some y) : ¬ path <+: other := by
  have codeX := (inv.codeOf_iff_walk hx path).mpr toX
  have codeY := (inv.codeOf_iff_walk hy other).mpr toY
  rw [State.codeOf, inv.tree] at codeX codeY
  exact fun pre => distinct (code_prefix_free inv.freqLength inv.legal.1 hx hy codeX codeY pre)

/-- ENCODE of a number that is no symbol. -/
theorem exec_encode_noSymbol {s : State} {sym : Nat} (up : s.fatal = false) (high : s.params.alphabet ≤ sym) :
    exec (.encode sym) s = .next (s.raise .invalidSymbol) := by
  rw [exec, execEncode, unlessFaulted_up up, if_pos high]

/-- ENCODE of the sentinel is EOFCODE (92_eei_decisions.md D11): its range check always passes. -/
theorem exec_encode_eofSym {s : State} (nonempty : 0 < s.params.alphabet) :
    exec (.encode s.params.eofSym) s = exec .eofcode s := by
  have inRange : ¬ s.params.alphabet ≤ s.params.eofSym := Nat.not_le.mpr (eofSym_lt_alphabet nonempty)
  cases down : s.fatal with
  | true => rw [exec_faulted (i := .encode _) down nofun, exec_faulted (i := .eofcode) down nofun]
  | false =>
    rw [exec, exec, execEncode, execEofcode, unlessFaulted_up down, unlessFaulted_up down, if_neg inRange]

end Sys2Proof.Machine
end

section
/-! PROOFS. The statements of 42_encoder.md. -/

namespace Sys2Proof

open Machine

/-- Settles O30: what is packed into the words is read back bit for bit, 0 past the codeword's end. -/
theorem emitWritesTheWholeBuffer : Obligations.EmitWritesTheWholeBuffer := by
  unfold Obligations.EmitWritesTheWholeBuffer
  intro s code ⟨_, small, _⟩ fits
  refine ⟨s.emit_codeLen_toNat fits small, packWords_length .., fun i inside => ?_, rfl⟩
  rw [s.codeBit_emit code inside]
  split
  case isTrue bit => exact List.getD_eq_getElem _ _ bit
  case isFalse past => exact List.getD_eq_default _ _ (Nat.le_of_not_lt past)

/-- Settles O31: ENCODE finds the path that the walk takes to the symbol and emits it; it leaves the tree, so a second
ENCODE emits the same bits. -/
theorem encodeEmitsTheCodeword : Obligations.EncodeEmitsTheCodeword := by
  unfold Obligations.EncodeEmitsTheCodeword
  refine ⟨fun _ _ => decodeCmd_ok_iff_symbolWord (opc := 0x3#4) Iff.rfl rfl, fun s sym inv inRange => ?_,
    fun _ nonempty => exec_encode_eofSym nonempty, fun _ _ up high => exec_encode_noSymbol up high⟩
  obtain ⟨code, found, walked, positive, fits⟩ := inv.exists_codeword inRange
  obtain ⟨length, buffer, clear⟩ := inv.emit_done_buffer fits
  have again : exec (.encode sym) (s.emit code).done = .next (s.emit code).done :=
    exec_encode_found (s := (s.emit code).done) inv.noFatal inRange found
  exact ⟨code, _, walked, positive, fits, exec_encode_found inv.noFatal inRange found, rfl, length, buffer,
    clear, again⟩

/-- Settles O32: EOFCODE emits the path to the sentinel's leaf; a path to another leaf neither continues it nor stops
short on it. -/
theorem eofcodeEmitsTheSentinel : Obligations.EofcodeEmitsTheSentinel := by
  unfold Obligations.EofcodeEmitsTheSentinel
  refine ⟨fun _ => decodeCmd_ok_iff_word trivial (by decide), fun s inv => ?_,
    fun _ command waits here operand => step_operandNotZero command waits here (by decide) operand⟩
  obtain ⟨code, found, walked, positive, fits⟩ := inv.exists_codeword inv.eofSym_lt
  obtain ⟨length, buffer, clear⟩ := inv.emit_done_buffer fits
  refine ⟨code, _, walked, positive, fits, exec_eofcode_found inv.noFatal found, rfl, length, buffer, clear,
    fun sym other data toSym => ?_⟩
  have inRange := lt_alphabet_of_lt_eofSym data
  exact ⟨inv.not_prefix_of_walk inv.eofSym_lt inRange data.ne' walked toSym,
    inv.not_prefix_of_walk inRange inv.eofSym_lt data.ne toSym walked⟩

end Sys2Proof
end

section
/-! PROOFS. What DECODE does by the check it stops at and by the end of its loop, and what the loop consumed where it ends
at a leaf or in the tree (43_decoder.md R170, R171). -/

namespace Sys2Proof.Machine

/-- DECODE with IN_LEN over the capacity or the cursor past IN_LEN. -/
theorem exec_decode_cursorRange {s : State} (up : s.fatal = false)
    (outside : s.params.inCap < s.inLen.toNat ∨ s.inLen.toNat < s.inPos.toNat) :
    exec .decode s = .next (s.raise .cursorRange) := by
  rw [exec, execDecode, unlessFaulted_up up, if_pos outside]

section
variable {s : State} (up : s.fatal = false) (cap : s.inLen.toNat ≤ s.params.inCap)
  (cursor : s.inPos.toNat ≤ s.inLen.toNat)
include up cap cursor

/-- DECODE whose loop ends at a leaf other than the sentinel's. -/
theorem exec_decode_leaf {n p : Nat}
    (found : decodeLoop s (s.inLen.toNat - s.inPos.toNat) s.inPos.toNat s.params.root = .leaf n p)
    (data : n ≠ s.params.eofSym) : exec .decode s = .next (s.decodedSymbol n p).done := by
  rw [exec, execDecode, unlessFaulted_up up, if_neg (by omega), found]
  exact if_neg data

/-- DECODE whose loop ends at the sentinel's leaf. -/
theorem exec_decode_eof {p : Nat}
    (found : decodeLoop s (s.inLen.toNat - s.inPos.toNat) s.inPos.toNat s.params.root = .leaf s.params.eofSym p) :
    exec .decode s = .next s.decodedEof.done := by
  rw [exec, execDecode, unlessFaulted_up up, if_neg (by omega), found]
  exact if_pos rfl

/-- DECODE whose loop runs out of input. -/
theorem exec_decode_truncated
    (ended : decodeLoop s (s.inLen.toNat - s.inPos.toNat) s.inPos.toNat s.params.root = .truncated) :
    exec .decode s = .next (s.decodedTruncated.raise .truncatedStream) := by
  rw [exec, execDecode, unlessFaulted_up up, if_neg (by omega), ended]

/-- DECODE whose loop needs a bit of an unwritten word (93_implementation_defined.md U3). -/
theorem exec_decode_unwritten {j : Nat}
    (missing : decodeLoop s (s.inLen.toNat - s.inPos.toNat) s.inPos.toNat s.params.root = .unwritten j) :
    exec .decode s = .fault (.unwrittenInBits j) := by
  rw [exec, execDecode, unlessFaulted_up up, if_neg (by omega), missing]

/-- DECODE whose loop leaves the tree (60_exceptions.md R203). -/
theorem exec_decode_broken
    (broken : decodeLoop s (s.inLen.toNat - s.inPos.toNat) s.inPos.toNat s.params.root = .broken) :
    exec .decode s = .next (s.raiseFatal .invalidPath) := by
  rw [exec, execDecode, unlessFaulted_up up, if_neg (by omega), broken]

end

/-- From every state DECODE goes on to a next state or needs a bit of an unwritten word. -/
theorem exec_decode_ends (s : State) :
    (∃ t, exec .decode s = .next t) ∨ ∃ j, exec .decode s = .fault (.unwrittenInBits j) := by
  cases up : s.fatal with
  | true => exact .inl ⟨_, exec_faulted up nofun⟩
  | false =>
    by_cases outside : s.params.inCap < s.inLen.toNat ∨ s.inLen.toNat < s.inPos.toNat
    · exact .inl ⟨_, exec_decode_cursorRange up outside⟩
    · obtain ⟨cap, cursor⟩ : s.inLen.toNat ≤ s.params.inCap ∧ s.inPos.toNat ≤ s.inLen.toNat := by omega
      cases ended : decodeLoop s (s.inLen.toNat - s.inPos.toNat) s.inPos.toNat s.params.root with
      | truncated => exact .inl ⟨_, exec_decode_truncated up cap cursor ended⟩
      | broken => exact .inl ⟨_, exec_decode_broken up cap cursor ended⟩
      | unwritten j => exact .inr ⟨j, exec_decode_unwritten up cap cursor ended⟩
      | leaf n p =>
        by_cases sentinel : n = s.params.eofSym
        · exact .inl ⟨_, exec_decode_eof up cap cursor (sentinel ▸ ended)⟩
        · exact .inl ⟨_, exec_decode_leaf up cap cursor ended sentinel⟩

/-- DECODE of input that begins with the sentinel's codeword reports the end of the stream. -/
theorem State.Inv.exec_decode_sentinel {s : State} (inv : s.Inv) {code : List Bool}
    (found : s.codeOf s.params.eofSym = some code) (cap : s.inLen.toNat ≤ s.params.inCap)
    (fits : s.inPos.toNat + code.length ≤ s.inLen.toNat) (bits : s.inputHas s.inPos.toNat code) :
    exec .decode s = .next s.decodedEof.done :=
  exec_decode_eof inv.noFatal cap (by omega) (inv.decodeLoop_symbol inv.eofSym_lt
    ((inv.codeOf_iff_walk inv.eofSym_lt code).mp found) bits (by omega))

/-- DECODE of input that ends at an internal node is truncated. -/
theorem State.Inv.exec_decode_midPath {s : State} (inv : s.Inv) {path : List Bool} {n : Nat}
    (cap : s.inLen.toNat ≤ s.params.inCap) (ends : s.inPos.toNat + path.length = s.inLen.toNat)
    (bits : s.inputHas s.inPos.toNat path) (walked : walk s.params s.node path = some n)
    (internal : s.params.alphabet ≤ n) :
    exec .decode s = .next (s.decodedTruncated.raise .truncatedStream) := by
  have remaining : s.inLen.toNat - s.inPos.toNat = path.length := by omega
  refine exec_decode_truncated inv.noFatal cap (by omega) ?_
  rw [inv.decodeLoop_internal internal walked bits remaining.ge, remaining, Nat.sub_self, decodeLoop]

/-- DECODE of input that goes on from an internal node with an unwritten bit faults. -/
theorem State.Inv.exec_decode_unwrittenBit {s : State} (inv : s.Inv) {path : List Bool} {n : Nat}
    (cap : s.inLen.toNat ≤ s.params.inCap) (more : s.inPos.toNat + path.length < s.inLen.toNat)
    (bits : s.inputHas s.inPos.toNat path) (walked : walk s.params s.node path = some n)
    (internal : s.params.alphabet ≤ n) (missing : s.inBit (s.inPos.toNat + path.length) = none) :
    exec .decode s = .fault (.unwrittenInBits ((s.inPos.toNat + path.length) / 32)) := by
  obtain ⟨k, remaining⟩ : ∃ k, s.inLen.toNat - s.inPos.toNat - path.length = k + 1 :=
    Nat.exists_eq_add_one.mpr (by omega)
  refine exec_decode_unwritten inv.noFatal cap (by omega) ?_
  rw [inv.decodeLoop_internal internal walked bits (by omega), remaining, decodeLoop, missing]

/-- A loop that ends at a leaf consumed exactly the leaf's codeword (43_decoder.md R171). -/
theorem State.Inv.decodeLoop_consumed {s : State} (inv : s.Inv) {remaining pos n p : Nat}
    (found : decodeLoop s remaining pos s.params.root = .leaf n p) :
    ∃ code, s.codeOf n = some code ∧ s.inputHas pos code ∧ p = pos + code.length ∧
      code.length ≤ min remaining s.params.maxLen := by
  have ends := inv.decodeLoop_cases remaining pos
  rw [found] at ends
  obtain ⟨inRange, code, walked, past, short, bits⟩ := ends
  have codeFound := (inv.codeOf_iff_walk inRange code).mpr walked
  exact ⟨code, codeFound, bits, past, le_min short (inv.codeOf_length inRange codeFound)⟩

/-- A loop that runs out of input has walked all of it, which no walk of more than MAXLEN bits does. -/
theorem State.Inv.decodeLoop_truncated_le {s : State} (inv : s.Inv) {remaining pos : Nat}
    (ended : decodeLoop s remaining pos s.params.root = .truncated) : remaining ≤ s.params.maxLen := by
  have ends := inv.decodeLoop_cases remaining pos
  rw [ended] at ends
  obtain ⟨path, n, rfl, walked, -⟩ := ends
  rw [inv.tree] at walked
  exact walk_length_le inv.freqLength inv.legal.1 walked

/-- TruncatedStream is reported by the one effect that writes the cursor and RESULT_KIND beside ERR. -/
theorem decode_truncated_eq {s t : State} (executed : exec .decode s = .next t) (err : t.err = .truncatedStream) :
    s.fatal = false ∧ t = s.decodedTruncated.raise .truncatedStream := by
  cases exec_effect executed with
  | decodeTruncated up _ _ _ => exact ⟨up, rfl⟩
  | raised _ e listed =>
    have plain : ErrCode.truncatedStream ∈ plainErrorsOf .decode := err ▸ listed
    simp [plainErrorsOf] at plain
  | _ => cases err

/-- A DECODE that succeeds reached a leaf, the sentinel's or another one. -/
theorem decode_ok_cases {s t : State} (executed : exec .decode s = .next t) (ok : t.err = .ok) :
    s.inLen.toNat ≤ s.params.inCap ∧ s.inPos.toNat ≤ s.inLen.toNat ∧ ∃ n p,
      decodeLoop s (s.inLen.toNat - s.inPos.toNat) s.inPos.toNat s.params.root = .leaf n p ∧
      ((n ≠ s.params.eofSym ∧ t = (s.decodedSymbol n p).done) ∨ (n = s.params.eofSym ∧ t = s.decodedEof.done)) := by
  cases exec_effect executed with
  | decodeSymbol n p _ cap cursor found data => exact ⟨cap, cursor, n, p, found, .inl ⟨data, rfl⟩⟩
  | decodeEof p _ cap cursor found => exact ⟨cap, cursor, _, p, found, .inr ⟨rfl, rfl⟩⟩
  | raised _ e listed =>
    have success : e = .ok := ok
    exact absurd (success ▸ listed) (ok_not_plain .decode)
  | _ => cases ok

/-- What a DECODE that succeeds reports does not depend on ERR, BUSY and RESULT_KIND, which it writes itself. -/
theorem decode_ok_of_agree {s u v : State} (upU : u.fatal = false)
    (same : u = { s with err := u.err, engine := u.engine, resultKind := u.resultKind })
    (executed : exec .decode s = .next v) (ok : v.err = .ok) : exec .decode u = .next v := by
  rw [same] at upU ⊢
  have loop := decodeLoop_congr (s := { s with err := u.err, engine := u.engine, resultKind := u.resultKind }) (u := s)
    rfl (s.inLen.toNat - s.inPos.toNat) s.inPos.toNat s.params.root fun _ _ _ => rfl
  obtain ⟨cap, cursor, n, p, found, ⟨data, rfl⟩ | ⟨rfl, rfl⟩⟩ := decode_ok_cases executed ok
  · exact exec_decode_leaf upU cap cursor (loop.trans found) data
  · exact exec_decode_eof upU cap cursor (loop.trans found)

end Sys2Proof.Machine
end

section
/-! PROOFS. The stream protocol (42_encoder.md R154, 43_decoder.md R172, R173): the encoder's side makes the codewords of
the successive trees, and the decoder's side, which counts the same symbols, reads them back. -/

namespace Sys2Proof.Machine

/-- The bits of a stream: each symbol's codeword in the tree of the table before it, then the sentinel's
(42_encoder.md R154). -/
def streamCode (p : Params) : List Count → List Nat → List Bool
  | freq, [] => codewordOf p freq p.eofSym
  | freq, sym :: syms =>
    codewordOf p freq sym ++ streamCode p (freq.set sym (freq.getD sym 0#32 + 1#32)) syms

/-- The bits of a stream depend on the first table and `A` alone. -/
theorem streamCode_congr {p q : Params} (same : p.alphabet = q.alphabet) (freq : List Count) (syms : List Nat) :
    streamCode p freq syms = streamCode q freq syms := by
  have codes (freq : List Count) (sym : Nat) : codewordOf p freq sym = codewordOf q freq sym := by
    rw [codewordOf, codewordOf, pathTo_congr same]
  induction syms generalizing freq with
  | nil => rw [streamCode, streamCode, codes, Params.eofSym, Params.eofSym, same]
  | cons sym syms ih => rw [streamCode, streamCode, codes, ih]

/-- Under the invariant a symbol's codeword is that of the frequency table. -/
theorem State.Inv.codeOf_eq {s : State} (inv : s.Inv) {sym : Nat} (inRange : sym < s.params.alphabet) :
    s.codeOf sym = some (codewordOf s.params s.freq sym) := by
  rw [State.codeOf, inv.tree]
  exact pathTo_eq_codewordOf inv.freqLength inv.legal.1 inRange

/-- The counts have room for a stream: none of its symbols would be counted past the top (40_frequency.md R104). -/
abbrev State.roomFor (s : State) (syms : List Nat) : Prop :=
  ∀ x ∈ syms, (s.countOf x).toNat + syms.count x < 2 ^ 32

/-- A table with room for a stream has room to count its first symbol. -/
theorem State.roomFor_head {s : State} {sym : Nat} {syms : List Nat} (room : s.roomFor (sym :: syms)) :
    s.countOf sym ≠ 0xFFFFFFFF#32 := by
  have first := room sym List.mem_cons_self
  rw [List.count_cons_self] at first
  bv_omega

/-- Once its first symbol is counted, it has room for the rest. -/
theorem State.roomFor_tail {s : State} {sym : Nat} {syms : List Nat} (entry : sym < s.freq.length)
    (room : s.roomFor (sym :: syms)) : (s.count sym).roomFor syms := by
  intro x member
  have here := room x (List.mem_cons_of_mem sym member)
  have bound := (countOf_count_bounds entry (State.roomFor_head room) x).2
  by_cases same : x = sym
  · rw [same, List.count_cons_self] at here
    rw [same] at bound ⊢
    omega
  · rw [List.count_cons_of_ne (Ne.symm same)] at here
    rwa [countOf_count_other s same]

/-- A table of initial counts has room for every stream in which no symbol occurs too often. -/
theorem State.roomFor_initial {s : State} (initial : s.freq = initialFreq s.params) {syms : List Nat}
    (data : ∀ x ∈ syms, x < s.params.eofSym) (few : ∀ x ∈ syms, syms.count x < 2 ^ 32 - 1) : s.roomFor syms := by
  intro x member
  rw [State.countOf, initial, initialFreq_data (data x member)]
  have := few x member
  simp only [BitVec.toNat_ofNat]
  omega

/-- A command line `EOFCODE` leaves the sentinel's codeword in the buffer. -/
theorem State.Inv.issue_eofcode {s : State} (inv : s.Inv) (idle : s.busy = false) :
    ∃ t, issue .eofcode s = .next t ∧ t.codeword = codewordOf s.params s.freq s.params.eofSym := by
  have found := inv.codeOf_eq inv.eofSym_lt
  obtain ⟨-, buffer, -⟩ := (inv.accepted .eofcode).emit_done_buffer (inv.codeOf_length inv.eofSym_lt found)
  exact ⟨_, (issue_eq_exec trivial idle).trans (exec_eofcode_found inv.noFatal found), buffer⟩

theorem State.Inv.afterObserve {s : State} (inv : s.Inv) {sym : Nat} (data : sym ≠ s.params.eofSym) :
    (s.afterObserve sym).Inv :=
  ((inv.accepted (.observe sym)).count data).done

/-- The state after `ENCOBS sym` (30_encoding.md R78). -/
def State.afterEncobs (s : State) (sym : Nat) : State :=
  (s.afterEncode sym (codewordOf s.params s.freq sym)).afterObserve sym

/-- `ENCOBS` of a data symbol whose count has room leaves its codeword in the buffer and keeps the invariant. -/
theorem State.Inv.encobs_afterEncobs {s : State} (inv : s.Inv) (idle : s.busy = false) {sym : Nat}
    (data : sym < s.params.eofSym) (room : s.countOf sym ≠ 0xFFFFFFFF#32) :
    encobs sym s = .next (s.afterEncobs sym) ∧ (s.afterEncobs sym).Inv ∧
      (s.afterEncobs sym).codeword = codewordOf s.params s.freq sym := by
  have inRange := lt_alphabet_of_lt_eofSym data
  have found := inv.codeOf_eq inRange
  have fits := inv.codeOf_length inRange found
  exact ⟨inv.encobs_eq idle data room found, (inv.afterEncode fits).afterObserve data.ne,
    inv.afterEncode_codeword (sym := sym) fits⟩

/-- The state after a `DECOBS` that returned `sym` (30_encoding.md R78). -/
def State.afterDecobs (s : State) (sym : Nat) : State :=
  (s.afterDecode sym (s.inPos.toNat + (codewordOf s.params s.freq sym).length)).afterObserve sym

/-- `DECOBS` on input that begins with the codeword of a data symbol whose count has room returns the symbol, leaves the
cursor past the codeword and keeps the invariant. -/
theorem State.Inv.decobs_afterDecobs {s : State} (inv : s.Inv) (idle : s.busy = false) {sym : Nat}
    (data : sym < s.params.eofSym) (room : s.countOf sym ≠ 0xFFFFFFFF#32) (cap : s.inLen.toNat ≤ s.params.inCap)
    (fits : s.inPos.toNat + (codewordOf s.params s.freq sym).length ≤ s.inLen.toNat)
    (bits : s.inputHas s.inPos.toNat (codewordOf s.params s.freq sym)) :
    decobs s = .next (s.afterDecobs sym) ∧ (s.afterDecobs sym).Inv ∧ (s.afterDecobs sym).resultSym.toNat = sym ∧
      (s.afterDecobs sym).inPos.toNat = s.inPos.toNat + (codewordOf s.params s.freq sym).length := by
  have inRange := lt_alphabet_of_lt_eofSym data
  exact ⟨inv.decobs_eq idle data room (inv.codeOf_eq inRange) cap fits bits,
    (inv.afterDecode inRange).afterObserve data.ne, Nat.mod_eq_of_lt (inRange.trans_le inv.legal.2.1),
    Nat.mod_eq_of_lt (fits.trans_lt s.inLen.isLt)⟩

/-- One symbol encoded by `ENCOBS`, and the rest of the stream after it. -/
theorem encodeStream_cons {s t u : State} {sym : Nat} {syms : List Nat} {bits : List Bool}
    (encoded : encobs sym s = .next t) (rest : encodeStream syms t = some (bits, u)) :
    encodeStream (sym :: syms) s = some (t.codeword ++ bits, u) := by
  rw [encodeStream, encoded]
  simp only [rest]

/-- The encoder's protocol makes the bits of the stream. -/
theorem State.Inv.encodeStream_eq {s : State} (inv : s.Inv) (idle : s.busy = false) {syms : List Nat}
    (data : ∀ x ∈ syms, x < s.params.eofSym) (room : s.roomFor syms) :
    ∃ t, encodeStream syms s = some (streamCode s.params s.freq syms, t) := by
  induction syms generalizing s with
  | nil =>
    obtain ⟨t, issued, buffer⟩ := inv.issue_eofcode idle
    exact ⟨t, by rw [encodeStream, issued, streamCode, ← buffer]⟩
  | cons sym syms ih =>
    obtain ⟨dataSym, dataRest⟩ := List.forall_mem_cons.mp data
    obtain ⟨encoded, counted, buffer⟩ := inv.encobs_afterEncobs idle dataSym (State.roomFor_head room)
    have entry : sym < s.freq.length := inv.freqLength ▸ lt_alphabet_of_lt_eofSym dataSym
    obtain ⟨t, rest⟩ := ih counted rfl dataRest (State.roomFor_tail entry room)
    exact ⟨t, by rw [encodeStream_cons encoded rest, buffer]; rfl⟩

/-- Input that holds two bit sequences in a row holds the first, and past it the second. -/
theorem State.inputHas_append {s : State} {pos : Nat} {code rest : List Bool} (bits : s.inputHas pos (code ++ rest)) :
    s.inputHas pos code ∧ s.inputHas (pos + code.length) rest := by
  constructor
  · intro i inside
    rw [bits i (by rw [List.length_append]; omega), List.getElem_append_left inside]
  · intro i inside
    have past := bits (code.length + i) (by rw [List.length_append]; omega)
    rw [List.getElem_append_right (Nat.le_add_right ..)] at past
    simpa only [Nat.add_assoc, Nat.add_sub_cancel_left] using past

/-- One symbol returned by `DECOBS`, and the rest of the stream after it. -/
theorem decodeSymbols_succ {s t u : State} {count : Nat} {syms : List Nat} (decoded : decobs s = .next t)
    (kind : t.resultKind = .symbol) (rest : decodeSymbols count t = some (syms, u)) :
    decodeSymbols (count + 1) s = some (t.resultSym.toNat :: syms, u) := by
  rw [decodeSymbols, decoded]
  simp only [kind, rest, if_true]

/-- On input that is the bits of a stream from the cursor to its end, the decoder's protocol returns the stream, and the
DECODE after it reports the end. -/
theorem State.Inv.decodeSymbols_eq {s : State} (inv : s.Inv) (idle : s.busy = false) {syms : List Nat}
    (data : ∀ x ∈ syms, x < s.params.eofSym) (room : s.roomFor syms) (cap : s.inLen.toNat ≤ s.params.inCap)
    (length : s.inPos.toNat + (streamCode s.params s.freq syms).length = s.inLen.toNat)
    (bits : s.inputHas s.inPos.toNat (streamCode s.params s.freq syms)) :
    ∃ t u, decodeSymbols syms.length s = some (syms, t) ∧ issue .decode t = .next u ∧
      u.resultKind = .endOfStream ∧ u.inPos = s.inLen := by
  induction syms generalizing s with
  | nil =>
    have ended := (inv.accepted .decode).exec_decode_sentinel (inv.codeOf_eq inv.eofSym_lt) cap length.le bits
    exact ⟨s, _, rfl, (issue_eq_exec trivial idle).trans ended, rfl, rfl⟩
  | cons sym syms ih =>
    obtain ⟨dataSym, dataRest⟩ := List.forall_mem_cons.mp data
    have entry : sym < s.freq.length := inv.freqLength ▸ lt_alphabet_of_lt_eofSym dataSym
    rw [streamCode, List.length_append, ← Nat.add_assoc] at length
    obtain ⟨first, past⟩ := State.inputHas_append bits
    obtain ⟨decoded, counted, result, cursor⟩ := inv.decobs_afterDecobs idle dataSym (State.roomFor_head room) cap
      (by omega) first
    rw [← cursor] at length past
    obtain ⟨t, u, rest, last⟩ := ih counted rfl dataRest (State.roomFor_tail entry room) cap length past
    have stream := decodeSymbols_succ decoded rfl rest
    rw [result] at stream
    exact ⟨t, u, stream, last⟩

end Sys2Proof.Machine
end

section
/-! PROOFS. The statements of 43_decoder.md. -/

namespace Sys2Proof

open Machine

/-- Settles O33: the loop follows the path that the input spells, to a leaf, to the end of the input or to an unwritten
bit, and each end has its own writes. -/
theorem decodeOutcomes : Obligations.DecodeOutcomes := by
  unfold Obligations.DecodeOutcomes
  refine ⟨fun _ => decodeCmd_ok_iff_word trivial (by decide), fun s up outside => exec_decode_cursorRange up outside,
    fun s up cap empty => ?_, fun s code sym inv cap fits bits walked data => ?_,
    fun s code inv cap fits bits walked => ?_,
    fun s path n inv cap ends bits walked internal => inv.exec_decode_midPath cap ends bits walked internal,
    fun s path n inv cap more bits walked internal missing =>
      inv.exec_decode_unwrittenBit cap more bits walked internal missing⟩
  · have ended : decodeLoop s (s.inLen.toNat - s.inPos.toNat) s.inPos.toNat s.params.root = .truncated := by
      rw [empty, Nat.sub_self, decodeLoop]
    rw [exec_decode_truncated up cap (empty ▸ le_rfl) ended, State.decodedTruncated, ← empty]
    rfl
  · exact inv.exec_decode_symbol data ((inv.codeOf_iff_walk (lt_alphabet_of_lt_eofSym data) code).mpr walked) cap fits
      bits
  · exact inv.exec_decode_sentinel ((inv.codeOf_iff_walk inv.eofSym_lt code).mpr walked) cap fits bits

/-- Settles O34: the loop's end at a leaf is the end of the leaf's codeword, and no walk is longer than MAXLEN. -/
theorem decodeConsumesOneCodeword : Obligations.DecodeConsumesOneCodeword := by
  unfold Obligations.DecodeConsumesOneCodeword
  refine ⟨fun s t inv executed ok kind => ?_, fun s n p inv found => ?_,
    fun s inv ended => inv.decodeLoop_truncated_le ended, exec_decode_ends⟩
  · obtain ⟨-, cursor, n, p, found, ⟨-, rfl⟩ | ⟨-, rfl⟩⟩ := decode_ok_cases executed ok
    case inr => cases kind
    obtain ⟨code, codeFound, bits, rfl, short⟩ := inv.decodeLoop_consumed found
    have inRange := (inv.decodeLoop_leaf_lt found).trans_le inv.legal.2.1
    have symbol : (BitVec.ofNat 16 n).toNat = n := Nat.mod_eq_of_lt inRange
    have past : (BitVec.ofNat 32 (s.inPos.toNat + code.length)).toNat = s.inPos.toNat + code.length :=
      Nat.mod_eq_of_lt (by omega)
    exact ⟨code, symbol.symm ▸ codeFound, bits, past, short⟩
  · obtain ⟨code, -, -, rfl, short⟩ := inv.decodeLoop_consumed found
    rwa [Nat.add_sub_cancel_left]

/-- Settles O35: a truncated DECODE leaves the tree and the parameters, and the fields it wrote beside the cursor are
written again by a DECODE that succeeds. -/
theorem truncatedKeepsNoPartialPath : Obligations.TruncatedKeepsNoPartialPath := by
  unfold Obligations.TruncatedKeepsNoPartialPath
  intro s t v len mem executed err again ok
  obtain ⟨up, rfl⟩ := decode_truncated_eq executed err
  exact ⟨rfl, decode_ok_of_agree up rfl again ok⟩

/-- Settles O36: encoder and decoder go through the same tables, so the decoder reads in each tree the codeword that the
encoder took from it. -/
theorem roundTripRestoresTheStream : Obligations.RoundTripRestoresTheStream := by
  unfold Obligations.RoundTripRestoresTheStream
  intro e syms inv idle initial data few
  obtain ⟨e', encoded⟩ := inv.encodeStream_eq idle data (State.roomFor_initial initial data few)
  refine ⟨_, e', encoded, fun d invD idleD alphabet weight initialD start length cap bits => ?_⟩
  have eof : d.params.eofSym = e.params.eofSym := by rw [Params.eofSym, Params.eofSym, alphabet]
  have tables : d.freq = e.freq := by rw [initialD, initial, initialFreq, initialFreq, eof, weight]
  have cursor : d.inPos.toNat = 0 := by rw [start]; rfl
  have stream : streamCode d.params d.freq syms = streamCode e.params e.freq syms := by
    rw [tables, streamCode_congr alphabet]
  have dataD : ∀ x ∈ syms, x < d.params.eofSym := fun x member => eof ▸ data x member
  obtain ⟨d', d'', decoded, issued, kind, past⟩ := invD.decodeSymbols_eq idleD dataD
    (State.roomFor_initial initialD dataD few) (length ▸ cap) (by rw [cursor, stream, length, Nat.zero_add])
    (by rw [cursor, stream]; exact bits)
  exact ⟨d', d'', decoded, issued, kind, past ▸ length⟩

end Sys2Proof
end

section
/-! PROOFS. How a command ends with an error, and which ends write FATAL (60_exceptions.md R201–R204). -/

namespace Sys2Proof.Machine

/-- An error that writes ERR alone is neither NotFound nor TruncatedStream, and it is InvalidPath for VALUEAT only
(60_exceptions.md R201). -/
theorem plainErrorsOf_kinds {i : Instr} {e : ErrCode} (listed : e ∈ plainErrorsOf i) :
    e ≠ .notFound ∧ e ≠ .truncatedStream ∧ (e = .invalidPath → i = .valueat) := by
  cases i <;> revert e <;> simp [plainErrorsOf]

/-- Every recoverable error of a command stands in its row of the table of outcomes (60_exceptions.md R202). -/
theorem plainErrorsOf_subset_outcomesOf (i : Instr) : plainErrorsOf i ⊆ outcomesOf i := by
  cases i <;> simp [plainErrorsOf, outcomesOf]

/-- A command ends with one of its outcomes (60_exceptions.md R202). -/
theorem Effect.err_mem_outcomesOf {s t : State} {i : Instr} (e : Effect s i t) : t.err ∈ outcomesOf i := by
  cases e with
  | raised _ _ listed => exact plainErrorsOf_subset_outcomesOf i listed
  | _ => simp [outcomesOf]

/-- The four ways a command ends with an error: a plain one, the two fatal ones, and TruncatedStream. -/
theorem Effect.error_cases {s t : State} {i : Instr} (e : Effect s i t) (error : t.err ≠ .ok) :
    (∃ c ∈ plainErrorsOf i, t = s.raise c) ∨
    ((i = .eofcode ∨ ∃ sym, i = .encode sym) ∧ t = s.raiseFatal .notFound) ∨
    (i = .decode ∧ t = s.raiseFatal .invalidPath) ∨
    (i = .decode ∧ t = s.decodedTruncated.raise .truncatedStream) := by
  cases e with
  | raised _ c listed => exact .inl ⟨c, listed, rfl⟩
  | encodeLost sym _ _ _ => exact .inr (.inl ⟨.inr ⟨sym, rfl⟩, rfl⟩)
  | eofcodeLost _ _ => exact .inr (.inl ⟨.inl rfl, rfl⟩)
  | decodeBroken _ _ _ _ => exact .inr (.inr (.inl ⟨rfl, rfl⟩))
  | decodeTruncated _ _ _ _ => exact .inr (.inr (.inr ⟨rfl, rfl⟩))
  | _ => exact absurd rfl error

/-- A command leaves FATAL, or ends with a fatal error, or is INIT, which clears it (60_exceptions.md R203). -/
theorem Effect.fatal_cases {s t : State} {i : Instr} (e : Effect s i t) :
    t.fatal = s.fatal ∨
    (t.fatal = true ∧
      ((t.err = .notFound ∧ (i = .eofcode ∨ ∃ sym, i = .encode sym)) ∨ (t.err = .invalidPath ∧ i = .decode))) ∨
    (t.fatal = false ∧ i = .init) := by
  cases e with
  | init => exact .inr (.inr ⟨rfl, rfl⟩)
  | encodeLost sym _ _ _ => exact .inr (.inl ⟨rfl, .inl ⟨rfl, .inr ⟨sym, rfl⟩⟩⟩)
  | eofcodeLost _ _ => exact .inr (.inl ⟨rfl, .inl ⟨rfl, .inl rfl⟩⟩)
  | decodeBroken _ _ _ _ => exact .inr (.inl ⟨rfl, .inr ⟨rfl, rfl⟩⟩)
  | _ => exact .inl rfl

/-- Of the host's accesses only a reset writes FATAL (70_reset_and_hazards.md R231). -/
theorem hostAccess_fatal {a : HostAccess} {s t : State} (taken : hostAccess a s = .next t) :
    t.fatal = s.fatal ∨ (t.fatal = false ∧ a = .reset) := by
  rcases hostAccess_next taken with ⟨rfl, rfl⟩ | ⟨_, -, -, rfl⟩ | ⟨_, _, -, -, -, rfl⟩
  · exact .inr ⟨rfl, rfl⟩
  · exact .inl (s.answerRead_fatal _)
  · exact .inl (s.acceptWrite_fatal _ _)

/-- A step leaves FATAL, or runs a command that ends with a fatal error, or clears FATAL by INIT, the reset build or a
reset (60_exceptions.md R203). -/
theorem step_fatal_cases {s t : State} (stepped : step s = .next t) :
    t.fatal = s.fatal ∨
    (t.fatal = true ∧ s.engine = .command ∧ ∃ i, decodeCmd s.cmd = .ok i ∧ exec i s = .next t ∧
      ((t.err = .notFound ∧ (i = .eofcode ∨ ∃ sym, i = .encode sym)) ∨ (t.err = .invalidPath ∧ i = .decode))) ∨
    (t.fatal = false ∧ ((s.engine = .command ∧ decodeCmd s.cmd = .ok .init) ∨ s.engine = .resetBuild ∨
      ∃ h later, s.host = h :: later ∧ h.access = .reset)) := by
  rcases step_next stepped with ⟨-, -, rfl⟩ | ⟨command, ran⟩ | ⟨build, rfl⟩ | ⟨h, later, pending, taken⟩
  · exact .inl rfl
  · rcases runCommand_next ran with ⟨_, -, rfl⟩ | ⟨i, decoded, executed⟩
    · exact .inl rfl
    · rcases (exec_effect executed).fatal_cases with same | ⟨down, cause⟩ | ⟨up, rfl⟩
      · exact .inl same
      · exact .inr (.inl ⟨down, command, i, decoded, executed, cause⟩)
      · exact .inr (.inr ⟨up, .inl ⟨command, decoded⟩⟩)
  · exact .inr (.inr ⟨rfl, .inr (.inl build)⟩)
  · rcases hostAccess_fatal taken with same | ⟨up, reset⟩
    · exact .inl same
    · exact .inr (.inr ⟨up, .inr (.inr ⟨h, later, pending, reset⟩)⟩)

/-- ENCODE of a symbol that has no codeword is the fatal NotFound (60_exceptions.md R203). -/
theorem exec_encode_lost {s : State} {sym : Nat} (up : s.fatal = false) (inRange : sym < s.params.alphabet)
    (lost : s.codeOf sym = none) : exec (.encode sym) s = .next (s.raiseFatal .notFound) := by
  rw [exec, execEncode, unlessFaulted_up up, if_neg (Nat.not_le.mpr inRange), emitCode, lost]

/-- EOFCODE where the sentinel has no codeword is the fatal NotFound (60_exceptions.md R203). -/
theorem exec_eofcode_lost {s : State} (up : s.fatal = false) (lost : s.codeOf s.params.eofSym = none) :
    exec .eofcode s = .next (s.raiseFatal .notFound) := by
  rw [exec, execEofcode, unlessFaulted_up up, emitCode, lost]

end Sys2Proof.Machine
end

section
/-! PROOFS. What wakes an idle instance (60_exceptions.md R212). -/

namespace Sys2Proof.Machine

/-- BUSY depends on the engine alone (10_state.md R23). -/
theorem busy_congr {s t : State} (same : t.engine = s.engine) : t.busy = s.busy := by
  rw [State.busy, same, State.busy]

/-- BUSY = 0 is the idle engine (10_state.md R23). -/
theorem engine_of_not_busy {s : State} (idle : s.busy = false) : s.engine = .idle := by
  cases here : s.engine with
  | idle => rfl
  | command | resetBuild => simp [State.busy, here] at idle

/-- Idle with nothing from the host, a step changes nothing. -/
theorem step_idle_none {s : State} (idle : s.busy = false) (quiet : s.host = []) : step s = .next s := by
  rw [step, agentStep, quiet]
  show engineStep s = .next s
  rw [engineStep, engine_of_not_busy idle]

/-- The one aligned offset at which CMD stands is its own (10_state.md R21). -/
theorem offset_eq_of_locate_cmd {p : Params} {a : Offset} (aligned : a.toNat % 4 = 0)
    (here : locate p a = .register .cmd) : a = Register.cmd.offset := by
  have low : a.toNat < 0x48 := by
    by_contra high
    rw [locate, if_neg high] at here
    split_ifs at here
  obtain ⟨r, rfl, there⟩ := locate_register p low aligned
  obtain rfl : r = .cmd := Location.register.inj (there.symm.trans here)
  rfl

/-- A write anywhere but at CMD leaves the engine (20_memory.md R54). -/
theorem State.acceptWrite_engine_of_ne_cmd (s : State) {l : Location} (w : Word) (other : l ≠ .register .cmd) :
    (s.acceptWrite l w).engine = s.engine := by
  cases l with
  | register r =>
    cases r with
    | cmd => exact absurd rfl other
    | _ => rfl
  | _ => rfl

/-- A host access after which an idle instance is busy is a reset or the write of CMD. -/
theorem hostAccess_wakes {a : HostAccess} {s t : State} (idle : s.busy = false) (taken : hostAccess a s = .next t)
    (woken : t.busy = true) : a = .reset ∨ ∃ w, a = .write 4 Register.cmd.offset w ∧ t.cmd = w := by
  have asleep (same : t.engine = s.engine) : False := by simp [busy_congr same, idle] at woken
  rcases hostAccess_next taken with ⟨reset, -⟩ | ⟨_, -, -, rfl⟩ | ⟨offset, w, rfl, aligned, -, rfl⟩
  · exact .inl reset
  · exact (asleep (s.answerRead_engine _)).elim
  · by_cases here : locate s.params offset = .register .cmd
    · exact .inr ⟨w, by rw [offset_eq_of_locate_cmd aligned here], by rw [here]; rfl⟩
    · exact (asleep (s.acceptWrite_engine_of_ne_cmd w here)).elim

end Sys2Proof.Machine
end

section
/-! PROOFS. What a move of a platform does, and that what becomes of one instance depends on it and on the bases alone
(60_exceptions.md R215; 20_memory.md R53, R56). -/

namespace Sys2Proof.Machine

/-- A move of an instance that goes on changes that instance alone. -/
theorem onInstance_of_next {k : Nat} {run : PlacedHcc → Result} {sys : Platform} {x : PlacedHcc} {t : State}
    (here : sys[k]? = some x) (moved : run x = .next t) :
    onInstance k run sys = .next (sys.set k { x with state := t }) := by
  simp only [onInstance, here, moved]

/-- A move that an instance refuses is refused. -/
theorem onInstance_of_refused {k : Nat} {run : PlacedHcc → Result} {sys : Platform} {x : PlacedHcc} {e : Refusal}
    (here : sys[k]? = some x) (refused : run x = .refused e) : onInstance k run sys = .refused e := by
  simp only [onInstance, here, refused]

/-- A move of an instance that is not there changes nothing. -/
theorem onInstance_of_none {k : Nat} {run : PlacedHcc → Result} {sys : Platform} (absent : sys[k]? = none) :
    onInstance k run sys = .next sys := by
  simp only [onInstance, absent]

/-- Where the windows do not overlap, the address of an offset in a window reaches that window's instance. -/
theorem atAddress_address {sys : Platform} (apart : sys.apart) {k : Nat} {x : PlacedHcc} (here : sys[k]? = some x)
    (offset : Offset) (run : PlacedHcc → Result) : atAddress (x.address offset) run sys = onInstance k run sys := by
  rw [atAddress, Platform.apart_reaches apart here (x.holds_address offset)]

/-- An address outside every window reaches nothing (log 13). -/
theorem atAddress_outside {sys : Platform} {address : Nat}
    (outside : ∀ x ∈ sys, address < x.base ∨ x.base + 2 ^ 18 ≤ address) (run : PlacedHcc → Result) :
    atAddress address run sys = .next sys := by
  have unreached : sys.findIdx? (·.holds address) = none := by
    refine List.findIdx?_eq_none_iff.mpr fun x member => ?_
    have off := outside x member
    simp only [PlacedHcc.holds, Bool.and_eq_false_iff, decide_eq_false_iff_not]
    omega
  rw [atAddress, unreached]

/-- On two platforms with the same bases an access reaches the same place. -/
theorem atAddress_eq_onInstance {a b : Platform} (bases : a.map PlacedHcc.base = b.map PlacedHcc.base) (address : Nat)
    (run : PlacedHcc → Result) :
    ∃ j, atAddress address run a = onInstance j run a ∧ atAddress address run b = onInstance j run b := by
  have length : a.length = b.length := by simpa using congrArg List.length bases
  rw [atAddress, atAddress, findIdx_holds_of_bases bases]
  cases b.findIdx? (·.holds address) with
  | some j => exact ⟨j, rfl, rfl⟩
  | none =>
    exact ⟨a.length, (onInstance_of_none (List.getElem?_eq_none le_rfl)).symm,
      (onInstance_of_none (List.getElem?_eq_none length.ge)).symm⟩

/-- On two platforms with the same bases a move is the same move of the same instance. -/
theorem platformStep_eq_onInstance {a b : Platform} (bases : a.map PlacedHcc.base = b.map PlacedHcc.base)
    (move : PlatformMove) :
    ∃ j run, platformStep move a = onInstance j run a ∧ platformStep move b = onInstance j run b := by
  cases move with
  | step k => exact ⟨k, fun x => step x.state, rfl, rfl⟩
  | reset k => exact ⟨k, fun x => hostAccess .reset x.state, rfl, rfl⟩
  | read bytes address | write bytes address v =>
    obtain ⟨j, reached⟩ := atAddress_eq_onInstance bases address _
    exact ⟨j, _, reached⟩

/-- A run of several moves is its first move and then the others. -/
theorem platformRun_cons_next {move : PlatformMove} {moves : List PlatformMove} {sys last : Platform}
    (ran : platformRun (move :: moves) sys = .next last) :
    ∃ first, platformStep move sys = .next first ∧ platformRun moves first = .next last := by
  rw [platformRun] at ran
  split at ran
  · exact ⟨_, ‹_›, ran⟩
  · cases ran
  · cases ran

/-- Two platforms with the same bases that agree on an instance agree on it after the same moves, whatever their other
instances are. -/
theorem platformRun_agree {moves : List PlatformMove} {a b a' b' : Platform} {k : Nat}
    (bases : a.map PlacedHcc.base = b.map PlacedHcc.base) (same : a[k]? = b[k]?)
    (ranA : platformRun moves a = .next a') (ranB : platformRun moves b = .next b') : a'[k]? = b'[k]? := by
  induction moves generalizing a b with
  | nil =>
    cases ranA
    cases ranB
    exact same
  | cons move moves ih =>
    obtain ⟨a₁, movedA, restA⟩ := platformRun_cons_next ranA
    obtain ⟨b₁, movedB, restB⟩ := platformRun_cons_next ranB
    obtain ⟨j, run, onA, onB⟩ := platformStep_eq_onInstance bases move
    rw [onA] at movedA
    rw [onB] at movedB
    have basesNow : a₁.map PlacedHcc.base = b₁.map PlacedHcc.base := by
      rw [onInstance_bases movedA, bases, onInstance_bases movedB]
    exact ih basesNow (onInstance_agree same movedA movedB) restA restB

end Sys2Proof.Machine
end

section
/-! PROOFS. The statements of 60_exceptions.md. -/

namespace Sys2Proof

open Machine

/-- Settles O8: with nothing pending the idle machine stays as it is, and otherwise it takes the oldest host step, of
which only a reset and the write of CMD set BUSY. -/
theorem idleKeepsStateUntilWoken : Obligations.IdleKeepsStateUntilWoken := by
  unfold Obligations.IdleKeepsStateUntilWoken
  refine ⟨fun s idle quiet => step_idle_none idle quiet, fun s t idle stepped woken => ?_⟩
  cases pending : s.host with
  | nil =>
    rw [step_idle_none idle pending] at stepped
    cases stepped
    simp [idle] at woken
  | cons h later =>
    rw [step_idle_host idle pending] at stepped
    exact ⟨h, later, rfl, hostAccess_wakes (s := { s with host := later }) idle stepped woken⟩

/-- Settles O10: each check has its own lemma, whose premises are that the checks before it pass. -/
theorem checksInOrder : Obligations.ChecksInOrder := by
  unfold Obligations.ChecksInOrder
  exact ⟨fun _ command waits illegal => step_illegal command waits illegal,
    fun _ _ down other => exec_faulted down other,
    fun _ _ up high => ⟨exec_observe_noSymbol up high, exec_encode_noSymbol up high, exec_getcount_noSymbol up high⟩,
    fun _ up nonempty => exec_observe_eof up (eofSym_lt_alphabet nonempty),
    fun _ _ up inRange data full => exec_observe_full up inRange data full,
    fun _ up long => exec_valueat_long up long,
    fun _ _ up length short bits lost => exec_valueat_lost up short (pathOperand_of_pathHas length bits) lost,
    fun _ up outside => exec_decode_cursorRange up outside,
    fun _ _ _ inv cap ends bits walked internal => inv.exec_decode_midPath cap ends bits walked internal⟩

/-- Settles O11: an error is one of the four ends of `Effect.error_cases`, and a plain one has none of the codes that
write more than ERR. -/
theorem errorsArePrecise : Obligations.ErrorsArePrecise := by
  unfold Obligations.ErrorsArePrecise
  refine ⟨fun i s t executed error => ?_, fun _ command waits illegal => step_illegal command waits illegal⟩
  rcases (exec_effect executed).error_cases error with ⟨c, listed, rfl⟩ | ⟨who, rfl⟩ | ⟨rfl, rfl⟩ | ⟨rfl, rfl⟩
  · obtain ⟨notFound, truncated, invalidPath⟩ := plainErrorsOf_kinds listed
    cases c with
    | notFound => exact absurd rfl notFound
    | truncatedStream => exact absurd rfl truncated
    | invalidPath => exact .inr ⟨invalidPath rfl, rfl⟩
    | _ => rfl
  · exact ⟨who, rfl⟩
  · exact .inl ⟨rfl, rfl⟩
  · exact ⟨rfl, rfl⟩

/-- Settles O12: each effect of a command writes an outcome of its row, and a fatal one would break the invariant that
every command keeps. -/
theorem outcomesOfEachCommand : Obligations.OutcomesOfEachCommand := by
  unfold Obligations.OutcomesOfEachCommand
  refine ⟨fun i s t executed => (exec_effect executed).err_mem_outcomesOf, fun i s t inv executed => ?_,
    fun s t command waits illegal stepped => ?_, fun i s down other => ⟨_, exec_faulted down other, rfl⟩⟩
  · have effect := exec_effect executed
    have up : t.fatal = false := (inv.effect effect).noFatal
    by_cases error : t.err = .ok
    · simp [error]
    rcases effect.error_cases error with ⟨c, listed, rfl⟩ | ⟨-, rfl⟩ | ⟨-, rfl⟩ | ⟨-, rfl⟩
    · obtain ⟨notFound, -, invalidPath⟩ := plainErrorsOf_kinds listed
      refine ⟨notFound, fun decode broken => ?_⟩
      cases decode.symm.trans (invalidPath broken)
    · cases up
    · cases up
    · exact ⟨nofun, nofun⟩
  · rw [step_illegal command waits illegal] at stepped
    cases stepped
    rfl

/-- Settles O13: a step that changes FATAL is one of the two kinds of `step_fatal_cases`. -/
theorem fatalSetAndCleared : Obligations.FatalSetAndCleared := by
  unfold Obligations.FatalSetAndCleared
  refine ⟨fun s t stepped up down => ?_, fun _ _ up inRange lost => exec_encode_lost up inRange lost,
    fun _ up lost => exec_eofcode_lost up lost,
    fun _ up cap cursor broken => exec_decode_broken up cap cursor broken, fun s t stepped down up => ?_⟩
  · rcases step_fatal_cases stepped with same | ⟨-, cause⟩ | ⟨cleared, -⟩
    · simp [same, up] at down
    · exact cause
    · simp [cleared] at down
  · rcases step_fatal_cases stepped with same | ⟨raised, -⟩ | ⟨-, cause⟩
    · simp [same, down] at up
    · simp [raised] at up
    · exact cause

/-- Settles O46: a move is a move of one instance, found by the bases alone, and leaves the others. -/
theorem instancesShareNothing : Obligations.InstancesShareNothing := by
  unfold Obligations.InstancesShareNothing
  refine ⟨fun sys k x t here moved => onInstance_of_next here moved, fun sys k x here =>
      onInstance_of_next (run := fun x => hostAccess .reset x.state) here rfl,
    fun sys k bytes x offset v t apart here => ⟨fun read => ?_, fun written => ?_, fun busy aligned => ?_⟩,
    fun sys bytes address v outside => ⟨atAddress_outside outside _, atAddress_outside outside _⟩,
    fun moves a b a' b' k bases same ranA ranB => platformRun_agree bases same ranA ranB⟩
  · rw [platformStep, atAddress_address apart here]
    exact onInstance_of_next here (by rw [x.offsetOf_address, read])
  · rw [platformStep, atAddress_address apart here]
    exact onInstance_of_next here (by rw [x.offsetOf_address, written])
  · rw [platformStep, atAddress_address apart here]
    exact onInstance_of_refused here (by rw [x.offsetOf_address, hostAccess_write_busy busy aligned])

end Sys2Proof
end

section
/-! PROOFS. What a command that ends leaves unchanged, register by register (70_reset_and_hazards.md R235, 60_exceptions.md
R201, 20_memory.md R55). -/

namespace Sys2Proof.Machine

variable {s t : State} {i : Instr}

/-- No command writes an input of HCC: the parameters, the lengths the host sets, the bit buffers and the bus. -/
theorem Effect.inputs_kept (e : Effect s i t) :
    t.params = s.params ∧ t.pathLen = s.pathLen ∧ t.inLen = s.inLen ∧ t.mem = s.mem ∧
      t.host = s.host ∧ t.reply = s.reply ∧ t.fresh = s.fresh := by
  cases e <;> exact ⟨rfl, rfl, rfl, rfl, rfl, rfl, rfl⟩

/-- The cursor and the decoder's results are DECODE's (43_decoder.md R170). -/
theorem Effect.decoder_kept (e : Effect s i t) (other : i ≠ .decode) :
    t.inPos = s.inPos ∧ t.resultKind = s.resultKind ∧ t.resultSym = s.resultSym := by
  cases e with
  | decodeSymbol | decodeEof | decodeTruncated => exact absurd rfl other
  | _ => exact ⟨rfl, rfl, rfl⟩

/-- COUNT_OUT is GETCOUNT's (40_frequency.md R103). -/
theorem Effect.countOut_kept (e : Effect s i t) (other : ∀ sym, i ≠ .getcount sym) : t.countOut = s.countOut := by
  cases e with
  | getcount sym => exact absurd rfl (other sym)
  | _ => rfl

/-- The codeword buffer is ENCODE's and EOFCODE's (42_encoder.md R150, R151). -/
theorem Effect.code_kept (e : Effect s i t) (notEofcode : i ≠ .eofcode) (notEncode : ∀ sym, i ≠ .encode sym) :
    t.codeLen = s.codeLen ∧ t.codeBits = s.codeBits := by
  cases e with
  | encode sym => exact absurd rfl (notEncode sym)
  | eofcode => exact absurd rfl notEofcode
  | _ => exact ⟨rfl, rfl⟩

/-- The VAL_* registers are VALUEAT's (41_tree.md R129). -/
theorem Effect.val_kept (e : Effect s i t) (other : i ≠ .valueat) :
    t.valKey = s.valKey ∧ t.valKind = s.valKind ∧ t.valDepth = s.valDepth ∧
      t.valWeightLo = s.valWeightLo ∧ t.valWeightHi = s.valWeightHi := by
  cases e with
  | valueat => exact absurd rfl other
  | _ => exact ⟨rfl, rfl, rfl, rfl, rfl⟩

/-- FREQ and NODE are INIT's and OBSERVE's (40_frequency.md R101, R102). -/
theorem Effect.tree_kept (e : Effect s i t) (notInit : i ≠ .init) (notObserve : ∀ sym, i ≠ .observe sym) :
    t.freq = s.freq ∧ t.node = s.node := by
  cases e with
  | init => exact absurd rfl notInit
  | observe sym => exact absurd rfl (notObserve sym)
  | _ => exact ⟨rfl, rfl⟩

/-- FATAL is written by INIT and by the commands that have a fatal error, ENCODE, EOFCODE and DECODE
(60_exceptions.md R203). -/
theorem Effect.fatal_kept (e : Effect s i t)
    (who : i = .nop ∨ i = .valueat ∨ (∃ sym, i = .observe sym) ∨ (∃ sym, i = .getcount sym)) : t.fatal = s.fatal := by
  rcases e.fatal_cases with same | ⟨-, ⟨-, rfl | ⟨sym, rfl⟩⟩ | ⟨-, rfl⟩⟩ | ⟨-, rfl⟩
  · exact same
  all_goals simp at who

end Sys2Proof.Machine
end

section
/-! PROOFS. What a read finds while BUSY = 1 (70_reset_and_hazards.md R234, 93_implementation_defined.md U2). -/

namespace Sys2Proof.Machine

/-- The flags and the reserved bits of the STATUS word (10_state.md R23). -/
theorem statusWord_fields (err : BitVec 4) (busy fatal : Bool) :
    (statusWord err busy fatal).getLsbD 8 = busy ∧ (statusWord err busy fatal).getLsbD 9 = fatal ∧
      (statusWord err busy fatal).extractLsb' 4 4 = 0#4 ∧ (statusWord err busy fatal).extractLsb' 10 22 = 0#22 := by
  have low := err.isLt
  have value := statusWord_toNat err busy fatal
  refine ⟨?_, ?_, BitVec.eq_of_toNat_eq ?_, BitVec.eq_of_toNat_eq ?_⟩
  · simp only [statusWord, BitVec.getLsbD_append]
    simp
  · simp only [statusWord, BitVec.getLsbD_append]
    simp
  · rw [BitVec.extractLsb'_toNat, value, Nat.shiftRight_eq_div_pow, BitVec.toNat_ofNat]
    omega
  · have := busy.toNat_le
    have := fatal.toNat_le
    rw [BitVec.extractLsb'_toNat, value, Nat.shiftRight_eq_div_pow, BitVec.toNat_ofNat]
    omega

/-- An aligned offset at which a register stands is that register's (10_state.md R21). -/
theorem offset_eq_of_locate_register {p : Params} {a : Offset} {r : Register} (aligned : a.toNat % 4 = 0)
    (here : locate p a = .register r) : a = r.offset := by
  have low : a.toNat < 0x48 := by
    by_contra high
    rw [locate, if_neg high] at here
    split_ifs at here
  obtain ⟨r', rfl, there⟩ := locate_register p low aligned
  rw [Location.register.inj (there.symm.trans here)]

/-- With BUSY = 1 a read draws a free value and answers what stands there while busy. -/
theorem hostAccess_read_busy {s : State} (busy : s.busy = true) {a : Offset} (aligned : a.toNat % 4 = 0) :
    hostAccess (.read 4 a) s = .next { s with
      reply := some (s.readBusy (Config.freeWord s.fresh) (locate s.params a)), fresh := s.fresh + 1 } := by
  rw [hostAccess_read s aligned, State.answerRead, if_pos busy]

/-- With BUSY = 1 a read of a register's offset answers what the register is while busy. -/
theorem hostAccess_readRegister_busy {s : State} (busy : s.busy = true) (r : Register) :
    hostAccess (.read 4 r.offset) s = .next { s with
      reply := some (s.readBusy (Config.freeWord s.fresh) (.register r)), fresh := s.fresh + 1 } := by
  rw [hostAccess_read_busy busy r.offset_aligned, locate_offset]

/-- With BUSY = 1 only STATUS and the PARAM constants are specified: everywhere else a read finds the free value. -/
theorem readBusy_locate_of_unspecified (s : State) (free : Word) {a : Offset} (aligned : a.toNat % 4 = 0)
    (unspecified : a.toNat ∉ [0x004, 0x038, 0x03C, 0x040, 0x044]) : s.readBusy free (locate s.params a) = free := by
  cases here : locate s.params a with
  | register r =>
    obtain rfl := offset_eq_of_locate_register aligned here
    cases r with
    | status | paramA | paramEofWeight | paramCw | paramInCap => exact absurd (by decide) unspecified
    | _ => rfl
  | _ => rfl

end Sys2Proof.Machine
end

section
/-! PROOFS. The reset step, the reset build and the state after it (70_reset_and_hazards.md R230–R232). -/

namespace Sys2Proof.Machine

/-- While the reset build runs and no host step comes before it, the step is its end. -/
theorem step_resetBuild {s : State} (build : s.engine = .resetBuild) (waits : s.hostWaits) :
    step s = .next s.finishResetBuild := by
  have busy : s.busy = true := by rw [State.busy, build]
  have moves : engineStep s = .next s.finishResetBuild := by rw [engineStep, build]
  exact (agentStep_busy busy waits).trans moves

/-- The reset build after a reset ends in the reset state; the bus side is as it was (log 9). -/
theorem finishResetBuild_assertReset (s : State) : s.assertReset.finishResetBuild =
    { State.resetOf s.params with host := s.host, reply := s.reply, fresh := s.fresh } := rfl

/-- The step after a reset, where no host step comes before it, is the reset build. -/
theorem step_assertReset {s : State} (waits : s.assertReset.hostWaits) :
    step s.assertReset = .next { State.resetOf s.params with host := s.host, reply := s.reply, fresh := s.fresh } := by
  rw [step_resetBuild s.assertReset_engine waits, finishResetBuild_assertReset]

/-- Every bit of CODE_BITS is 0 at reset. -/
theorem resetOf_codeBit (p : Params) (i : Nat) : (State.resetOf p).codeBit i = false := by
  have word : (List.replicate p.codeWords 0#32).getD (i / 32) 0#32 = 0#32 := by
    rw [List.getD, List.getElem?_replicate]
    split <;> rfl
  show ((List.replicate p.codeWords 0#32).getD (i / 32) 0#32).getLsbD (i % 32) = false
  rw [word, BitVec.getLsbD_zero]

/-- STATUS is 0 at reset: ERR = OK, BUSY = 0 and FATAL = 0. -/
theorem resetOf_status (p : Params) : (State.resetOf p).readRegister .status = 0#32 := by
  show statusWord 0#4 false false = 0#32
  decide

/-- The reset state of a legal configuration meets the invariant. -/
theorem resetOf_inv {p : Params} (legal : p.legal) : (State.resetOf p).Inv where
  legal := legal
  noFatal := rfl
  freqLength := initialFreq_length p legal.1
  eofCount := initialFreq_eof p
  tree := rfl
  memWf := ⟨.nil, nofun⟩
  memPlaces := nofun
  memWords := nofun
  codeWords := List.length_replicate
  codeLen := Nat.zero_le _
  codeClear i _ := resetOf_codeBit p i
  resultSym := Nat.lt_of_lt_of_le Nat.zero_lt_two legal.1
  valKey := Nat.zero_le _

end Sys2Proof.Machine
end

section
/-! PROOFS. BUSY ends: a step of a busy instance ends the command or takes one host step off the pending list
(70_reset_and_hazards.md R236, 93_implementation_defined.md U4; log 1, log 18). -/

namespace Sys2Proof.Machine

/-- No host access changes which host steps are still to come. -/
theorem hostAccess_host {a : HostAccess} {s t : State} (taken : hostAccess a s = .next t) : t.host = s.host := by
  rcases hostAccess_next taken with ⟨-, rfl⟩ | ⟨_, -, -, rfl⟩ | ⟨_, _, -, -, -, rfl⟩
  · exact s.assertReset_host
  · exact s.answerRead_host _
  · exact s.acceptWrite_host _ _

/-- A step that goes on ends with BUSY = 0, or it has taken the oldest host step. -/
theorem step_ends_or_takes {s t : State} (stepped : step s = .next t) :
    t.busy = false ∨ ∃ h, s.host = h :: t.host := by
  rcases step_next stepped with ⟨idle, -, rfl⟩ | ⟨-, ran⟩ | ⟨-, rfl⟩ | ⟨h, later, pending, taken⟩
  · exact .inl (by rw [State.busy, idle])
  · exact .inl (runCommand_cmd_busy ran).2
  · exact .inl rfl
  · exact .inr ⟨h, by rw [hostAccess_host taken, pending]⟩

/-- After `k` steps the instance is idle, or a step before stopped it with a fault or a refusal. -/
def State.endsBy (s : State) (k : Nat) : Prop :=
  (∃ t, s.run k = .next t ∧ t.busy = false) ∨ (∃ e, s.run k = .fault e) ∨ (∃ e, s.run k = .refused e)

/-- An idle instance has ended. -/
theorem endsBy_zero {s : State} (idle : s.busy = false) : s.endsBy 0 := .inl ⟨s, rfl, idle⟩

/-- A run whose first step goes on is that step and then the others. -/
theorem run_succ_of_next {M : Host.Core} {s t : M.State} (stepped : M.step s = .next t) (k : Nat) :
    M.run (k + 1) s = M.run k t := by rw [Host.Core.run, stepped]

/-- A run whose first step faults ends with that fault. -/
theorem run_succ_of_fault {M : Host.Core} {s : M.State} {e : M.Fault} (stepped : M.step s = .fault e) (k : Nat) :
    M.run (k + 1) s = .fault e := by rw [Host.Core.run, stepped]

/-- A run whose first step is refused ends with that refusal. -/
theorem run_succ_of_refused {M : Host.Core} {s : M.State} {e : M.Refusal} (stepped : M.step s = .refused e)
    (k : Nat) : M.run (k + 1) s = .refused e := by rw [Host.Core.run, stepped]

/-- What ends after the first step ends one step later. -/
theorem endsBy_succ_of_next {s t : State} (stepped : step s = .next t) {k : Nat} (ends : t.endsBy k) :
    s.endsBy (k + 1) := by
  have runs : s.run (k + 1) = t.run k := run_succ_of_next (M := core) stepped k
  rwa [State.endsBy, runs]

/-- One step ends the run, or it takes the oldest host step and goes on. -/
theorem endsBy_one_or_takes (s : State) : s.endsBy 1 ∨ ∃ h t, step s = .next t ∧ s.host = h :: t.host := by
  cases stepped : step s with
  | fault e => exact .inl (.inr (.inl ⟨e, run_succ_of_fault (M := core) stepped 0⟩))
  | refused e => exact .inl (.inr (.inr ⟨e, run_succ_of_refused (M := core) stepped 0⟩))
  | next t =>
    rcases step_ends_or_takes stepped with idle | ⟨h, taken⟩
    · exact .inl (endsBy_succ_of_next stepped (endsBy_zero idle))
    · exact .inr ⟨h, t, rfl, taken⟩

/-- The host steps to come bound the run: each step that does not end it takes one of them. -/
theorem exists_endsBy {pending : List HostStep} {s : State} (here : s.host = pending) :
    ∃ k ≤ pending.length + 1, s.endsBy k := by
  induction pending generalizing s with
  | nil =>
    rcases endsBy_one_or_takes s with ends | ⟨h, t, -, taken⟩
    · exact ⟨1, le_rfl, ends⟩
    · cases here.symm.trans taken
  | cons first later ih =>
    rcases endsBy_one_or_takes s with ends | ⟨h, t, stepped, taken⟩
    · exact ⟨1, Nat.le_add_left .., ends⟩
    · obtain ⟨-, rest⟩ := List.cons.inj (here.symm.trans taken)
      obtain ⟨k, bound, ends⟩ := ih rest.symm
      exact ⟨k + 1, Nat.succ_le_succ bound, endsBy_succ_of_next stepped ends⟩

end Sys2Proof.Machine
end

section
/-! PROOFS. The statements of 70_reset_and_hazards.md. -/

namespace Sys2Proof

open Machine

/-- Settles O49: each field of the reset state, by the initial table and its tree. -/
theorem resetMeetsTheInvariant : Obligations.ResetMeetsTheInvariant := by
  unfold Obligations.ResetMeetsTheInvariant
  exact fun p legal => resetOf_inv legal

/-- Settles O48: the step after the reset is the build, and it ends in the reset state. -/
theorem resetBuildReachesTheResetState : Obligations.ResetBuildReachesTheResetState := by
  unfold Obligations.ResetBuildReachesTheResetState
  exact fun s => ⟨s.assertReset, rfl, rfl, rfl, rfl, rfl, step_assertReset⟩

/-- Settles O47: the table's values stand in `State.resetOf`, and the initial counts are those of INIT. -/
theorem resetValues : Obligations.ResetValues := by
  unfold Obligations.ResetValues
  refine ⟨fun p => ?_, rfl, fun s => ⟨s.assertReset, rfl, rfl, fun waits => ⟨_, step_assertReset waits, rfl⟩⟩⟩
  have codeBits := resetOf_codeBit p
  have dataCounts : ∀ sym < p.eofSym, (State.resetOf p).countOf sym = 0#32 := fun _ data => initialFreq_data data
  have eofCount : (State.resetOf p).countOf p.eofSym = BitVec.ofNat 32 p.eofWeight := initialFreq_eof p
  exact ⟨rfl, rfl, rfl, rfl, rfl, rfl, rfl, rfl, rfl, rfl, rfl, rfl, rfl, rfl, rfl, rfl, rfl, codeBits, fun _ => rfl,
    fun _ => rfl, dataCounts, eofCount, rfl, resetOf_status p, rfl, rfl, rfl, rfl⟩

/-- Settles O9: the host steps to come bound the run. -/
theorem busyEnds : Obligations.BusyEnds := by
  unfold Obligations.BusyEnds
  exact fun s => exists_endsBy (s := s) rfl

/-- Settles O38: each register group is kept by every effect of a command that does not own it. -/
theorem commandFrames : Obligations.CommandFrames := by
  unfold Obligations.CommandFrames
  intro i s t executed
  have effect := exec_effect executed
  obtain ⟨params, pathLen, inLen, mem, host, reply, fresh⟩ := effect.inputs_kept
  obtain ⟨cmd, ended⟩ := effect.cmd_busy
  exact ⟨params, cmd, pathLen, inLen, host, reply, fresh, ended, fun _ => by rw [mem], effect.decoder_kept,
    effect.countOut_kept, effect.code_kept, effect.val_kept, effect.tree_kept, effect.fatal_kept⟩

/-- Settles O44: by what stands at the offset, of which only STATUS and the constants have a value while BUSY = 1. -/
theorem busyHazard : Obligations.BusyHazard := by
  unfold Obligations.BusyHazard
  intro s busy
  refine ⟨fun a v aligned => hostAccess_write_busy busy aligned v,
    ⟨_, _, hostAccess_readRegister_busy busy .status, rfl, statusWord_fields _ true s.fatal⟩,
    ⟨_, hostAccess_readRegister_busy busy .paramA, rfl⟩, ⟨_, hostAccess_readRegister_busy busy .paramEofWeight, rfl⟩,
    ⟨_, hostAccess_readRegister_busy busy .paramCw, rfl⟩, ⟨_, hostAccess_readRegister_busy busy .paramInCap, rfl⟩,
    fun a aligned unspecified => ?_, fun a aligned => ⟨_, hostAccess_read s aligned, answerRead_sameHcc s _⟩⟩
  rw [hostAccess_read_busy busy aligned, readBusy_locate_of_unspecified s _ aligned unspecified]

end Sys2Proof
end
